-- ==== Sys2Proof/Word.lean ====
section
/-! DEFINITION. The word and byte types of the HUFFPACK block (spec 10_state.md, 20_memory.md). -/

namespace Sys2Proof

/-- A 32-bit word: every register, every `IX` entry and the command word (R17, R18, R19, R22). -/
abbrev Word := BitVec 32

/-- A byte of the output space `OUT` (R30). -/
abbrev Byte := BitVec 8

end Sys2Proof
end

