-- ==== Sys2Proof/Syntax.lean ====
section
/-! DEFINITION. The eleven commands of the block (spec 30_encoding.md R47), one constructor per row of the opcode
table. The operands carried by a constructor are those of the command word's `a` field; all other operands are read
from registers when the command runs (R45, R46). -/

namespace Sys2Proof

/-- A decoded command. The argument of a constructor is the command word's field `a`, zero-extended to a natural (R46). -/
inductive Instr where
  /-- `NEW`: initialise the writer with the capacity in `OP0` (R62). -/
  | new
  /-- `RESET`: empty buffer and cache, keep the capacity (R69). -/
  | reset
  /-- `WRITE_BITS`: append the low `n` bits of `OP0` (R65). -/
  | writeBits (n : Nat)
  /-- `GET_BITS_COUNT`: the stream's bit count into `RES0` (R66). -/
  | getBitsCount
  /-- `BYTE_ALIGN`, also spelt `FLUSH`: write out the cache, padded to a byte (R67, R68). -/
  | byteAlign
  /-- `SELECT_TABLE`: choose a pair table for `IX[OP0..OP1)` (R97). -/
  | selectTable
  /-- `COUNT_BITS`: the cost of `IX[OP0..OP1)` in pair table `t` (R102). -/
  | countBits (t : Nat)
  /-- `COUNT1_BITS`: the cost of `OP1` quadruples from `IX[OP0]`, and the cheaper count1 table (R106). -/
  | count1Bits
  /-- `ENCODE_PAIR`: append the code of `(OP0, OP1)` in pair table `t` (R116). -/
  | encodePair (t : Nat)
  /-- `ENCODE_QUAD`: append the code of `(OP0, OP1, OP2, OP3)` in count1 table `32 + sel` (R122). -/
  | encodeQuad (sel : Nat)
  /-- `ENCODE_GRANULE`: append one granule's big-values and count1 regions (R126). -/
  | encodeGranule
deriving DecidableEq, Repr

end Sys2Proof
end

