-- ==== Sys2Proof/WellFormed.lean ====
section
/-! DEFINITION. Which terms of `Instr` a command word can spell (spec 30_encoding.md R45, R46): the one check is that
an immediate fits the 8-bit field `a`. Values of `a` that fit but are out of range for the command (a bit count above
32, a table above 31) are legal words (R49) and raise the command's own fault when it runs. -/

namespace Sys2Proof

/-- An immediate fits the 8-bit unsigned field `a` (R45). -/
abbrev fitsImmediate (a : Nat) : Prop := a < 256

/-- A command that some command word spells. -/
def Instr.wellFormed : Instr → Bool
  | .new => true
  | .reset => true
  | .writeBits n => decide (fitsImmediate n)
  | .getBitsCount => true
  | .byteAlign => true
  | .selectTable => true
  | .countBits t => decide (fitsImmediate t)
  | .count1Bits => true
  | .encodePair t => decide (fitsImmediate t)
  | .encodeQuad sel => decide (fitsImmediate sel)
  | .encodeGranule => true

end Sys2Proof
end

