-- ==== Sys2Proof/Decode.lean ====
section
/-! DEFINITION. Command words (spec 30_encoding.md R45 to R49): the decoder, total on 32-bit words and rejecting by
name, then the encoder, written from the same opcode map. Decoding reads no state (R48). -/

namespace Sys2Proof

/-- Why a command word is illegal (R49). All three raise `IllegalCommand` (R138). -/
inductive DecodeError where
  /-- R49 (a): the opcode is none of 0x01..0x05, 0x10..0x15. -/
  | unknownOpcode
  /-- R49 (b): bits 15:0 are not zero. -/
  | nonzeroZeroField
  /-- R49 (c): `a` is not zero in a command that has no `a`. -/
  | nonzeroImmediate
deriving DecidableEq, Repr

/-- Bits 31:24 of a command word (R45). -/
def opcodeField (w : Word) : BitVec 8 := w.extractLsb' 24 8

/-- Bits 23:16 of a command word, `a` (R45). -/
def immediateField (w : Word) : BitVec 8 := w.extractLsb' 16 8

/-- Bits 15:0 of a command word, which must be zero (R45). -/
def zeroField (w : Word) : BitVec 16 := w.extractLsb' 0 16

/-- A command without an immediate: `a` must be zero (R47, R49 (c)). -/
def decodePlain (a : Nat) (i : Instr) : Except DecodeError Instr :=
  if a = 0 then .ok i else .error .nonzeroImmediate

/-- The opcode map of R47, given the opcode and `a` as naturals. -/
def decodeOpcode (opcode a : Nat) : Except DecodeError Instr :=
  match opcode with
  | 0x01 => decodePlain a .new
  | 0x02 => decodePlain a .reset
  | 0x03 => .ok (.writeBits a)
  | 0x04 => decodePlain a .getBitsCount
  | 0x05 => decodePlain a .byteAlign
  | 0x10 => decodePlain a .selectTable
  | 0x11 => .ok (.countBits a)
  | 0x12 => decodePlain a .count1Bits
  | 0x13 => .ok (.encodePair a)
  | 0x14 => .ok (.encodeQuad a)
  | 0x15 => decodePlain a .encodeGranule
  | _ => .error .unknownOpcode

/-- The command a word spells, or why it spells none (R48, R49). -/
def decode (w : Word) : Except DecodeError Instr :=
  if zeroField w ≠ 0 then .error .nonzeroZeroField
  else decodeOpcode (opcodeField w).toNat (immediateField w).toNat

/-- The opcode of a command (R47). -/
def Instr.opcode : Instr → Nat
  | .new => 0x01
  | .reset => 0x02
  | .writeBits _ => 0x03
  | .getBitsCount => 0x04
  | .byteAlign => 0x05
  | .selectTable => 0x10
  | .countBits _ => 0x11
  | .count1Bits => 0x12
  | .encodePair _ => 0x13
  | .encodeQuad _ => 0x14
  | .encodeGranule => 0x15

/-- The immediate `a` of a command, 0 where it has none (R47). -/
def Instr.immediate : Instr → Nat
  | .writeBits n => n
  | .countBits t => t
  | .encodePair t => t
  | .encodeQuad sel => sel
  | .new => 0
  | .reset => 0
  | .getBitsCount => 0
  | .byteAlign => 0
  | .selectTable => 0
  | .count1Bits => 0
  | .encodeGranule => 0

/-- The command word of a command: opcode, `a`, sixteen zeros (R45). -/
def encode (i : Instr) : Word :=
  BitVec.ofNat 8 i.opcode ++ BitVec.ofNat 8 i.immediate ++ 0#16

/-- The command word whose bits are `w`, of which the opcode table gives `nbits`; every bit above them is zero. The
block has one format of one 32-bit word (R45), delivered by the host's write of `CMD` (R43). -/
def tableWord (nbits w : Nat) : Word := BitVec.ofNat 32 (w % 2 ^ nbits)

/-- The instruction the decoder reads from a row's word. -/
def decodeTableWord (nbits w : Nat) : Option Instr := (decode (tableWord nbits w)).toOption

end Sys2Proof
end

