-- ==== Sys2Proof/Config.lean ====
section
/-! DEFINITION. What an implementation fixes and what the spec leaves open: the table ROM `HT` and the parameters of
spec 00_scope.md R5, the well-formedness of a ROM image (41_huffman_tables.md R81 to R86), and the free values. The
parameters are the model's argument: a state carries them (State.lean, `params`) and no step changes them. -/

namespace Sys2Proof

/-- One entry of the table ROM (R81). -/
structure Table where
  /-- Number of legal first indices. -/
  xlen : Nat
  /-- Number of legal second indices, and the row stride. -/
  ylen : Nat
  /-- Width of each escape extension field. -/
  linbits : Nat
  /-- The largest value an extension field may carry (R87). -/
  linmax : Nat
  /-- Code words, right-justified, indexed by `x*ylen + y`. -/
  codes : List Nat
  /-- Code word lengths, parallel to `codes`. -/
  lengths : List Nat
deriving DecidableEq, Repr

/-- A table with no arrays, which can encode nothing (R82). -/
def Table.empty : Table := ⟨0, 0, 0, 0, [], []⟩

/-- A ROM image: the 34 entries `HT[0..33]` (R80). -/
structure Rom where
  tables : List Table
deriving DecidableEq, Repr

/-- `HT[t]` (R7, R33). -/
def Rom.table (ht : Rom) (t : Nat) : Table := ht.tables.getD t Table.empty

/-- A `(code, length)` pair whose bit string is a prefix of the other's (R85), equal strings included. -/
def codeIsPrefix (a b : Nat × Nat) : Bool :=
  decide (a.2 ≤ b.2) && (b.1 % 2 ^ b.2) / 2 ^ (b.2 - a.2) == a.1 % 2 ^ a.2

/-- The `(code, length)` pairs of an entry. -/
def Table.words (h : Table) : List (Nat × Nat) := h.codes.zip h.lengths

/-- R85: the code words of one table are pairwise distinct and none is a prefix of another. -/
abbrev Table.PrefixFree (h : Table) : Prop :=
  h.words.Pairwise fun a b => codeIsPrefix a b = false ∧ codeIsPrefix b a = false

/-- R84, last sentence but one: every length is at least 1 and every code fits its length. -/
abbrev Table.CodesFit (h : Table) : Prop := ∀ e ∈ h.words, 1 ≤ e.2 ∧ e.1 < 2 ^ e.2

/-- R82: 34 entries, of which entry 0 is the unused, empty one; `linbits` is at most 15 in each (R81). -/
abbrev Rom.ShapeOk (ht : Rom) : Prop :=
  ht.tables.length = 34 ∧
    ((ht.table 0).xlen = 0 ∧ (ht.table 0).ylen = 0 ∧ (ht.table 0).codes = [] ∧ (ht.table 0).lengths = []) ∧
    ∀ t, t < 34 → (ht.table t).linbits ≤ 15

/-- R83: the arrays have the sizes their indices need. -/
abbrev Rom.SizesOk (ht : Rom) : Prop :=
  (∀ t, t < 32 → (ht.table t).codes.length = (ht.table t).xlen * (ht.table t).ylen ∧
    (ht.table t).lengths.length = (ht.table t).xlen * (ht.table t).ylen) ∧
  ∀ t, t < 34 → 32 ≤ t → (ht.table t).codes.length = 16 ∧ (ht.table t).lengths.length = 16

/-- R84: every field the encoder emits has a width of at most 32. -/
abbrev Rom.WidthsOk (ht : Rom) : Prop :=
  (∀ t, t < 16 → ∀ n ∈ (ht.table t).lengths, n + 2 ≤ 32) ∧
  (∀ t, t < 34 → 16 ≤ t → ∀ n ∈ (ht.table t).lengths, n ≤ 32) ∧
  (∀ t, t < 32 → 16 ≤ t → 2 * (ht.table t).linbits + 2 ≤ 32) ∧
  ∀ t, t < 34 → (ht.table t).CodesFit

/-- R85 for every entry. -/
abbrev Rom.Decodable (ht : Rom) : Prop := ∀ t, t < 34 → (ht.table t).PrefixFree

/-- R86: tables 16 to 31 are 16 by 16 and their `linmax` fits their extension field. -/
abbrev Rom.EscapesOk (ht : Rom) : Prop :=
  ∀ t, t < 32 → 16 ≤ t → (ht.table t).xlen = 16 ∧ (ht.table t).ylen = 16 ∧
    (ht.table t).linmax ≤ 2 ^ (ht.table t).linbits - 1

/-- A ROM image that meets R81 to R86. -/
abbrev Rom.WellFormed (ht : Rom) : Prop :=
  ht.ShapeOk ∧ ht.SizesOk ∧ ht.WidthsOk ∧ ht.Decodable ∧ ht.EscapesOk

/-- The check of a ROM image (R83, 93 U13), as a function that can be run. -/
def Rom.check (ht : Rom) : Bool :=
  decide ht.ShapeOk && decide ht.SizesOk && decide ht.WidthsOk && decide ht.Decodable && decide ht.EscapesOk

theorem Rom.check_iff (ht : Rom) : ht.check = true ↔ ht.WellFormed := by
  simp only [Rom.check, Bool.and_eq_true, decide_eq_true_eq, Rom.WellFormed, and_assoc]

/-- `TIE_NOESC` (R5): who wins on equal counts in the no-escape substitutions of `SELECT_TABLE`. -/
inductive TieNoesc where
  | later
  | earlier
deriving DecidableEq, Repr, Inhabited

/-- `TIE_ESC` (R5): who wins on equal counts between the 15..23 and the 24..31 candidate. -/
inductive TieEsc where
  | first
  | second
deriving DecidableEq, Repr, Inhabited

/-- The parameters of R5 that the spec leaves `OPEN`. `CAP0` is not among them: it is the operand of `NEW`. -/
structure Params where
  /-- `HT` (R80). -/
  ht : Rom
  /-- `CAP_LIMIT`, in bytes. -/
  capLimit : Nat
  tieNoesc : TieNoesc
  tieEsc : TieEsc
  /-- `COUNT1_TIE`: the select `COUNT1_BITS` answers on equal sums. -/
  count1Tie : Fin 2
deriving DecidableEq, Repr

/-- `CACHE_BITS` (R5). -/
def cacheBits : Nat := 32
/-- `FLUSH_BYTES` (R5). -/
def flushBytes : Nat := 4
/-- `MAX_WRITE` (R5). -/
def maxWrite : Nat := 32
/-- `GRANULE_SIZE` (R5). -/
def granuleSize : Nat := 576
/-- `BIG_VALUES_MAX` (R5). -/
def bigValuesMax : Nat := 288
/-- `COUNT1_MAX` (R5). -/
def count1Max : Nat := 144
/-- `ESCAPE_THRESHOLD` (R5): magnitudes above 14 are escaped in tables above 15. -/
def escapeThreshold : Nat := 15
/-- The smallest capacity `NEW` takes (R62). -/
def capMin : Nat := 8
/-- The largest `CAP_LIMIT`, and its default (R5). -/
def capLimitMax : Nat := 2 ^ 29 - 1

/-- Parameters the spec admits: the ROM image meets R81 to R86 and `8 ≤ CAP_LIMIT ≤ 2^29 − 1` (R5). -/
abbrev Params.WellFormed (p : Params) : Prop :=
  p.ht.WellFormed ∧ capMin ≤ p.capLimit ∧ p.capLimit ≤ capLimitMax

/-- The check of the parameters, as a function that can be run. -/
def Params.check (p : Params) : Bool := p.ht.check && decide (capMin ≤ p.capLimit ∧ p.capLimit ≤ capLimitMax)

theorem Params.check_iff (p : Params) : p.check = true ↔ p.WellFormed := by
  simp only [Params.check, Bool.and_eq_true, decide_eq_true_eq, Rom.check_iff, Params.WellFormed]

/-! An inhabitant of the admitted parameters, needed only so that the uninterpreted constant below may be declared: a
ROM of fixed-length codes. No statement can mention its values through `Config.machine`. -/

/-- An `x` by `y` table of `k`-bit codes, `codes[idx] = f idx`. -/
def Table.fixedLength (x y linbits linmax k : Nat) (f : Nat → Nat) : Table :=
  ⟨x, y, linbits, linmax, (List.range (x * y)).map f, List.replicate (x * y) k⟩

theorem Table.fixedLength_words (x y linbits linmax k : Nat) (f : Nat → Nat) :
    (Table.fixedLength x y linbits linmax k f).words = (List.range (x * y)).map fun i => (f i, k) := by
  unfold Table.words Table.fixedLength
  apply List.ext_getElem <;> simp

theorem Table.fixedLength_codesFit {x y linbits linmax k : Nat} {f : Nat → Nat} (hk : 1 ≤ k)
    (hf : ∀ i, i < x * y → f i < 2 ^ k) : (Table.fixedLength x y linbits linmax k f).CodesFit := by
  unfold Table.CodesFit
  rw [Table.fixedLength_words]
  intro e he
  obtain ⟨i, hi, rfl⟩ := List.mem_map.mp he
  exact ⟨hk, hf i (List.mem_range.mp hi)⟩

theorem Table.fixedLength_prefixFree {x y linbits linmax k : Nat} {f : Nat → Nat}
    (hf : ∀ i, i < x * y → f i < 2 ^ k) (hinj : ∀ i j, j < x * y → i < j → f i ≠ f j) :
    (Table.fixedLength x y linbits linmax k f).PrefixFree := by
  unfold Table.PrefixFree
  rw [Table.fixedLength_words, List.pairwise_map]
  refine List.Pairwise.imp_of_mem ?_ List.pairwise_lt_range
  intro i j hi hj hij
  have hi' := hf i (List.mem_range.mp hi)
  have hj' := hf j (List.mem_range.mp hj)
  have hne := hinj i j (List.mem_range.mp hj) hij
  simp only [codeIsPrefix, Nat.mod_eq_of_lt hi', Nat.mod_eq_of_lt hj', Nat.sub_self, Nat.pow_zero, Nat.div_one]
  simp [hne, hne.symm]

theorem Table.fixedLength_sizes (x y linbits linmax k : Nat) (f : Nat → Nat) :
    (Table.fixedLength x y linbits linmax k f).codes.length = x * y ∧
      (Table.fixedLength x y linbits linmax k f).lengths.length = x * y := by
  simp [Table.fixedLength]

theorem Table.fixedLength_mem_lengths {x y linbits linmax k n : Nat} {f : Nat → Nat}
    (h : n ∈ (Table.fixedLength x y linbits linmax k f).lengths) : n = k :=
  (List.mem_replicate.mp h).2

/-- A ROM of fixed-length codes: 8 bits in every pair table, 4 in the count1 tables. -/
def Rom.flat : Rom :=
  ⟨Table.empty :: (List.replicate 31 (Table.fixedLength 16 16 0 0 8 id) ++
    List.replicate 2 (Table.fixedLength 1 16 0 0 4 id))⟩

theorem Rom.flat_table (t : Nat) (ht : t < 34) :
    Rom.flat.table t = if t = 0 then Table.empty
      else if t < 32 then Table.fixedLength 16 16 0 0 8 id else Table.fixedLength 1 16 0 0 4 id := by
  interval_cases t <;> rfl

theorem Table.empty_codesFit : Table.empty.CodesFit := by intro e he; cases he

theorem Table.empty_prefixFree : Table.empty.PrefixFree := List.Pairwise.nil

theorem Rom.flat_wellFormed : Rom.flat.WellFormed := by
  refine ⟨⟨rfl, ⟨rfl, rfl, rfl, rfl⟩, ?_⟩, ⟨?_, ?_⟩, ⟨?_, ?_, ?_, ?_⟩, ?_, ?_⟩ <;> intro t h
  all_goals rw [Rom.flat_table t (by omega)]
  · split_ifs <;> exact Nat.zero_le _
  · split_ifs
    · exact ⟨rfl, rfl⟩
    · exact Table.fixedLength_sizes 16 16 0 0 8 id
  · intro h2
    rw [if_neg (by omega), if_neg (by omega)]
    exact Table.fixedLength_sizes 1 16 0 0 4 id
  · rw [if_pos (show t < 32 by omega)]
    intro n hn
    split_ifs at hn
    · cases hn
    · have := Table.fixedLength_mem_lengths hn
      omega
  · intro h2 n hn
    rw [if_neg (by omega)] at hn
    split_ifs at hn <;> have := Table.fixedLength_mem_lengths hn <;> omega
  · intro _
    split_ifs <;> exact Nat.le_of_ble_eq_true rfl
  · split_ifs
    · exact Table.empty_codesFit
    · exact Table.fixedLength_codesFit (by norm_num) (fun i hi => by simp at hi ⊢; omega)
    · exact Table.fixedLength_codesFit (by norm_num) (fun i hi => by simp at hi ⊢; omega)
  · split_ifs
    · exact Table.empty_prefixFree
    · exact Table.fixedLength_prefixFree (fun i hi => by simp at hi ⊢; omega) (fun i j _ h => Nat.ne_of_lt h)
    · exact Table.fixedLength_prefixFree (fun i hi => by simp at hi ⊢; omega) (fun i j _ h => Nat.ne_of_lt h)
  · intro h2
    rw [if_neg (by omega), if_pos h]
    exact ⟨rfl, rfl, Nat.zero_le _⟩

/-- The parameters of the inhabitant. -/
def Params.flat : Params := ⟨Rom.flat, capLimitMax, .later, .first, 1⟩

theorem Params.flat_wellFormed : Params.flat.WellFormed :=
  ⟨Rom.flat_wellFormed, by decide, by decide⟩

/-- Parameters together with the proof that the spec admits them: "a model checks these sizes once, on the ROM image,
and refuses an image that fails them" (R83). -/
structure CheckedParams where
  params : Params := Params.flat
  ok : params.WellFormed := by exact Params.flat_wellFormed
deriving Inhabited

/-- The parameters of the implementation the block is built with: an uninterpreted constant, of which nothing can be
proved but that the spec admits it (R5, R80; notes/assumptions/1.md). -/
opaque Config.machine : CheckedParams

/-- What a coefficient the host has not written since power-on reads as: a free value of the entry (R19, R128, 93 U6;
notes/assumptions/4.md). -/
opaque Config.unwrittenCoefficient : Nat → Word

/-- What `RES0` holds after `GET_BITS_COUNT` when the bit count does not fit 32 bits: a free value of the count. The spec says
that this cannot happen (R66, R151), but `8*pos + 31` passes `2^32` from `pos = 2^29 − 3` on, and R5 admits `pos` up to
`2^29 − 1` (notes/assumptions/9.md). -/
opaque Config.bitCountOverflow : Nat → Word

/-- What a read of `OUT[k]` with `k ≥ pos` answers: a free value, fresh at each such read (R31, 93 U5;
notes/assumptions/5.md). -/
opaque Config.unspecifiedOutByte : Nat → Byte

end Sys2Proof
end

