-- ==== Sys2Proof/Machine/State.lean ====
section
/-! DEFINITION. The state of the block (spec 10_state.md R10 to R29), the host's pending accesses (R165), the
parameters a run is carried out under (R5), and the reasons a step of the model can stop. All of it is plain data. -/

namespace Sys2Proof.Machine

/-- A memory: `(address, value)` pairs in the canonical form `Memory.wf` (Ops.lean). An unlisted address holds no value. -/
abbrev Memory (width : Nat) := List (Nat × BitVec width)

/-- The fault codes of `STATUS.FAULT` and `STATUS.LAST` (R136). Codes 9 to 15 are reserved and never raised, so they
have no constructor. -/
inductive FaultCode where
  /-- 0: no error. -/
  | none
  /-- 1: more than 32 bits in one write (R65, R121). -/
  | bitstreamOverflow
  /-- 2: a magnitude the table cannot represent (R98 to R100, R104). -/
  | encodingRangeViolation
  /-- 3: `GI_BIG_VALUES` above 288 (R127). -/
  | bigValuesLimitExceeded
  /-- 4: a table, select, range or region operand out of range (R96, R106, R127). -/
  | invalidHuffmanIndex
  /-- 5: reserved for the PCM interface, never raised (R137). -/
  | inputShapeMismatch
  /-- 6: an illegal command word, or a `NEW` with an unusable capacity (R138). -/
  | illegalCommand
  /-- 7: a command other than `NEW` before the first completed `NEW` (R139). -/
  | notInitialised
  /-- 8: the output buffer would have to grow beyond `CAP_LIMIT` (R140). -/
  | bufferExhausted
deriving DecidableEq, Repr

/-- The writer state (R11 to R15). -/
structure Writer where
  /-- `buf`, the space `OUT`: the bytes `OUT[0..pos)` (R11, R31). -/
  buf : Memory 8
  /-- `pos`, the write cursor (R12). -/
  pos : Nat
  /-- `cap`, the capacity in bytes (R13). -/
  cap : Nat
  /-- `cache`: the accepted bits not yet in `OUT`, left-justified (R14). -/
  cache : Word
  /-- `free`: the number of unused low-order bits of `cache`, 1..32 (R15). -/
  free : Nat
deriving DecidableEq, Repr

/-- The fields of `STATUS` (R21). -/
structure Status where
  /-- `INIT`: a `NEW` has completed since power-on. -/
  init : Bool
  /-- `FAULT`: the latched fault code. -/
  fault : FaultCode
  /-- `LAST`: the result of the most recent command. -/
  last : FaultCode
deriving DecidableEq, Repr

/-- The general registers `x[0]..x[5]` (R17). -/
structure Regs where
  op0 : Word
  op1 : Word
  op2 : Word
  op3 : Word
  res0 : Word
  res1 : Word
deriving DecidableEq, Repr

/-- The granule registers (R18). -/
structure GranuleRegs where
  bigValues : Word
  count1 : Word
  address1 : Word
  address2 : Word
  address3 : Word
  tableSelect0 : Word
  tableSelect1 : Word
  tableSelect2 : Word
  count1TableSelect : Word
deriving DecidableEq, Repr

/-- The width of a host access to `REG` or `IX`. Only `word` is defined by the spec (R36). -/
inductive AccessSize where
  | byte
  | half
  | word
deriving DecidableEq, Repr

/-- One action of the host (R165): writes and reads of the register file and the `IX` window at a byte offset from the
block's base (R23), and reads of one byte of `OUT` (R31). A write of `CMD` is a write at offset 0. -/
inductive HostAction where
  | write (size : AccessSize) (offset : Nat) (value : Word)
  | read (size : AccessSize) (offset : Nat)
  | readOut (address : Nat)
deriving DecidableEq, Repr

/-- The state of the model. The first five fields are the block's state, exactly the list of R10. The rest is the
model's own: the parameters of R5, which no step changes, and the host's side of the interface (R165, R167). -/
structure State where
  /-- The writer (R11 to R15). -/
  writer : Writer
  /-- `STATUS` (R21). -/
  status : Status
  /-- `OP0..OP3`, `RES0`, `RES1` (R17). -/
  regs : Regs
  /-- `GI_*` (R18). -/
  granule : GranuleRegs
  /-- `IX[0..575]`: the entries the host has written since power-on (R19). -/
  ix : Memory 32
  /-- The parameters of R5 (`HT`, `CAP_LIMIT`, the tie rules); the model's argument, not the block's state. -/
  params : Params
  /-- The host's actions still to be carried out, first first (R165); the model's own field. -/
  hostQueue : List HostAction
  /-- What the host's latest read returned, a byte of `OUT` zero-extended; the model's own field. -/
  readData : Word
  /-- How many unspecified bytes of `OUT` the host has read: the index of the next free value; the model's own field. -/
  freeReads : Nat
deriving DecidableEq, Repr

/-- Why the model stops with a fault. No command raises one: the block reports its faults in `STATUS` and goes on (R144). -/
inductive Fault where
  /-- A host access at offset 0x1900 or above, which is no part of the block's map (R23, 93 U11). Raised by
  `hostRegister`; safe, since the model goes nowhere where the spec gives nothing. -/
  | offsetNotInMap
deriving DecidableEq, Repr

/-- Why the model refuses to go on. No command raises one. -/
inductive Refusal where
  /-- An instruction without a meaning, raised by `exec` alone; no arm of this model raises it. Safe. -/
  | notModelled (mnemonic : String)
  /-- A host access to `REG` or `IX` that is narrower than 32 bits or misaligned (R36, 93 U12). Raised by
  `hostRegister`; safe. -/
  | narrowOrMisalignedAccess
  /-- A configuration whose ROM image or `CAP_LIMIT` the spec does not admit (R5, R83, 93 U13). Raised by `powerOn`
  only; safe. -/
  | illFormedConfiguration
deriving DecidableEq, Repr

/-- The writer at power-on. The spec gives no value before the first `NEW` (R27); the values are the model's
(notes/assumptions/2.md). -/
def Writer.powerOn : Writer := ⟨[], 0, 0, 0, 32⟩

/-- The machine right after power-on (R27, R155): `INIT`, `FAULT` and `LAST` are 0, `IX` holds nothing, the parameters
are the implementation's. Every register the spec leaves unspecified is zero (notes/assumptions/2.md). -/
def State.reset : State where
  writer := Writer.powerOn
  status := ⟨false, .none, .none⟩
  regs := ⟨0, 0, 0, 0, 0, 0⟩
  granule := ⟨0, 0, 0, 0, 0, 0, 0, 0, 0⟩
  ix := []
  params := Config.machine.params
  hostQueue := []
  readData := 0
  freeReads := 0

end Sys2Proof.Machine
end

