-- ==== Sys2Proof/Machine/Flags.lean ====
section
/-! DEFINITION. The status register: the numbers of the fault codes (spec 60_exceptions.md R136), the word the host
reads (10_state.md R21), and the rules that read or set its fields (60_exceptions.md R141, R142). -/

namespace Sys2Proof.Machine

/-- The 4-bit code of a fault (R136). -/
def FaultCode.number : FaultCode → BitVec 4
  | .none => 0
  | .bitstreamOverflow => 1
  | .encodingRangeViolation => 2
  | .bigValuesLimitExceeded => 3
  | .invalidHuffmanIndex => 4
  | .inputShapeMismatch => 5
  | .illegalCommand => 6
  | .notInitialised => 7
  | .bufferExhausted => 8

/-- `STATUS` as the host reads it: `FAULT` in 3:0, `LAST` in 7:4, `INIT` in 8, zeros above (R21). -/
def Status.word (st : Status) : Word :=
  0#23 ++ BitVec.ofBool st.init ++ st.last.number ++ st.fault.number

/-- How a command stands to the entry checks (R142) and to the latch rule (R141). -/
inductive CommandKind where
  /-- `NEW`: always accepted. -/
  | initialise
  /-- `GET_BITS_COUNT`: accepted whatever `FAULT` holds. -/
  | bitCount
  /-- `SELECT_TABLE`, `COUNT_BITS`, `COUNT1_BITS`: a range violation does not latch. -/
  | query
  /-- `RESET`, `WRITE_BITS`, `BYTE_ALIGN` and the emission commands. -/
  | mutating
deriving DecidableEq, Repr

/-- R142: every command but `NEW` needs `INIT = 1`. -/
def CommandKind.needsInit (k : CommandKind) : Bool := k != .initialise

/-- R142: every command but `NEW` and `GET_BITS_COUNT` is refused while a fault is latched. -/
def CommandKind.refusedOnFault (k : CommandKind) : Bool := k != .initialise && k != .bitCount

/-- R141: whether fault `c` of a command of kind `k` may be latched; only a query's range violation may not. -/
def CommandKind.latches (k : CommandKind) (c : FaultCode) : Bool :=
  !(c == .encodingRangeViolation && k == .query)

/-- R141: `LAST` takes the code, and `FAULT` takes it too where it latches and nothing is latched yet. -/
def Status.raise (st : Status) (c : FaultCode) (latches : Bool) : Status :=
  { st with last := c, fault := if st.fault = .none ∧ latches = true then c else st.fault }

/-- R142: a refused command reports the latched code. -/
def Status.refuse (st : Status) : Status := { st with last := st.fault }

/-- R142: a command that completes sets `LAST <- 0`. -/
def Status.complete (st : Status) : Status := { st with last := .none }

/-- `INIT <- 1 ; FAULT <- 0 ; LAST <- 0` of a completed `NEW` (R62): the one recovery from a latched fault (R145). -/
def Status.initialised : Status := ⟨true, .none, .none⟩

end Sys2Proof.Machine
end

