-- ==== Sys2Proof/Machine/Ops.lean ====
section
/-! DEFINITION. The operations over memory and registers that the commands share: memories in canonical form, the
writer's primitives (spec 40_bitstream_writer.md R63, R64, R67), the room pre-check (43_huffman_emit.md R120), raising a
fault and the entry checks of every command (60_exceptions.md R141, R142), power-on and the fetch of a host action. -/

namespace Sys2Proof.Machine

/-! ## Memories -/

/-- The canonical form: addresses strictly rising. An unlisted address holds no value, so no entry can equal one. -/
abbrev Memory.wf {width : Nat} (m : Memory width) : Prop := m.Pairwise fun a b => a.1 < b.1

/-- The value at an address, `none` where nothing has been written. -/
def Memory.read {width : Nat} : Memory width → Nat → Option (BitVec width)
  | [], _ => none
  | (a, v) :: m, k => if k = a then some v else Memory.read m k

/-- The memory with a value at an address. -/
def Memory.write {width : Nat} : Memory width → Nat → BitVec width → Memory width
  | [], k, v => [(k, v)]
  | (a, u) :: m, k, v =>
    if k < a then (k, v) :: (a, u) :: m
    else if k = a then (k, v) :: m
    else (a, u) :: Memory.write m k v

/-- Bits 31:24 of a word, the byte stored at the lowest address (R34). -/
def topByte (w : Word) : Byte := w.extractLsb' 24 8

/-- `MemWrite(OUT, addr, n, w)`: the `n` most significant bytes of `w`, most significant at the lowest address (R34). -/
def writeBytes (buf : Memory 8) (addr : Nat) : Nat → Word → Memory 8
  | 0, _ => buf
  | n + 1, w => writeBytes (buf.write addr (topByte w)) (addr + 1) n (w <<< 8)

/-! ## The writer's primitives -/

/-- `ceil8(n)` (R6). -/
def ceil8 (n : Nat) : Nat := (n + 7) / 8

/-- The capacity after one growth step, `cap + cap div 2` (R63). -/
def grownCap (cap : Nat) : Nat := cap + cap / 2

/-- One `ensure_room` on a write cursor and a capacity: the new capacity, or `BufferExhausted` (R63). -/
def roomStep (capLimit pos cap : Nat) : Except FaultCode Nat :=
  if cap - pos < flushBytes then
    if grownCap cap > capLimit then .error .bufferExhausted else .ok (grownCap cap)
  else .ok cap

/-- `ensure_room()` (R63). It changes `cap` only. -/
def ensureRoom (capLimit : Nat) (w : Writer) : Except FaultCode Writer :=
  (roomStep capLimit w.pos w.cap).map fun c => { w with cap := c }

/-- The low `n` bits of a value, as a word: `value & mask(n)` for `n ≤ 32` (R6, R64). -/
def lowBits (value n : Nat) : Word := BitVec.ofNat 32 (value % 2 ^ n)

/-- The first branch of `emit`: the bits fit and the cache does not become full (R64). -/
def mergeBits (w : Writer) (v : Word) (n : Nat) : Writer :=
  { w with free := w.free - n, cache := w.cache ||| (v <<< (w.free - n)) }

/-- The second branch of `emit`, after `ensure_room`: the full cache word goes to `OUT` and the `r = n − free` bits that
do not fit start the new cache (R64). -/
def flushBits (w : Writer) (v : Word) (n : Nat) : Writer :=
  { w with
    buf := writeBytes w.buf w.pos flushBytes (w.cache ||| (v >>> (n - w.free)))
    pos := w.pos + flushBytes
    free := cacheBits - (n - w.free)
    cache := if n - w.free = 0 then 0 else v <<< (cacheBits - (n - w.free)) }

/-- `emit(value, n)` for `n ≤ 32` (R64): append the low `n` bits of `value`, most significant first. -/
def emit (capLimit : Nat) (w : Writer) (value n : Nat) : Except FaultCode Writer :=
  if n = 0 then .ok w
  else if n < w.free then .ok (mergeBits w (lowBits value n) n)
  else (ensureRoom capLimit w).map fun w' => flushBits w' (lowBits value n) n

/-- The writer after `NEW capacity` (R62). -/
def freshWriter (capacity : Nat) : Writer := ⟨[], 0, capacity, 0, cacheBits⟩

/-- The writer after `RESET` (R69): `cap` is kept. -/
def clearedWriter (w : Writer) : Writer := { w with buf := [], pos := 0, cache := 0, free := cacheBits }

/-- The number of bytes `BYTE_ALIGN` writes (R67). -/
def pendingBytes (w : Writer) : Nat := ceil8 (cacheBits - w.free)

/-- The writes of `BYTE_ALIGN` after `ensure_room` (R67). -/
def flushPending (w : Writer) : Writer :=
  { w with
    buf := writeBytes w.buf w.pos (pendingBytes w) w.cache
    pos := w.pos + pendingBytes w
    cache := 0
    free := cacheBits }

/-- `BYTE_ALIGN`'s effect on the writer (R67): with nothing pending there is no `ensure_room`. -/
def alignWriter (capLimit : Nat) (w : Writer) : Except FaultCode Writer :=
  if pendingBytes w = 0 then .ok { w with cache := 0, free := cacheBits }
  else (ensureRoom capLimit w).map flushPending

/-- `8*pos + (32 − free)`, the stream's bit count (R66). -/
def bitCount (w : Writer) : Nat := 8 * w.pos + (cacheBits - w.free)

/-- The bit count as `RES0` holds it: a free value where it does not fit 32 bits (notes/assumptions/9.md). -/
def bitCountWord (w : Writer) : Word :=
  if bitCount w < 2 ^ 32 then BitVec.ofNat 32 (bitCount w) else Config.bitCountOverflow (bitCount w)

/-! ## Fields and the room pre-check -/

/-- A `(value, width)` field of an emission (R118, R119, R123). -/
structure Field where
  value : Nat
  width : Nat
deriving DecidableEq, Repr

/-- The sum of the widths of a list of fields (R126). -/
def totalWidth : List Field → Nat
  | [] => 0
  | f :: fs => f.width + totalWidth fs

/-- `for (value, width) in F, in order: emit(value, width)` (R116). -/
def emitFields (capLimit : Nat) : Writer → List Field → Except FaultCode Writer
  | w, [] => .ok w
  | w, f :: fs =>
    match emit capLimit w f.value f.width with
    | .ok w' => emitFields capLimit w' fs
    | .error c => .error c

/-- `words` rounds of the loop of `room_check` on copies of `pos` and `cap` (R120). -/
def roomForWords (capLimit : Nat) : Nat → Nat → Nat → Except FaultCode Unit
  | 0, _, _ => .ok ()
  | words + 1, pos, cap =>
    match roomStep capLimit pos cap with
    | .ok c => roomForWords capLimit words (pos + flushBytes) c
    | .error c => .error c

/-- `room_check(L)` (R120): the words that `bits` more bits will complete all fit. It changes no state. -/
def roomCheck (capLimit : Nat) (w : Writer) (bits : Nat) : Except FaultCode Unit :=
  roomForWords capLimit ((cacheBits - w.free + bits) / 32) w.pos w.cap

/-- The end of every emission command (R115, R121 (3), (4)): field widths, then room, then the `emit`s. -/
def emitChecked (capLimit : Nat) (w : Writer) (bits : Nat) (fields : List Field) : Except FaultCode Writer :=
  if fields.any fun f => decide (f.width > maxWrite) then .error .bitstreamOverflow
  else
    match roomCheck capLimit w bits with
    | .error c => .error c
    | .ok () => emitFields capLimit w fields

/-! ## Faults and the frame every command runs in -/

/-- Raising a fault (R141, R144): `LAST` and, where it latches, `FAULT`; nothing else changes. This is all that taking
an exception is on this block: nothing is saved, control goes nowhere, no mode changes. -/
def raiseFault (c : FaultCode) (latches : Bool) (s : State) : State :=
  { s with status := s.status.raise c latches }

/-- Recovery from a latched fault (R145): what a completed `NEW` does to the state (R62). There is no other return. -/
def recover (capacity : Nat) (s : State) : State :=
  { s with writer := freshWriter capacity, status := Status.initialised }

/-- Running a command (R142): the `INIT` check, the `FAULT` check, then the command's own rule, whose fault is raised
by R141. A rule sees the whole state; a rule that faults has changed nothing (R135). -/
def runCommand (k : CommandKind) (rule : State → Except FaultCode State) (s : State) :
    Host.Outcome State Fault Refusal :=
  if k.needsInit = true ∧ s.status.init = false then .next (raiseFault .notInitialised true s)
  else if k.refusedOnFault = true ∧ s.status.fault ≠ .none then .next { s with status := s.status.refuse }
  else
    match rule s with
    | .ok s' => .next { s' with status := s'.status.complete }
    | .error c => .next (raiseFault c (k.latches c) s)

/-- A command word that decodes to nothing raises `IllegalCommand`, before every other check (R142, R138). -/
def illegalWord (s : State) : Host.Outcome State Fault Refusal :=
  .next (raiseFault .illegalCommand true s)

/-- The state with another writer. -/
def State.setWriter (s : State) (w : Writer) : State := { s with writer := w }

/-- The state with a result in `RES0` (R17). -/
def State.setRes0 (s : State) (v : Word) : State := { s with regs := { s.regs with res0 := v } }

/-- The state with results in `RES0` and `RES1` (R17). -/
def State.setRes (s : State) (v0 v1 : Word) : State := { s with regs := { s.regs with res0 := v0, res1 := v1 } }

/-! ## Configuration and fetch -/

/-- The machine at power-on under given parameters; an image or limit the spec does not admit is refused as a
configuration (R27, R83, 93 U13). -/
def powerOn (p : Params) : Host.Outcome State Fault Refusal :=
  if p.check then .next { State.reset with params := p } else .refused .illFormedConfiguration

/-- The host's next action, taken off the queue (R39, R165). -/
def fetchAction (s : State) : Option (HostAction × State) :=
  match s.hostQueue with
  | [] => none
  | a :: rest => some (a, { s with hostQueue := rest })

/-- The host's write of a command word to `CMD` (R22, R23: offset 0, a whole aligned word). -/
def commandAction (w : Word) : HostAction := .write .word 0 w

end Sys2Proof.Machine
end

