-- ==== Sys2Proof/Machine/Operands.lean ====
section
/-! DEFINITION. Operand forms: signed coefficient operands and their magnitudes (spec 30_encoding.md R46), the
coefficient RAM as the commands read it (10_state.md R19), index ranges (42_huffman_count_select.md R96, R101), the
register numbering of R7 and R17, and the register map the host uses (10_state.md R23, R24). -/

namespace Sys2Proof.Machine

/-! ## Signed values -/

/-- A coefficient operand: the word as a two's complement integer (R46). -/
def signed (w : Word) : Int := w.toInt

/-- `|n|`, a natural; `|−2^31| = 2^31` (R6, R46). -/
def magnitude (n : Int) : Nat := n.natAbs

/-- `b(n)`: 1 if `n ≠ 0`, else 0 (R6). -/
def nonzeroBit (n : Int) : Nat := if n ≠ 0 then 1 else 0

/-- `b(n)` of a magnitude (R100). -/
def nonzeroMag (n : Nat) : Nat := if n ≠ 0 then 1 else 0

/-- `sg(n)`: 1 if `n < 0`, else 0 (R6, R56). -/
def signBit (n : Int) : Nat := if n < 0 then 1 else 0

/-! ## The coefficient RAM -/

/-- `IX[i]` as a word: the host's value, or a free value where the host has written none (R19, 93 U6). -/
def coefficientWord (ix : Memory 32) (i : Nat) : Word := (ix.read i).getD (Config.unwrittenCoefficient i)

/-- `IX[i]` as a signed integer (R7). -/
def coefficient (s : State) (i : Nat) : Int := signed (coefficientWord s.ix i)

/-- `check_range(begin, end)` (R96). -/
def checkRange (b e : Nat) : Except FaultCode Unit :=
  if b > e ∨ e > granuleSize ∨ (e - b) % 2 ≠ 0 then .error .invalidHuffmanIndex else .ok ()

/-- The largest magnitude of `count` coefficients from index `b`, 0 for none (R101). -/
def maxAbs (ix : Nat → Int) (b : Nat) : Nat → Nat
  | 0 => 0
  | count + 1 => max (magnitude (ix b)) (maxAbs ix (b + 1) count)

/-! ## General registers by number -/

/-- `x[i]` of R7: `x[0..3]` are `OP0..OP3`, `x[4]`, `x[5]` are `RES0`, `RES1` (R17). -/
def Regs.x (r : Regs) (i : Fin 6) : Word :=
  match i with
  | 0 => r.op0
  | 1 => r.op1
  | 2 => r.op2
  | 3 => r.op3
  | 4 => r.res0
  | 5 => r.res1

/-! ## The register map -/

/-- What stands at an offset of the register map (R23). -/
inductive HostReg where
  | cmd
  | status
  /-- `x[i]`: `OP0..OP3` for 0..3, `RES0`, `RES1` for 4 and 5. -/
  | general (i : Fin 6)
  | pos
  | cap
  | cache
  | free
  | giBigValues
  | giCount1
  | giAddress1
  | giAddress2
  | giAddress3
  | giTableSelect0
  | giTableSelect1
  | giTableSelect2
  | giCount1TableSelect
  /-- 0x54 to 0xFFC: reads 0, writes ignored. -/
  | reserved
  /-- The `IX` window. -/
  | ix (i : Nat)
deriving DecidableEq, Repr

/-- The first offset of the `IX` window (R23). -/
def ixBase : Nat := 0x1000

/-- The first offset past the block's map (R23): `ixBase + 4*576`. -/
def mapEnd : Nat := 0x1900

/-- The register at an aligned offset below `mapEnd` (R23). -/
def registerAt (offset : Nat) : HostReg :=
  if ixBase ≤ offset then .ix ((offset - ixBase) / 4)
  else
    match offset with
    | 0x00 => .cmd
    | 0x04 => .status
    | 0x08 => .general 0
    | 0x0C => .general 1
    | 0x10 => .general 2
    | 0x14 => .general 3
    | 0x18 => .general 4
    | 0x1C => .general 5
    | 0x20 => .pos
    | 0x24 => .cap
    | 0x28 => .cache
    | 0x2C => .free
    | 0x30 => .giBigValues
    | 0x34 => .giCount1
    | 0x38 => .giAddress1
    | 0x3C => .giAddress2
    | 0x40 => .giAddress3
    | 0x44 => .giTableSelect0
    | 0x48 => .giTableSelect1
    | 0x4C => .giTableSelect2
    | 0x50 => .giCount1TableSelect
    | _ => .reserved

/-- The value the host reads (R21 to R24). `CMD` and reserved offsets read 0; `POS`, `CAP`, `CACHE`, `FREE` are views. -/
def HostReg.readValue (r : HostReg) (s : State) : Word :=
  match r with
  | .cmd => 0
  | .status => s.status.word
  | .general i => s.regs.x i
  | .pos => BitVec.ofNat 32 s.writer.pos
  | .cap => BitVec.ofNat 32 s.writer.cap
  | .cache => s.writer.cache
  | .free => BitVec.ofNat 32 s.writer.free
  | .giBigValues => s.granule.bigValues
  | .giCount1 => s.granule.count1
  | .giAddress1 => s.granule.address1
  | .giAddress2 => s.granule.address2
  | .giAddress3 => s.granule.address3
  | .giTableSelect0 => s.granule.tableSelect0
  | .giTableSelect1 => s.granule.tableSelect1
  | .giTableSelect2 => s.granule.tableSelect2
  | .giCount1TableSelect => s.granule.count1TableSelect
  | .reserved => 0
  | .ix i => coefficientWord s.ix i

/-- The state after the host has written a register (R17, R18, R19, R23). A write to a register the map marks `R`
changes nothing (notes/assumptions/7.md). A write to `CMD` does not come here: it starts a command (Step.lean). -/
def HostReg.writeValue (r : HostReg) (v : Word) (s : State) : State :=
  match r with
  | .cmd => s
  | .status => s
  | .general 0 => { s with regs := { s.regs with op0 := v } }
  | .general 1 => { s with regs := { s.regs with op1 := v } }
  | .general 2 => { s with regs := { s.regs with op2 := v } }
  | .general 3 => { s with regs := { s.regs with op3 := v } }
  | .general _ => s
  | .pos => s
  | .cap => s
  | .cache => s
  | .free => s
  | .giBigValues => { s with granule := { s.granule with bigValues := v } }
  | .giCount1 => { s with granule := { s.granule with count1 := v } }
  | .giAddress1 => { s with granule := { s.granule with address1 := v } }
  | .giAddress2 => { s with granule := { s.granule with address2 := v } }
  | .giAddress3 => { s with granule := { s.granule with address3 := v } }
  | .giTableSelect0 => { s with granule := { s.granule with tableSelect0 := v } }
  | .giTableSelect1 => { s with granule := { s.granule with tableSelect1 := v } }
  | .giTableSelect2 => { s with granule := { s.granule with tableSelect2 := v } }
  | .giCount1TableSelect => { s with granule := { s.granule with count1TableSelect := v } }
  | .reserved => s
  | .ix i => { s with ix := s.ix.write i v }

end Sys2Proof.Machine
end

