-- ==== Sys2Proof/Machine/Huffman.lean ====
section
/-! DEFINITION. The Huffman coding functions the encoder commands share: the cost of a pair and of a quadruple
(spec 42_huffman_count_select.md R100, R104, R105), the fields of a pair and of a quadruple (43_huffman_emit.md R118,
R119, R123), counts over a range (R102, R106) and the choice of a table (R97 to R99). They read the ROM only through
their table arguments (R80). -/

namespace Sys2Proof.Machine

/-! ## One pair -/

/-- A magnitude that table `t` escapes: above 14, in a table above 15 (R100). -/
def escaped (t a : Nat) : Bool := decide (15 < t ∧ escapeThreshold ≤ a)

/-- The index a magnitude is looked up at: 15 if it is escaped (R100). -/
def clampMag (t a : Nat) : Nat := if escaped t a then escapeThreshold else a

/-- `idx = cx * ylen + cy` (R53, R54). -/
def pairIndex (h : Table) (t ax ay : Nat) : Nat := clampMag t ax * h.ylen + clampMag t ay

/-- The escape extension a magnitude needs: `linbits` if it is escaped (R100). -/
def extensionBits (h : Table) (t a : Nat) : Nat := if escaped t a then h.linbits else 0

/-- An escaped magnitude beyond what the extension field may carry (R87, R100). -/
def beyondLinmax (h : Table) (t a : Nat) : Bool := escaped t a && decide (h.linmax < a - escapeThreshold)

/-- An index outside the arrays, possible only on an ill-formed ROM (R100). -/
def outsideArrays (h : Table) (idx : Nat) : Bool := decide (h.lengths.length ≤ idx ∨ h.codes.length ≤ idx)

/-- `pair_bits(ax, ay, t)` in `h = HT[t]` (R100): the bits the pair costs, or why it cannot be coded. -/
def pairBits (h : Table) (t ax ay : Nat) : Except FaultCode Nat :=
  if beyondLinmax h t ax || beyondLinmax h t ay then .error .encodingRangeViolation
  else if h.xlen ≤ clampMag t ax ∨ h.ylen ≤ clampMag t ay then .error .encodingRangeViolation
  else if outsideArrays h (pairIndex h t ax ay) then .error .invalidHuffmanIndex
  else .ok (h.lengths.getD (pairIndex h t ax ay) 0 + extensionBits h t ax + extensionBits h t ay
    + nonzeroMag ax + nonzeroMag ay)

/-- A field with a sign bit shifted in where `n ≠ 0` (R118, R119). -/
def Field.withSign (f : Field) (n : Int) : Field :=
  if n ≠ 0 then ⟨f.value * 2 + signBit n, f.width + 1⟩ else f

/-- A field with an escape extension shifted in where the magnitude is escaped (R119). -/
def Field.withExtension (f : Field) (h : Table) (t a : Nat) : Field :=
  if escaped t a then ⟨f.value * 2 ^ h.linbits + (a - escapeThreshold), f.width + h.linbits⟩ else f

/-- The code word of an index (R53 to R55). -/
def codeField (h : Table) (idx : Nat) : Field := ⟨h.codes.getD idx 0, h.lengths.getD idx 0⟩

/-- The extension and sign bits of an escape table's pair (R119). -/
def extensionField (h : Table) (t : Nat) (x y : Int) : Field :=
  (((Field.mk 0 0).withExtension h t (magnitude x)).withSign x |>.withExtension h t (magnitude y)).withSign y

/-- `pair_fields(x, y, t)`: one field below table 16 (R118), two from table 16 up (R119). -/
def pairFields (h : Table) (t : Nat) (x y : Int) : List Field :=
  if 15 < t then [codeField h (pairIndex h t (magnitude x) (magnitude y)), extensionField h t x y]
  else [((codeField h (pairIndex h t (magnitude x) (magnitude y))).withSign x).withSign y]

/-! ## One quadruple -/

/-- `p = b(v) + 2*b(w) + 4*b(x) + 8*b(y)` (R55, R104). -/
def quadPattern (v w x y : Int) : Nat :=
  nonzeroBit v + 2 * nonzeroBit w + 4 * nonzeroBit x + 8 * nonzeroBit y

/-- `ns`, the number of sign bits of a quadruple (R104). -/
def quadSigns (v w x y : Int) : Nat := nonzeroBit v + nonzeroBit w + nonzeroBit x + nonzeroBit y

/-- The magnitude test of `quad_index`: every coefficient of the count1 region is in −1..1 (R104). -/
def quadInRange (v w x y : Int) : Bool :=
  decide (magnitude v ≤ 1 ∧ magnitude w ≤ 1 ∧ magnitude x ≤ 1 ∧ magnitude y ≤ 1)

/-- `quad_index` with the array bound of R121 (2), which only an ill-formed ROM can fail: the index `p`. -/
def quadIndex (h : Table) (v w x y : Int) : Except FaultCode Nat :=
  if quadInRange v w x y = false then .error .encodingRangeViolation
  else if outsideArrays h (quadPattern v w x y) then .error .invalidHuffmanIndex
  else .ok (quadPattern v w x y)

/-- `quad_bits(v, w, x, y, s)` in `h = HT[32+s]` (R105). -/
def quadBits (h : Table) (v w x y : Int) : Except FaultCode Nat :=
  (quadIndex h v w x y).map fun p => h.lengths.getD p 0 + quadSigns v w x y

/-- The sign bits of a quadruple, in the order v, w, x, y (R123). -/
def signsField (v w x y : Int) : Field :=
  ((((Field.mk 0 0).withSign v).withSign w).withSign x).withSign y

/-- `quad_fields(v, w, x, y, s)` in `h = HT[32+s]`: the code, then the signs (R123). -/
def quadFields (h : Table) (v w x y : Int) : Except FaultCode (List Field) :=
  (quadIndex h v w x y).map fun p => [codeField h p, signsField v w x y]

/-! ## Counts over a range -/

/-- The cost of `pairs` pairs from index `i` in table `t`, first failing pair first (R102). -/
def countPairs (h : Table) (t : Nat) (ix : Nat → Int) (i : Nat) : Nat → Except FaultCode Nat
  | 0 => .ok 0
  | pairs + 1 =>
    match pairBits h t (magnitude (ix i)) (magnitude (ix (i + 1))) with
    | .error c => .error c
    | .ok here => (countPairs h t ix (i + 2) pairs).map fun rest => here + rest

/-- `cb(begin, end, t)` (R102): table 0 costs nothing, whatever the coefficients. -/
def countRange (ht : Rom) (ix : Nat → Int) (b e t : Nat) : Except FaultCode Nat :=
  if t = 0 then .ok 0 else countPairs (ht.table t) t ix b ((e - b) / 2)

/-- The two sums of `COUNT1_BITS` over `quads` quadruples from index `i` (R106). -/
def count1Sums (ht : Rom) (ix : Nat → Int) (i : Nat) : Nat → Except FaultCode (Nat × Nat)
  | 0 => .ok (0, 0)
  | quads + 1 =>
    match quadBits (ht.table 32) (ix i) (ix (i + 1)) (ix (i + 2)) (ix (i + 3)) with
    | .error c => .error c
    | .ok here0 =>
      match quadBits (ht.table 33) (ix i) (ix (i + 1)) (ix (i + 2)) (ix (i + 3)) with
      | .error c => .error c
      | .ok here1 => (count1Sums ht ix (i + 4) quads).map fun rest => (here0 + rest.1, here1 + rest.2)

/-- The cheaper count1 table's sum and its select, `COUNT1_TIE` on equal sums (R106). -/
def count1Choice (tie : Fin 2) (sums : Nat × Nat) : Nat × Nat :=
  if sums.1 < sums.2 then (sums.1, 0)
  else if sums.2 < sums.1 then (sums.2, 1)
  else (sums.1, tie.val)

/-! ## The choice of a pair table -/

/-- The least table of `first, …, first + count − 1` that meets a test (R98, R99). -/
def leastTable (first count : Nat) (test : Nat → Bool) : Option Nat := (List.range' first count).find? test

/-- `ALTS` of R98. -/
def alternatives (choice : Nat) : List Nat :=
  match choice with
  | 2 => [3]
  | 5 => [6]
  | 7 => [8, 9]
  | 10 => [11, 12]
  | 13 => [15]
  | _ => []

/-- `better(s, sum)` of R98. -/
def better (tie : TieNoesc) (s sum : Nat) : Bool :=
  match tie with
  | .later => decide (s ≤ sum)
  | .earlier => decide (s < sum)

/-- The running comparison with the alternatives, in order (R98). -/
def keepBest (tie : TieNoesc) (cost : Nat → Except FaultCode Nat) (choice sum : Nat) :
    List Nat → Except FaultCode Nat
  | [] => .ok choice
  | alt :: alts =>
    match cost alt with
    | .error c => .error c
    | .ok s =>
      if better tie s sum then keepBest tie cost alt s alts else keepBest tie cost choice sum alts

/-- The first choice of `select_noesc`: the least table of 0..14 whose `xlen` exceeds the maximum (R98). -/
def noescChoice (ht : Rom) (max : Nat) : Option Nat :=
  leastTable 0 15 fun t => decide (max < (ht.table t).xlen)

/-- `select_noesc(begin, end, max)` (R98). -/
def selectNoesc (p : Params) (ix : Nat → Int) (b e max : Nat) : Except FaultCode Nat :=
  match noescChoice p.ht max with
  | none => .error .encodingRangeViolation
  | some choice =>
    match countRange p.ht ix b e choice with
    | .error c => .error c
    | .ok sum => keepBest p.tieNoesc (countRange p.ht ix b e) choice sum (alternatives choice)

/-- The least table of an escape range whose `linmax` carries `max − 15` (R99). -/
def escChoice (ht : Rom) (first count max : Nat) : Option Nat :=
  leastTable first count fun t => decide (max - escapeThreshold ≤ (ht.table t).linmax)

/-- The cheaper of the two escape candidates, `TIE_ESC` on equal counts (R99). -/
def cheaperEscape (tie : TieEsc) (c0 c1 s0 s1 : Nat) : Nat :=
  if s1 < s0 ∨ (s1 = s0 ∧ tie = .second) then c1 else c0

/-- `select_esc(begin, end, max)` (R99). -/
def selectEsc (p : Params) (ix : Nat → Int) (b e max : Nat) : Except FaultCode Nat :=
  match escChoice p.ht 15 9 max, escChoice p.ht 24 8 max with
  | some c0, some c1 =>
    match countRange p.ht ix b e c0 with
    | .error c => .error c
    | .ok s0 => (countRange p.ht ix b e c1).map fun s1 => cheaperEscape p.tieEsc c0 c1 s0 s1
  | _, _ => .error .encodingRangeViolation

/-- The table `SELECT_TABLE` picks for a range (R97). -/
def chooseTable (p : Params) (ix : Nat → Int) (b e : Nat) : Except FaultCode Nat :=
  if maxAbs ix b (e - b) = 0 then .ok 0
  else if maxAbs ix b (e - b) < escapeThreshold then selectNoesc p ix b e (maxAbs ix b (e - b))
  else selectEsc p ix b e (maxAbs ix b (e - b))

end Sys2Proof.Machine
end

