-- ==== Sys2Proof/Machine/EmissionCommands.lean ====
section
/-! DEFINITION. Code emission (spec 43_huffman_emit.md): `ENCODE_PAIR`, `ENCODE_QUAD`, `ENCODE_GRANULE`. Every check is
made before the first `emit` (R115), in the order of R121. -/

namespace Sys2Proof.Machine

/-- The rule of `ENCODE_PAIR x, y, t` (R116); table 0 appends nothing (R117). -/
def encodePairRule (t : Nat) (s : State) : Except FaultCode State :=
  if 31 < t then .error .invalidHuffmanIndex
  else if t = 0 then .ok s
  else
    match pairBits (s.params.ht.table t) t (magnitude (signed s.regs.op0)) (magnitude (signed s.regs.op1)) with
    | .error c => .error c
    | .ok bits =>
      (emitChecked s.params.capLimit s.writer bits
        (pairFields (s.params.ht.table t) t (signed s.regs.op0) (signed s.regs.op1))).map s.setWriter

/-- The rule of `ENCODE_QUAD v, w, x, y, s` (R122). -/
def encodeQuadRule (sel : Nat) (s : State) : Except FaultCode State :=
  if 1 < sel then .error .invalidHuffmanIndex
  else
    match quadFields (s.params.ht.table (32 + sel)) (signed s.regs.op0) (signed s.regs.op1) (signed s.regs.op2)
        (signed s.regs.op3) with
    | .error c => .error c
    | .ok fields => (emitChecked s.params.capLimit s.writer (totalWidth fields) fields).map s.setWriter

/-- `gi_check()` (R127), on naturals. -/
def granuleCheck (g : GranuleRegs) : Except FaultCode Unit :=
  if bigValuesMax < g.bigValues.toNat then .error .bigValuesLimitExceeded
  else if granuleSize < 2 * g.bigValues.toNat + 4 * g.count1.toNat then .error .invalidHuffmanIndex
  else if ¬ (g.address1.toNat ≤ g.address2.toNat ∧ g.address2.toNat ≤ g.address3.toNat ∧
      g.address3.toNat = 2 * g.bigValues.toNat) then .error .invalidHuffmanIndex
  else if g.address1.toNat % 2 ≠ 0 ∨ g.address2.toNat % 2 ≠ 0 then .error .invalidHuffmanIndex
  else if 31 < g.tableSelect0.toNat ∨ 31 < g.tableSelect1.toNat ∨ 31 < g.tableSelect2.toNat then
    .error .invalidHuffmanIndex
  else if 1 < g.count1TableSelect.toNat then .error .invalidHuffmanIndex
  else .ok ()

/-- The pair table of the region that coefficient index `i` lies in (R126). -/
def regionTable (g : GranuleRegs) (i : Nat) : Nat :=
  if i < g.address1.toNat then
    if i < g.address2.toNat then g.tableSelect0.toNat else g.tableSelect1.toNat
  else if i < g.address2.toNat then g.tableSelect1.toNat else g.tableSelect2.toNat

/-- The fields of one pair of the big-values region; table 0 has none (R126). -/
def regionPairFields (ht : Rom) (t : Nat) (x y : Int) : Except FaultCode (List Field) :=
  if t = 0 then .ok []
  else (pairBits (ht.table t) t (magnitude x) (magnitude y)).map fun _ => pairFields (ht.table t) t x y

/-- The fields of `pairs` pairs from index `i`, first failing pair first (R126). -/
def bigValuesFields (ht : Rom) (g : GranuleRegs) (ix : Nat → Int) (i : Nat) : Nat → Except FaultCode (List Field)
  | 0 => .ok []
  | pairs + 1 =>
    match regionPairFields ht (regionTable g i) (ix i) (ix (i + 1)) with
    | .error c => .error c
    | .ok here => (bigValuesFields ht g ix (i + 2) pairs).map fun rest => here ++ rest

/-- The fields of `quads` quadruples from index `i` in the count1 table `h` (R126). -/
def count1Fields (h : Table) (ix : Nat → Int) (i : Nat) : Nat → Except FaultCode (List Field)
  | 0 => .ok []
  | quads + 1 =>
    match quadFields h (ix i) (ix (i + 1)) (ix (i + 2)) (ix (i + 3)) with
    | .error c => .error c
    | .ok here => (count1Fields h ix (i + 4) quads).map fun rest => here ++ rest

/-- All fields of a granule, in stream order: big-values region, then count1 region (R126). -/
def granuleFields (ht : Rom) (g : GranuleRegs) (ix : Nat → Int) : Except FaultCode (List Field) :=
  match bigValuesFields ht g ix 0 g.bigValues.toNat with
  | .error c => .error c
  | .ok pairs =>
    (count1Fields (ht.table (32 + g.count1TableSelect.toNat)) ix (2 * g.bigValues.toNat) g.count1.toNat).map
      fun quads => pairs ++ quads

/-- The rule of `ENCODE_GRANULE` (R126). -/
def encodeGranuleRule (s : State) : Except FaultCode State :=
  match granuleCheck s.granule with
  | .error c => .error c
  | .ok () =>
    match granuleFields s.params.ht s.granule (coefficient s) with
    | .error c => .error c
    | .ok fields =>
      (emitChecked s.params.capLimit s.writer (totalWidth fields) fields).map fun w =>
        (s.setWriter w).setRes0 (BitVec.ofNat 32 (totalWidth fields))

/-- `ENCODE_PAIR` (R116). -/
def execEncodePair (t : Nat) (s : State) : Host.Outcome State Fault Refusal :=
  runCommand .mutating (encodePairRule t) s

/-- `ENCODE_QUAD` (R122). -/
def execEncodeQuad (sel : Nat) (s : State) : Host.Outcome State Fault Refusal :=
  runCommand .mutating (encodeQuadRule sel) s

/-- `ENCODE_GRANULE` (R126). -/
def execEncodeGranule (s : State) : Host.Outcome State Fault Refusal := runCommand .mutating encodeGranuleRule s

end Sys2Proof.Machine
end

