-- ==== Sys2Proof/Machine/QueryCommands.lean ====
section
/-! DEFINITION. Table selection and bit counting (spec 42_huffman_count_select.md): `SELECT_TABLE`, `COUNT_BITS`,
`COUNT1_BITS`. They read `IX` and `HT`, and write only `RES0`, `RES1` and `STATUS` (R95). -/

namespace Sys2Proof.Machine

/-- The rule of `SELECT_TABLE begin, end` (R97). -/
def selectTableRule (s : State) : Except FaultCode State :=
  match checkRange s.regs.op0.toNat s.regs.op1.toNat with
  | .error c => .error c
  | .ok () =>
    (chooseTable s.params (coefficient s) s.regs.op0.toNat s.regs.op1.toNat).map fun t =>
      s.setRes0 (BitVec.ofNat 32 t)

/-- The rule of `COUNT_BITS begin, end, t` (R102). -/
def countBitsRule (t : Nat) (s : State) : Except FaultCode State :=
  if 31 < t then .error .invalidHuffmanIndex
  else
    match checkRange s.regs.op0.toNat s.regs.op1.toNat with
    | .error c => .error c
    | .ok () =>
      (countRange s.params.ht (coefficient s) s.regs.op0.toNat s.regs.op1.toNat t).map fun bits =>
        s.setRes0 (BitVec.ofNat 32 bits)

/-- The rule of `COUNT1_BITS begin, count1` (R106); the bound is computed on naturals, with no 32-bit wrap. -/
def count1BitsRule (s : State) : Except FaultCode State :=
  if granuleSize < s.regs.op0.toNat + 4 * s.regs.op1.toNat then .error .invalidHuffmanIndex
  else
    (count1Sums s.params.ht (coefficient s) s.regs.op0.toNat s.regs.op1.toNat).map fun sums =>
      s.setRes (BitVec.ofNat 32 (count1Choice s.params.count1Tie sums).1)
        (BitVec.ofNat 32 (count1Choice s.params.count1Tie sums).2)

/-- `SELECT_TABLE` (R97). -/
def execSelectTable (s : State) : Host.Outcome State Fault Refusal := runCommand .query selectTableRule s

/-- `COUNT_BITS` (R102). -/
def execCountBits (t : Nat) (s : State) : Host.Outcome State Fault Refusal :=
  runCommand .query (countBitsRule t) s

/-- `COUNT1_BITS` (R106). -/
def execCount1Bits (s : State) : Host.Outcome State Fault Refusal := runCommand .query count1BitsRule s

end Sys2Proof.Machine
end

