-- ==== Sys2Proof/Machine/WriterCommands.lean ====
section
/-! DEFINITION. The bitstream writer commands (spec 40_bitstream_writer.md): `NEW`, `RESET`, `WRITE_BITS`,
`GET_BITS_COUNT`, `BYTE_ALIGN`. Each meaning is the command's rule run in the frame of R142. -/

namespace Sys2Proof.Machine

/-- The rule of `NEW` (R62). -/
def newRule (s : State) : Except FaultCode State :=
  if s.regs.op0.toNat < capMin ∨ s.params.capLimit < s.regs.op0.toNat then .error .illegalCommand
  else .ok (recover s.regs.op0.toNat s)

/-- The rule of `RESET` (R69). -/
def resetRule (s : State) : Except FaultCode State := .ok (s.setWriter (clearedWriter s.writer))

/-- The rule of `WRITE_BITS value, n` (R65). -/
def writeBitsRule (n : Nat) (s : State) : Except FaultCode State :=
  if maxWrite < n then .error .bitstreamOverflow
  else (emit s.params.capLimit s.writer s.regs.op0.toNat n).map s.setWriter

/-- The rule of `GET_BITS_COUNT` (R66). -/
def getBitsCountRule (s : State) : Except FaultCode State :=
  .ok (s.setRes0 (bitCountWord s.writer))

/-- The rule of `BYTE_ALIGN` (R67). -/
def byteAlignRule (s : State) : Except FaultCode State :=
  (alignWriter s.params.capLimit s.writer).map s.setWriter

/-- `NEW` (R62). -/
def execNew (s : State) : Host.Outcome State Fault Refusal := runCommand .initialise newRule s

/-- `RESET` (R69). -/
def execReset (s : State) : Host.Outcome State Fault Refusal := runCommand .mutating resetRule s

/-- `WRITE_BITS` (R65). -/
def execWriteBits (n : Nat) (s : State) : Host.Outcome State Fault Refusal :=
  runCommand .mutating (writeBitsRule n) s

/-- `GET_BITS_COUNT` (R66). -/
def execGetBitsCount (s : State) : Host.Outcome State Fault Refusal := runCommand .bitCount getBitsCountRule s

/-- `BYTE_ALIGN` (R67), also spelt `FLUSH` (R68). -/
def execByteAlign (s : State) : Host.Outcome State Fault Refusal := runCommand .mutating byteAlignRule s

end Sys2Proof.Machine
end

