-- ==== Sys2Proof/Machine/Dispatch.lean ====
section
/-! DEFINITION. One arm per command of the opcode map (spec 30_encoding.md R47). -/

namespace Sys2Proof.Machine

def exec (i : Instr) (s : State) : Host.Outcome State Fault Refusal :=
  match i with
  | .new => Sys2Proof.Machine.execNew s
  | .reset => Sys2Proof.Machine.execReset s
  | .writeBits n => Sys2Proof.Machine.execWriteBits n s
  | .getBitsCount => Sys2Proof.Machine.execGetBitsCount s
  | .byteAlign => Sys2Proof.Machine.execByteAlign s
  | .selectTable => Sys2Proof.Machine.execSelectTable s
  | .countBits t => Sys2Proof.Machine.execCountBits t s
  | .count1Bits => Sys2Proof.Machine.execCount1Bits s
  | .encodePair t => Sys2Proof.Machine.execEncodePair t s
  | .encodeQuad sel => Sys2Proof.Machine.execEncodeQuad sel s
  | .encodeGranule => Sys2Proof.Machine.execEncodeGranule s

end Sys2Proof.Machine
end

