-- ==== Sys2Proof/Machine/HostPort.lean ====
section
/-! DEFINITION. The host's accesses other than a write of `CMD` (spec 10_state.md R17 to R24, 20_memory.md R31, R36,
70_reset_and_hazards.md R165): they take effect at once and none of them starts a command (R159). -/

namespace Sys2Proof.Machine

/-- The register a host access reaches: only whole aligned words are defined (R36), and the map ends at 0x1900 (R23). -/
def registerAccess (size : AccessSize) (offset : Nat) : Host.Outcome HostReg Fault Refusal :=
  if size ≠ .word ∨ offset % 4 ≠ 0 then .refused .narrowOrMisalignedAccess
  else if mapEnd ≤ offset then .fault .offsetNotInMap
  else .next (registerAt offset)

/-- `OUT[k]`, which exists for `k < pos` only (R11, R31). -/
def outByte (w : Writer) (k : Nat) : Option Byte := if k < w.pos then w.buf.read k else none

/-- The host's read of `OUT[k]`: the byte the block wrote, or a fresh free value where there is none (R31, 93 U5). -/
def readOut (k : Nat) (s : State) : State :=
  match outByte s.writer k with
  | some b => { s with readData := b.zeroExtend 32 }
  | none => { s with readData := (Config.unspecifiedOutByte s.freeReads).zeroExtend 32, freeReads := s.freeReads + 1 }

/-- A host action that is not a write of `CMD` (R165). -/
def hostAccess (a : HostAction) (s : State) : Host.Outcome State Fault Refusal :=
  match a with
  | .write size offset v =>
    match registerAccess size offset with
    | .next r => .next (r.writeValue v s)
    | .fault f => .fault f
    | .refused r => .refused r
  | .read size offset =>
    match registerAccess size offset with
    | .next r => .next { s with readData := r.readValue s }
    | .fault f => .fault f
    | .refused r => .refused r
  | .readOut k => .next (readOut k s)

/-- The command word of an action, where the action is a write of `CMD` (R22). -/
def commandWord (a : HostAction) : Option Word :=
  match a with
  | .write .word 0 w => some w
  | _ => none

end Sys2Proof.Machine
end

