-- ==== Sys2Proof/Machine/Step.lean ====
section
/-! DEFINITION. One step: the next action of the host, carried out whole (spec 20_memory.md R39, 70 R165). The block has
no program counter (10_state.md R20); what it runs next is the word the host writes to `CMD`. -/

namespace Sys2Proof.Machine

/-- A write of `CMD` (R142): decode, then run the command; an illegal word raises `IllegalCommand`. -/
def runWord (w : Word) (s : State) : Host.Outcome State Fault Refusal :=
  match decode w with
  | .ok i => exec i s
  | .error _ => illegalWord s

/-- One step. With no action of the host pending the block holds its state and does nothing (R154, R168). -/
def step (s : State) : Host.Outcome State Fault Refusal :=
  match fetchAction s with
  | none => .next s
  | some (a, s') =>
    match commandWord a with
    | some w => runWord w s'
    | none => hostAccess a s'

/-- The state in which the host's next action is the write of the table word `w` to `CMD`. -/
def State.withFetchWord (s : State) (nbits w : Nat) : State :=
  { s with hostQueue := commandAction (tableWord nbits w) :: s.hostQueue }

end Sys2Proof.Machine
end

