-- ==== Sys2Proof/Machine/Assembler.lean ====
section
/-! DEFINITION. The assembler lines and pseudo-commands of the spec (30_encoding.md R51, R52; 43_huffman_emit.md R131):
the host actions each line stands for. They are the host's side; the block sees only the actions. -/

namespace Sys2Proof.Machine

/-- A host write of a whole register. -/
def writeReg (offset : Nat) (v : Word) : HostAction := .write .word offset v

/-- The host's write of the command word of `i` (R51). -/
def issue (i : Instr) : HostAction := commandAction (encode i)

/-- One line of assembly (R51, R52). -/
inductive AsmLine where
  | new (capacity : Word)
  | reset
  | writeBits (value : Word) (n : Nat)
  | getBitsCount
  | byteAlign
  | selectTable (b e : Word)
  | countBits (b e : Word) (t : Nat)
  | count1Bits (b count1 : Word)
  | encodePair (x y : Word) (t : Nat)
  | encodeQuad (v w x y : Word) (sel : Nat)
  | encodeGranule
  /-- Pseudo-command: another spelling of `BYTE_ALIGN` (R52, R68). -/
  | flush
  /-- Pseudo-command: `n` one bits (R131). -/
  | stuff (n : Nat)
  /-- Pseudo-command: another spelling of `WRITE_BITS` (R52). -/
  | writeField (value : Word) (n : Nat)
  /-- `IX[i] <- v`. -/
  | setIx (i : Nat) (v : Word)
  /-- `GI_name <- v`, the granule registers numbered from 0 in the order of the map (R23). -/
  | setGranule (r : Fin 9) (v : Word)
deriving DecidableEq, Repr

/-- `WRITE_BITS value, n` (R51). -/
def writeBitsActions (value : Word) (n : Nat) : List HostAction := [writeReg 0x08 value, issue (.writeBits n)]

/-- `STUFF n` (R52, R131): whole words of ones, then the remainder in ones. -/
def stuffActions (n : Nat) : List HostAction :=
  (List.replicate (n / 32) (writeBitsActions 0xFFFFFFFF 32)).flatten ++
    (if n % 32 = 0 then [] else writeBitsActions (lowBits 0xFFFFFFFF (n % 32)) (n % 32))

/-- The host actions a line stands for (R51, R52). -/
def AsmLine.actions : AsmLine → List HostAction
  | .new capacity => [writeReg 0x08 capacity, issue .new]
  | .reset => [issue .reset]
  | .writeBits value n => writeBitsActions value n
  | .getBitsCount => [issue .getBitsCount]
  | .byteAlign => [issue .byteAlign]
  | .selectTable b e => [writeReg 0x08 b, writeReg 0x0C e, issue .selectTable]
  | .countBits b e t => [writeReg 0x08 b, writeReg 0x0C e, issue (.countBits t)]
  | .count1Bits b count1 => [writeReg 0x08 b, writeReg 0x0C count1, issue .count1Bits]
  | .encodePair x y t => [writeReg 0x08 x, writeReg 0x0C y, issue (.encodePair t)]
  | .encodeQuad v w x y sel =>
    [writeReg 0x08 v, writeReg 0x0C w, writeReg 0x10 x, writeReg 0x14 y, issue (.encodeQuad sel)]
  | .encodeGranule => [issue .encodeGranule]
  | .flush => [issue .byteAlign]
  | .stuff n => stuffActions n
  | .writeField value n => writeBitsActions value n
  | .setIx i v => [writeReg (ixBase + 4 * i) v]
  | .setGranule r v => [writeReg (0x30 + 4 * r.val) v]

/-- The host actions of a program (70_reset_and_hazards.md R165). -/
def programActions (lines : List AsmLine) : List HostAction := (lines.map AsmLine.actions).flatten

end Sys2Proof.Machine
end

