-- ==== Sys2Proof/Machine/ReferenceRom.lean ====
section
/-! DEFINITION. The reference image of the Huffman tables (spec 41_huffman_tables.md part 2, R88 to R93), which the spec
supplies from general knowledge, and the ROM image `HT_TEST` of 95_test_vectors.md section 2. Neither is the machine's
ROM: that is the parameter `HT` (R80). They are values a reader may give the parameter, as the test vectors do. -/

namespace Sys2Proof.Machine

/-- `xlen`, `ylen`, `linbits`, `linmax` of entry `t` (R88). -/
def referenceMeta : List (Nat × Nat × Nat × Nat) :=
  [(0, 0, 0, 0), (2, 2, 0, 0), (3, 3, 0, 0), (3, 3, 0, 0), (0, 0, 0, 0), (4, 4, 0, 0), (4, 4, 0, 0),
   (6, 6, 0, 0), (6, 6, 0, 0), (6, 6, 0, 0), (8, 8, 0, 0), (8, 8, 0, 0), (8, 8, 0, 0),
   (16, 16, 0, 0), (0, 0, 0, 0), (16, 16, 0, 0)] ++
  [(16, 16, 1, 1), (16, 16, 2, 3), (16, 16, 3, 7), (16, 16, 4, 15), (16, 16, 6, 63), (16, 16, 8, 255),
   (16, 16, 10, 1023), (16, 16, 13, 8191)] ++
  [(16, 16, 4, 15), (16, 16, 5, 31), (16, 16, 6, 63), (16, 16, 7, 127), (16, 16, 8, 255), (16, 16, 9, 511),
   (16, 16, 11, 2047), (16, 16, 13, 8191)] ++
  [(1, 16, 0, 0), (1, 16, 0, 0)]

/-- A table without escapes (R88): `linbits` and `linmax` are 0. -/
def plainTable (xlen ylen : Nat) (codes lengths : List Nat) : Table := ⟨xlen, ylen, 0, 0, codes, lengths⟩

/-- Table 1 (R89). -/
def referenceTable1 : Table := plainTable 2 2 [1, 1, 1, 0] [1, 3, 2, 3]

/-- Table 2 (R89). -/
def referenceTable2 : Table := plainTable 3 3 [1, 2, 1, 3, 1, 1, 3, 2, 0] [1, 3, 6, 3, 3, 5, 5, 5, 6]

/-- Table 3 (R89). -/
def referenceTable3 : Table := plainTable 3 3 [3, 2, 1, 1, 1, 1, 3, 2, 0] [2, 2, 6, 3, 2, 5, 5, 5, 6]

/-- Table 5 (R90). -/
def referenceTable5 : Table :=
  plainTable 4 4 [1, 2, 6, 5, 3, 1, 4, 4, 7, 5, 7, 1, 6, 1, 1, 0] [1, 3, 6, 7, 3, 3, 6, 7, 6, 6, 7, 8, 7, 6, 7, 8]

/-- Table 6 (R90). -/
def referenceTable6 : Table :=
  plainTable 4 4 [7, 3, 5, 1, 6, 2, 3, 2, 5, 4, 4, 1, 3, 3, 2, 0] [3, 3, 5, 7, 3, 2, 4, 5, 4, 4, 5, 6, 6, 5, 6, 7]

/-- Table 7 (R91). -/
def referenceTable7 : Table :=
  plainTable 6 6
    [1, 2, 10, 19, 16, 10, 3, 3, 7, 10, 5, 3, 11, 4, 13, 17, 8, 4,
     12, 11, 18, 15, 11, 2, 7, 6, 9, 14, 3, 1, 6, 4, 5, 3, 2, 0]
    [1, 3, 6, 8, 8, 9, 3, 4, 6, 7, 7, 8, 6, 5, 7, 8, 8, 9,
     7, 7, 8, 9, 9, 9, 7, 7, 8, 9, 9, 10, 8, 8, 9, 10, 10, 10]

/-- Table 8 (R91). -/
def referenceTable8 : Table :=
  plainTable 6 6
    [3, 4, 6, 18, 12, 5, 5, 1, 2, 16, 9, 3, 7, 3, 5, 14, 7, 3,
     19, 17, 15, 13, 10, 4, 13, 5, 8, 11, 5, 1, 12, 4, 4, 1, 1, 0]
    [2, 3, 6, 8, 8, 9, 3, 2, 4, 8, 8, 8, 6, 4, 6, 8, 8, 9,
     8, 8, 8, 9, 9, 10, 8, 7, 8, 9, 10, 10, 9, 8, 9, 9, 11, 11]

/-- Table 9 (R91). -/
def referenceTable9 : Table :=
  plainTable 6 6
    [7, 5, 9, 14, 15, 7, 6, 4, 5, 5, 6, 7, 7, 6, 8, 8, 8, 5,
     15, 6, 9, 10, 5, 1, 11, 7, 9, 6, 4, 1, 14, 4, 6, 2, 6, 0]
    [3, 3, 5, 6, 8, 9, 3, 3, 4, 5, 6, 8, 4, 4, 5, 6, 7, 8,
     6, 5, 6, 7, 7, 8, 7, 6, 7, 7, 8, 9, 8, 7, 8, 8, 9, 9]

/-- Table 10 (R92). -/
def referenceTable10 : Table :=
  plainTable 8 8
    ([1, 2, 10, 23, 35, 30, 12, 17, 3, 3, 8, 12, 18, 21, 12, 7, 11, 9, 15, 21, 32, 40, 19, 6,
      14, 13, 22, 34, 46, 23, 18, 7] ++
     [20, 19, 33, 47, 27, 22, 9, 3, 31, 22, 41, 26, 21, 20, 5, 3, 14, 13, 10, 11, 16, 6, 5, 1,
      9, 8, 7, 8, 4, 4, 2, 0])
    ([1, 3, 6, 8, 9, 9, 9, 10, 3, 4, 6, 7, 8, 9, 8, 8, 6, 6, 7, 8, 9, 10, 9, 9,
      7, 7, 8, 9, 10, 10, 9, 10] ++
     [8, 8, 9, 10, 10, 10, 10, 10, 9, 9, 10, 10, 11, 11, 10, 11, 8, 8, 9, 10, 10, 10, 11, 11,
      9, 8, 9, 10, 10, 11, 11, 11])

/-- Table 11 (R92). -/
def referenceTable11 : Table :=
  plainTable 8 8
    ([3, 4, 10, 24, 34, 33, 21, 15, 5, 3, 4, 10, 32, 17, 11, 10, 11, 7, 13, 18, 30, 31, 20, 5,
      25, 11, 19, 59, 27, 18, 12, 5] ++
     [35, 33, 31, 58, 30, 16, 7, 5, 28, 26, 32, 19, 17, 15, 8, 14, 14, 12, 9, 13, 14, 9, 4, 1,
      11, 4, 6, 6, 6, 3, 2, 0])
    ([2, 3, 5, 7, 8, 9, 8, 9, 3, 3, 4, 6, 8, 8, 7, 8, 5, 5, 6, 7, 8, 9, 8, 8,
      7, 6, 7, 9, 8, 10, 8, 9] ++
     [8, 8, 8, 9, 9, 10, 9, 10, 8, 8, 9, 10, 10, 11, 10, 11, 8, 7, 7, 8, 9, 10, 10, 10,
      8, 7, 8, 9, 10, 10, 10, 10])

/-- Table 12 (R92). -/
def referenceTable12 : Table :=
  plainTable 8 8
    ([9, 6, 16, 33, 41, 39, 38, 26, 7, 5, 6, 9, 23, 16, 26, 11, 17, 7, 11, 14, 21, 30, 10, 7,
      17, 10, 15, 12, 18, 28, 14, 5] ++
     [32, 13, 22, 19, 18, 16, 9, 5, 40, 17, 31, 29, 17, 13, 4, 2, 27, 12, 11, 15, 10, 7, 4, 1,
      27, 12, 8, 12, 6, 3, 1, 0])
    ([4, 3, 5, 7, 8, 9, 9, 9, 3, 3, 4, 5, 7, 7, 8, 8, 5, 4, 5, 6, 7, 8, 7, 8,
      6, 5, 6, 6, 7, 8, 8, 8] ++
     [7, 6, 7, 7, 8, 8, 8, 9, 8, 7, 8, 8, 8, 9, 8, 9, 8, 7, 7, 8, 8, 9, 9, 10,
      9, 8, 8, 9, 9, 9, 9, 10])

/-- Count1 table "A" (R93). -/
def referenceTable32 : Table :=
  plainTable 1 16 [1, 5, 4, 5, 6, 5, 4, 4, 7, 3, 6, 0, 7, 2, 3, 1] [1, 4, 4, 5, 4, 6, 5, 6, 4, 5, 5, 6, 5, 6, 6, 6]

/-- Count1 table "B" (R93). -/
def referenceTable33 : Table :=
  plainTable 1 16 [15, 14, 13, 12, 11, 10, 9, 8, 7, 6, 5, 4, 3, 2, 1, 0] [4, 4, 4, 4, 4, 4, 4, 4, 4, 4, 4, 4, 4, 4, 4, 4]

/-- The synthetic table 13 of `HT_TEST`: `codes[idx] = idx` in 8 bits. -/
def testTable13 : Table := Table.fixedLength 16 16 0 0 8 id

/-- The synthetic table 15 of `HT_TEST`: `codes[idx] = 255 − idx` in 8 bits. -/
def testTable15 : Table := Table.fixedLength 16 16 0 0 8 fun idx => 255 - idx

/-- The synthetic tables 16 to 23 of `HT_TEST`: `codes[idx] = idx` in 8 bits. -/
def testTable16 (linbits : Nat) : Table := Table.fixedLength 16 16 linbits (2 ^ linbits - 1) 8 id

/-- The synthetic tables 24 to 31 of `HT_TEST`: `codes[idx] = 256 + idx` in 9 bits. -/
def testTable24 (linbits : Nat) : Table := Table.fixedLength 16 16 linbits (2 ^ linbits - 1) 9 fun idx => 256 + idx

/-- `HT_TEST` (95_test_vectors.md section 2): reference entries where the spec gives them, synthetic entries otherwise. -/
def testRom : Rom :=
  ⟨[Table.empty, referenceTable1, referenceTable2, referenceTable3, Table.empty, referenceTable5, referenceTable6,
    referenceTable7, referenceTable8, referenceTable9, referenceTable10, referenceTable11, referenceTable12,
    testTable13, Table.empty, testTable15] ++
   [1, 2, 3, 4, 6, 8, 10, 13].map testTable16 ++ [4, 5, 6, 7, 8, 9, 11, 13].map testTable24 ++
   [referenceTable32, referenceTable33]⟩

/-- The parameters of the test vectors: `HT_TEST` and the defaults of R5. -/
def testParams : Params := ⟨testRom, capLimitMax, .later, .first, 1⟩

end Sys2Proof.Machine
end

