-- ==== Sys2Proof/Machine/Stream.lean ====
section
/-! DEFINITION. Bit strings, first bit first, and what they say of the machine: `bitsN` and `++` (spec 00_scope.md R6), the
bit string a writer stands for (40_bitstream_writer.md R61), the bit string a list of fields appends, and the layouts of
the emitted code words (30_encoding.md R53 to R55). Claims are stated in these terms; no command uses them. -/

namespace Sys2Proof.Machine

/-- `bitsN(v, n)`: the `n` low bits of `v`, most significant first (R6). -/
def bitsN (v : Nat) : Nat → List Bool
  | 0 => []
  | n + 1 => v.testBit n :: bitsN v n

/-- The bits of `OUT[k .. k + n)`, each byte from bit 7 down (R61). -/
def bytesBits (buf : Memory 8) (k : Nat) : Nat → List Bool
  | 0 => []
  | n + 1 => bitsN ((buf.read k).getD 0).toNat 8 ++ bytesBits buf (k + 1) n

/-- `stream(S)`: the bits of `OUT[0..pos)`, then the valid bits of the cache (R61). -/
def Writer.stream (w : Writer) : List Bool :=
  bytesBits w.buf 0 w.pos ++ bitsN (w.cache.toNat >>> w.free) (cacheBits - w.free)

/-- The bit string a field appends (R70). -/
def Field.bits (f : Field) : List Bool := bitsN f.value f.width

/-- The bit string a list of fields appends (R126). -/
def fieldsBits (fields : List Field) : List Bool := (fields.map Field.bits).flatten

/-- The sign bit of a coefficient, absent when it is zero (R53, R56). -/
def signBits (n : Int) : List Bool := if n = 0 then [] else [decide (n < 0)]

/-- The escape extension of a magnitude, `ax − 15` in `linbits` bits, absent unless the magnitude exceeds 14 (R54). -/
def escapeBits (h : Table) (a : Nat) : List Bool := if 14 < a then bitsN (a - 15) h.linbits else []

/-- The code word of an index (R53 to R55). -/
def codeBits (h : Table) (idx : Nat) : List Bool := bitsN (h.codes.getD idx 0) (h.lengths.getD idx 0)

/-- The layout of a pair code word in table `t` (R53 for `t` up to 15, R54 above). -/
def pairLayout (h : Table) (t : Nat) (x y : Int) : List Bool :=
  if 15 < t then
    codeBits h ((if 14 < x.natAbs then 15 else x.natAbs) * h.ylen + (if 14 < y.natAbs then 15 else y.natAbs)) ++
      escapeBits h x.natAbs ++ signBits x ++ escapeBits h y.natAbs ++ signBits y
  else codeBits h (x.natAbs * h.ylen + y.natAbs) ++ signBits x ++ signBits y

/-- The layout of a quadruple code word (R55). -/
def quadLayout (h : Table) (v w x y : Int) : List Bool :=
  codeBits h ((if v = 0 then 0 else 1) + (if w = 0 then 0 else 2) + (if x = 0 then 0 else 4) + (if y = 0 then 0 else 8)) ++
    signBits v ++ signBits w ++ signBits x ++ signBits y

end Sys2Proof.Machine
end

