-- ==== Sys2Proof/Safety.lean ====
section
/-! DEFINITION. What counts as a safe state, and the terms the statements are written in: the writer's invariants
(spec 10_state.md R16), the machine's, and what a pair, a quadruple and a granule cost and look like by the formulas of
the spec, written apart from the functions the commands run. -/

namespace Sys2Proof.Machine

/-! ## Invariants -/

/-- The writer invariants (R16), with the buffer holding exactly the addresses `0 .. pos − 1` (R11). -/
structure Writer.Inv (capLimit : Nat) (w : Writer) : Prop where
  /-- (a) -/
  free_pos : 1 ≤ w.free
  /-- (a) -/
  free_le : w.free ≤ 32
  /-- (b) the low `free` bits of `cache` are zero. -/
  cache_clear : w.cache.toNat % 2 ^ w.free = 0
  /-- (c) -/
  pos_le : w.pos ≤ w.cap
  /-- (d) -/
  cap_ge : 8 ≤ w.cap
  /-- (d) -/
  cap_le : w.cap ≤ capLimit
  /-- (e) `len(buf) = pos`. -/
  buf_addresses : w.buf.map Prod.fst = List.range w.pos

/-- What every step keeps: the admitted `CAP_LIMIT` (R5), the writer invariants once a `NEW` has completed (R16), both
memories in canonical form, `IX` inside its 576 entries (R19, R32), and no fault code that is never produced (93 U10). -/
structure State.Inv (s : State) : Prop where
  limit_ge : 8 ≤ s.params.capLimit
  limit_le : s.params.capLimit ≤ 2 ^ 29 - 1
  writer : s.status.init = true → s.writer.Inv s.params.capLimit
  buf_wf : s.writer.buf.wf
  ix_wf : s.ix.wf
  ix_range : ∀ e ∈ s.ix, e.1 < 576
  fault_legal : s.status.fault ≠ .inputShapeMismatch
  last_legal : s.status.last ≠ .inputShapeMismatch

/-- The states in which every command is accepted by the entry checks (R142). -/
def State.Ready (s : State) : Prop := s.status.init = true ∧ s.status.fault = .none

/-- `s` after a command or word that raised fault `c`, which latches: `LAST` is `c`, `FAULT` is `c` if it was 0, and
nothing else changes (R141). -/
def State.withFault (s : State) (c : FaultCode) : State :=
  { s with status := ⟨s.status.init, if s.status.fault = .none then c else s.status.fault, c⟩ }

/-- `s` with another `LAST`: 0 after a command that completes (R142), the code after a range violation of a query, which
does not latch (R141). -/
def State.withLast (s : State) (c : FaultCode) : State := { s with status := ⟨s.status.init, s.status.fault, c⟩ }

/-- The three query commands (R141). -/
def IsQuery (i : Instr) : Prop := i = .selectTable ∨ (∃ t, i = .countBits t) ∨ i = .count1Bits

/-! ## Ranges -/

/-- A legal coefficient range (R96). -/
def RangeOk (b e : Nat) : Prop := b ≤ e ∧ e ≤ 576 ∧ (e - b) % 2 = 0

/-- `m` is the largest magnitude of the coefficients `[b, e)` (R101). -/
def IsMaxAbs (s : State) (b e m : Nat) : Prop :=
  (∀ i, b ≤ i → i < e → (coefficient s i).natAbs ≤ m) ∧ ∃ i, b ≤ i ∧ i < e ∧ (coefficient s i).natAbs = m

/-- `t` is the least of the tables 0..14 whose `xlen` exceeds `m` (R98). -/
def IsNoEscapeChoice (ht : Rom) (m t : Nat) : Prop :=
  t ≤ 14 ∧ m < (ht.table t).xlen ∧ ∀ u, u < t → (ht.table u).xlen ≤ m

/-- `t` is the least of the tables `first..last` whose `linmax` carries `m − 15` (R99). -/
def IsEscapeChoice (ht : Rom) (first last m t : Nat) : Prop :=
  first ≤ t ∧ t ≤ last ∧ m - 15 ≤ (ht.table t).linmax ∧ ∀ u, first ≤ u → u < t → (ht.table u).linmax < m - 15

/-! ## Pairs -/

/-- Table `t` represents the magnitudes of `x` and `y`: below `xlen`, `ylen` up to table 15, at most `15 + linmax` above
(R87, R100). -/
def Representable (h : Table) (t : Nat) (x y : Int) : Prop :=
  if 15 < t then x.natAbs ≤ 15 + h.linmax ∧ y.natAbs ≤ 15 + h.linmax
  else x.natAbs < h.xlen ∧ y.natAbs < h.ylen

/-- The cost of a pair: code length, `linbits` for each escaped magnitude, a sign bit for each non-zero value (R100). -/
def pairCost (h : Table) (t : Nat) (x y : Int) : Nat :=
  (if 15 < t then
    h.lengths.getD ((if 14 < x.natAbs then 15 else x.natAbs) * h.ylen + (if 14 < y.natAbs then 15 else y.natAbs)) 0 +
      (if 14 < x.natAbs then h.linbits else 0) + (if 14 < y.natAbs then h.linbits else 0)
  else h.lengths.getD (x.natAbs * h.ylen + y.natAbs) 0) +
    (if x = 0 then 0 else 1) + (if y = 0 then 0 else 1)

/-- Every pair of `[b, e)` is representable in table `t`. -/
def RangeRepresentable (s : State) (b e t : Nat) : Prop :=
  ∀ k, k < (e - b) / 2 →
    Representable (s.params.ht.table t) t (coefficient s (b + 2 * k)) (coefficient s (b + 2 * k + 1))

/-- The cost of `[b, e)` in table `t`: nothing in table 0, else the sum over its pairs (R102). -/
def rangeCost (s : State) (b e t : Nat) : Nat :=
  if t = 0 then 0
  else ((List.range ((e - b) / 2)).map fun k =>
    pairCost (s.params.ht.table t) t (coefficient s (b + 2 * k)) (coefficient s (b + 2 * k + 1))).sum

/-- The substitution lists of `select_table`, "2→3; 5→6; 7→8 then 9; 10→11 then 12; 13→15" (R98): the first choice and
the tables tried after it. -/
def candidates (choice : Nat) : List Nat :=
  if choice = 2 then [2, 3] else if choice = 5 then [5, 6] else if choice = 7 then [7, 8, 9]
  else if choice = 10 then [10, 11, 12] else if choice = 13 then [13, 15] else [choice]

/-- `r` is the candidate `TIE_NOESC` picks: none is cheaper, and of the equally cheap ones it is the last tried for
`later`, the first for `earlier` (R98). The lists are in rising order. -/
def IsCheapest (tie : TieNoesc) (cost : Nat → Nat) (ts : List Nat) (r : Nat) : Prop :=
  r ∈ ts ∧ ∀ t ∈ ts, cost r ≤ cost t ∧
    (cost t = cost r → match tie with | .later => t ≤ r | .earlier => r ≤ t)

/-! ## Quadruples -/

/-- The four coefficients are in −1..1 (R104). -/
def QuadRepresentable (v w x y : Int) : Prop := v.natAbs ≤ 1 ∧ w.natAbs ≤ 1 ∧ x.natAbs ≤ 1 ∧ y.natAbs ≤ 1

/-- The cost of a quadruple: code length and a sign bit for each non-zero value (R105). -/
def quadCost (h : Table) (v w x y : Int) : Nat :=
  h.lengths.getD ((if v = 0 then 0 else 1) + (if w = 0 then 0 else 2) + (if x = 0 then 0 else 4) +
    (if y = 0 then 0 else 8)) 0 +
    (if v = 0 then 0 else 1) + (if w = 0 then 0 else 1) + (if x = 0 then 0 else 1) + (if y = 0 then 0 else 1)

/-- The quadruple of coefficients from index `i` is representable. -/
def QuadRepresentableAt (s : State) (i : Nat) : Prop :=
  QuadRepresentable (coefficient s i) (coefficient s (i + 1)) (coefficient s (i + 2)) (coefficient s (i + 3))

/-- The cost of `n` quadruples from index `b` in count1 table `32 + sel` (R106). -/
def quadsCost (s : State) (b n sel : Nat) : Nat :=
  ((List.range n).map fun k => quadCost (s.params.ht.table (32 + sel)) (coefficient s (b + 4 * k))
    (coefficient s (b + 4 * k + 1)) (coefficient s (b + 4 * k + 2)) (coefficient s (b + 4 * k + 3))).sum

/-! ## Granules -/

/-- The granule registers pass the checks of R127. -/
def GranuleOk (g : GranuleRegs) : Prop :=
  g.bigValues.toNat ≤ 288 ∧ 2 * g.bigValues.toNat + 4 * g.count1.toNat ≤ 576 ∧
  g.address1.toNat ≤ g.address2.toNat ∧ g.address2.toNat ≤ g.address3.toNat ∧
  g.address3.toNat = 2 * g.bigValues.toNat ∧ g.address1.toNat % 2 = 0 ∧ g.address2.toNat % 2 = 0 ∧
  g.tableSelect0.toNat ≤ 31 ∧ g.tableSelect1.toNat ≤ 31 ∧ g.tableSelect2.toNat ≤ 31 ∧
  g.count1TableSelect.toNat ≤ 1

/-- The pair table of coefficient index `i`: region 0 below `address1`, region 1 below `address2`, else region 2 (R126). -/
def granuleTable (g : GranuleRegs) (i : Nat) : Nat :=
  if i < g.address1.toNat then g.tableSelect0.toNat
  else if i < g.address2.toNat then g.tableSelect1.toNat else g.tableSelect2.toNat

/-- Every symbol of the granule is representable in its table (R126); table 0 takes any pair (R117). -/
def GranuleRepresentable (s : State) : Prop :=
  (∀ k, k < s.granule.bigValues.toNat → granuleTable s.granule (2 * k) ≠ 0 →
    Representable (s.params.ht.table (granuleTable s.granule (2 * k))) (granuleTable s.granule (2 * k))
      (coefficient s (2 * k)) (coefficient s (2 * k + 1))) ∧
  ∀ k, k < s.granule.count1.toNat → QuadRepresentableAt s (2 * s.granule.bigValues.toNat + 4 * k)

/-- The bits of the pair at index `2*k` of the big-values region: none in table 0 (R126). -/
def granulePairLayout (s : State) (k : Nat) : List Bool :=
  if granuleTable s.granule (2 * k) = 0 then []
  else pairLayout (s.params.ht.table (granuleTable s.granule (2 * k))) (granuleTable s.granule (2 * k))
    (coefficient s (2 * k)) (coefficient s (2 * k + 1))

/-- The bits of the `k`-th quadruple of the count1 region (R126). -/
def granuleQuadLayout (s : State) (k : Nat) : List Bool :=
  quadLayout (s.params.ht.table (32 + s.granule.count1TableSelect.toNat))
    (coefficient s (2 * s.granule.bigValues.toNat + 4 * k))
    (coefficient s (2 * s.granule.bigValues.toNat + 4 * k + 1))
    (coefficient s (2 * s.granule.bigValues.toNat + 4 * k + 2))
    (coefficient s (2 * s.granule.bigValues.toNat + 4 * k + 3))

/-- The bits `ENCODE_GRANULE` appends: big-values region, then count1 region (R58, R126). -/
def granuleLayout (s : State) : List Bool :=
  ((List.range s.granule.bigValues.toNat).map (granulePairLayout s)).flatten ++
    ((List.range s.granule.count1.toNat).map (granuleQuadLayout s)).flatten

/-- One symbol as a single command: the instruction and its operands `OP0..OP3` (R129). -/
structure Symbol where
  instr : Instr
  op0 : Word
  op1 : Word
  op2 : Word
  op3 : Word

/-- The pairs of `[b, e)` as single commands in table `t`, in order (R103). -/
def rangeSymbols (s : State) (b e t : Nat) : List Symbol :=
  (List.range ((e - b) / 2)).map fun k =>
    ⟨.encodePair t, coefficientWord s.ix (b + 2 * k), coefficientWord s.ix (b + 2 * k + 1), s.regs.op2, s.regs.op3⟩

/-- `n` quadruples from index `b` as single commands in count1 table `32 + sel`, in order (R107). -/
def quadSymbols (s : State) (b n sel : Nat) : List Symbol :=
  (List.range n).map fun k =>
    ⟨.encodeQuad sel, coefficientWord s.ix (b + 4 * k), coefficientWord s.ix (b + 4 * k + 1),
      coefficientWord s.ix (b + 4 * k + 2), coefficientWord s.ix (b + 4 * k + 3)⟩

/-- The single commands a granule stands for, in stream order (R129). -/
def granuleSymbols (s : State) : List Symbol :=
  ((List.range s.granule.bigValues.toNat).map fun k =>
    ⟨.encodePair (granuleTable s.granule (2 * k)), coefficientWord s.ix (2 * k), coefficientWord s.ix (2 * k + 1),
      s.regs.op2, s.regs.op3⟩) ++
  quadSymbols s (2 * s.granule.bigValues.toNat) s.granule.count1.toNat s.granule.count1TableSelect.toNat

/-- A run of `WRITE_BITS value, n`, in order (R71). -/
def writeSymbols (writes : List (Word × Nat)) : List Symbol :=
  writes.map fun e => ⟨.writeBits e.2, e.1, 0, 0, 0⟩

/-- The writes `STUFF n` stands for: `n div 32` words of ones, then the remainder in ones (R52, R131). -/
def stuffWrites (n : Nat) : List (Word × Nat) :=
  List.replicate (n / 32) (BitVec.allOnes 32, 32) ++
    if n % 32 = 0 then [] else [(BitVec.ofNat 32 (2 ^ (n % 32) - 1), n % 32)]

/-- The symbols, issued one after the other from `s`, all complete and leave `t` (R129). -/
def CompletesAs : List Symbol → State → State → Prop
  | [], s, t => t = s
  | y :: ys, s, t => ∃ u,
      exec y.instr { s with regs := { s.regs with op0 := y.op0, op1 := y.op1, op2 := y.op2, op3 := y.op3 } } = .next u ∧
      u.status.last = .none ∧ CompletesAs ys u t

/-! ## The register map as the host reads it -/

/-- The number of a fault code (R136), written out apart from the block's own. -/
def codeNumber (c : FaultCode) : Nat :=
  match c with
  | .none => 0
  | .bitstreamOverflow => 1
  | .encodingRangeViolation => 2
  | .bigValuesLimitExceeded => 3
  | .invalidHuffmanIndex => 4
  | .inputShapeMismatch => 5
  | .illegalCommand => 6
  | .notInitialised => 7
  | .bufferExhausted => 8

/-- `STATUS` as a number: `FAULT` in bits 3:0, `LAST` in 7:4, `INIT` in 8 (R21). -/
def statusNumber (st : Status) : Nat :=
  codeNumber st.fault + 16 * codeNumber st.last + (if st.init = true then 256 else 0)

/-- The offset of every register of the map below the `IX` window, with the value the host reads (R21 to R24). -/
def registerViews (s : State) : List (Nat × Word) :=
  [(0x00, 0), (0x04, BitVec.ofNat 32 (statusNumber s.status)),
   (0x08, s.regs.op0), (0x0C, s.regs.op1), (0x10, s.regs.op2), (0x14, s.regs.op3),
   (0x18, s.regs.res0), (0x1C, s.regs.res1),
   (0x20, BitVec.ofNat 32 s.writer.pos), (0x24, BitVec.ofNat 32 s.writer.cap), (0x28, s.writer.cache),
   (0x2C, BitVec.ofNat 32 s.writer.free),
   (0x30, s.granule.bigValues), (0x34, s.granule.count1),
   (0x38, s.granule.address1), (0x3C, s.granule.address2), (0x40, s.granule.address3),
   (0x44, s.granule.tableSelect0), (0x48, s.granule.tableSelect1), (0x4C, s.granule.tableSelect2),
   (0x50, s.granule.count1TableSelect)]

/-! ## Growth and appending -/

/-- The capacity after `words` word flushes from cursor `pos` and capacity `cap`, each preceded by one growth step where
fewer than 4 bytes remain, whatever the limit (R63, R75). -/
def capAfterFlushes (pos cap : Nat) : Nat → Nat
  | 0 => cap
  | words + 1 =>
    if capAfterFlushes pos cap words - (pos + 4 * words) < 4 then
      capAfterFlushes pos cap words + capAfterFlushes pos cap words / 2
    else capAfterFlushes pos cap words

/-- The writer that a bit string leaves, appended to an empty stream of capacity `c` (R75). -/
structure HoldsStream (c : Nat) (bits : List Bool) (w : Writer) : Prop where
  stream : w.stream = bits
  pos : w.pos = 4 * (bits.length / 32)
  /-- `OUT[0..pos)` are the first `pos` bytes of the string. -/
  out : bytesBits w.buf 0 w.pos = bits.take (8 * w.pos)
  free : w.free = 32 - bits.length % 32
  /-- `cache` holds the rest left-justified. -/
  cache : bitsN w.cache.toNat 32 = bits.drop (8 * w.pos) ++ List.replicate w.free false
  cap : w.cap = capAfterFlushes 0 c (bits.length / 32)

/-- The number of words that `bits` more bits complete (R120). -/
def wordsCompleted (w : Writer) (bits : Nat) : Nat := (32 - w.free + bits) / 32

/-- The buffer can take every word that `bits` more bits complete: growth stays within `CAP_LIMIT` (R120). -/
def HasRoom (capLimit : Nat) (w : Writer) (bits : Nat) : Prop :=
  capAfterFlushes w.pos w.cap (wordsCompleted w bits) ≤ capLimit

/-- `w'` is `w` with a bit string appended: the stream, the words flushed, the growth, and the invariants, which fix
`buf`, `cache` and `free` too (R61, R70, R75). -/
structure Appends (capLimit : Nat) (w : Writer) (bits : List Bool) (w' : Writer) : Prop where
  inv : w'.Inv capLimit
  stream : w'.stream = w.stream ++ bits
  pos : w'.pos = w.pos + 4 * wordsCompleted w bits.length
  cap : w'.cap = capAfterFlushes w.pos w.cap (wordsCompleted w bits.length)

end Sys2Proof.Machine
end

