-- ==== Sys2Proof/Certificates/Slice0/Obligations.lean ====
section
/-! DEFINITION. The statements about the model, in the order of the files of spec/. Every hypothesis on a state is one the
spec makes (the command is accepted, the writer invariants hold, the ROM image is well formed) or follows from the operands;
each has a concrete witness in Tests/Slice0.lean. -/

open Sys2Proof Sys2Proof.Machine

/-! ## State and reset (10_state.md, 41_huffman_tables.md) -/

/-- R27, R155, power-on column: `INIT`, `FAULT` and `LAST` are 0, no `IX` entry holds a value, and the ROM image and limit
are ones the spec admits. Nothing is said of the values the spec leaves unspecified. -/
def Obligations.PowerOnState : Prop :=
  State.reset.status = ⟨false, .none, .none⟩ ∧ (∀ i, State.reset.ix.read i = none) ∧ State.reset.params.WellFormed

/-- R83: an implementation is powered on only with parameters the spec admits. That an ill-formed image is refused as a
configuration is the model's reading of 93 U13 (notes/assumptions/12.md). -/
def Obligations.PowerOnRefusesIllFormedRom : Prop :=
  ∀ p : Params,
    (p.WellFormed → powerOn p = .next { State.reset with params := p }) ∧
    (¬ p.WellFormed → powerOn p = .refused .illFormedConfiguration)

/-- The state after power-on meets the invariant of `StepKeepsStateInvariant`. -/
def Obligations.PowerOnMeetsStateInvariant : Prop := State.reset.Inv

/-- R16, from every state that meets the invariant, not only from runs: a step keeps the writer invariants (a) to (e),
both memories in canonical form, `IX` inside its 576 entries, and the parameters. -/
def Obligations.StepKeepsStateInvariant : Prop :=
  ∀ s t : State, s.Inv → step s = .next t → t.Inv ∧ t.params = s.params

/-! ## The host's accesses (10_state.md, 20_memory.md) -/

/-- R17, R18, R19, R23: a host write of a writable register sets that register and nothing else; a write to a reserved
offset changes nothing. -/
def Obligations.HostWritesSetOneRegister : Prop :=
  ∀ (s : State) (v : Word) (q : List HostAction),
    let after (off : Nat) := step { s with hostQueue := .write .word off v :: q }
    after 0x08 = .next { s with hostQueue := q, regs := { s.regs with op0 := v } } ∧
    after 0x0C = .next { s with hostQueue := q, regs := { s.regs with op1 := v } } ∧
    after 0x10 = .next { s with hostQueue := q, regs := { s.regs with op2 := v } } ∧
    after 0x14 = .next { s with hostQueue := q, regs := { s.regs with op3 := v } } ∧
    after 0x30 = .next { s with hostQueue := q, granule := { s.granule with bigValues := v } } ∧
    after 0x34 = .next { s with hostQueue := q, granule := { s.granule with count1 := v } } ∧
    after 0x38 = .next { s with hostQueue := q, granule := { s.granule with address1 := v } } ∧
    after 0x3C = .next { s with hostQueue := q, granule := { s.granule with address2 := v } } ∧
    after 0x40 = .next { s with hostQueue := q, granule := { s.granule with address3 := v } } ∧
    after 0x44 = .next { s with hostQueue := q, granule := { s.granule with tableSelect0 := v } } ∧
    after 0x48 = .next { s with hostQueue := q, granule := { s.granule with tableSelect1 := v } } ∧
    after 0x4C = .next { s with hostQueue := q, granule := { s.granule with tableSelect2 := v } } ∧
    after 0x50 = .next { s with hostQueue := q, granule := { s.granule with count1TableSelect := v } } ∧
    (∀ i, i < 576 → ∃ ix, after (0x1000 + 4 * i) = .next { s with hostQueue := q, ix := ix } ∧
      ix.read i = some v ∧ ∀ j, j ≠ i → ix.read j = s.ix.read j) ∧
    ∀ k, 0x54 ≤ 4 * k → 4 * k ≤ 0xFFC → after (4 * k) = .next { s with hostQueue := q }

/-- R21 to R24: a host read of a register answers its value, and a read of a reserved offset answers 0. -/
def Obligations.HostReadsAnswerRegisters : Prop :=
  ∀ (s : State) (q : List HostAction),
    (∀ r ∈ registerViews s, step { s with hostQueue := .read .word r.1 :: q } =
      .next { s with hostQueue := q, readData := r.2 }) ∧
    (∀ k, 0x54 ≤ 4 * k → 4 * k ≤ 0xFFC → step { s with hostQueue := .read .word (4 * k) :: q } =
      .next { s with hostQueue := q, readData := 0 }) ∧
    ∀ i v, i < 576 → s.ix.read i = some v →
      step { s with hostQueue := .read .word (0x1000 + 4 * i) :: q } = .next { s with hostQueue := q, readData := v }

/-- R38: no read in any space has a side effect. What the host is given (`readData`), the count of free values used and
the queue are the model's own fields. -/
def Obligations.ReadsHaveNoSideEffect : Prop :=
  ∀ (s t : State) (a : HostAction) (q : List HostAction),
    (∃ size off, a = .read size off) ∨ (∃ k, a = .readOut k) →
    step { s with hostQueue := a :: q } = .next t →
    t = { s with hostQueue := q, readData := t.readData, freeReads := t.freeReads }

/-- R31: a read of `OUT[k]` with `k < pos` answers the byte the block wrote there, the byte whose bits stand at `8k` of the
stream; a read at or above `pos` completes too, and nothing is said of the byte it answers. -/
def Obligations.OutReadsAnswerTheStream : Prop :=
  ∀ (s : State) (k : Nat) (q : List HostAction), s.Inv → s.status.init = true →
    (k < s.writer.pos → ∃ b : Byte,
      step { s with hostQueue := .readOut k :: q } = .next { s with hostQueue := q, readData := b.zeroExtend 32 } ∧
      (s.writer.stream.drop (8 * k)).take 8 = bitsN b.toNat 8) ∧
    (s.writer.pos ≤ k → ∃ b : Byte, step { s with hostQueue := .readOut k :: q } =
      .next { s with hostQueue := q, readData := b.zeroExtend 32, freeReads := s.freeReads + 1 })

/-- R36, R23: a narrow or misaligned access to `REG` or `IX` is refused, and an aligned access past the map stops. Both
stops are the model's own (notes/assumptions/8.md): the spec calls such accesses outside it. -/
def Obligations.AccessesOutsideTheMapStop : Prop :=
  ∀ (s : State) (size : AccessSize) (off : Nat) (v : Word) (q : List HostAction),
    (size ≠ .word ∨ off % 4 ≠ 0 →
      step { s with hostQueue := .write size off v :: q } = .refused .narrowOrMisalignedAccess ∧
      step { s with hostQueue := .read size off :: q } = .refused .narrowOrMisalignedAccess) ∧
    (off % 4 = 0 → 0x1900 ≤ off →
      step { s with hostQueue := .write .word off v :: q } = .fault .offsetNotInMap ∧
      step { s with hostQueue := .read .word off :: q } = .fault .offsetNotInMap)

/-- R17: no command writes `OP0..OP3`; R18, R19: none writes a granule register or `IX`. Nor does one touch the
parameters or the host's side of the interface. -/
def Obligations.CommandsNeverWriteInputs : Prop :=
  ∀ (i : Instr) (s t : State), exec i s = .next t →
    t.regs.op0 = s.regs.op0 ∧ t.regs.op1 = s.regs.op1 ∧ t.regs.op2 = s.regs.op2 ∧ t.regs.op3 = s.regs.op3 ∧
    t.granule = s.granule ∧ t.ix = s.ix ∧ t.params = s.params ∧
    t.hostQueue = s.hostQueue ∧ t.readData = s.readData ∧ t.freeReads = s.freeReads

/-- R17: `RES0` and `RES1` change only in the commands whose rule writes them, and only when the command ends without a
fault; otherwise both keep their values. -/
def Obligations.ResultsWrittenOnlyOnSuccess : Prop :=
  ∀ (i : Instr) (s t : State), exec i s = .next t →
    (t.status.last ≠ .none → t.regs.res0 = s.regs.res0 ∧ t.regs.res1 = s.regs.res1) ∧
    (t.regs.res0 ≠ s.regs.res0 →
      i = .getBitsCount ∨ i = .selectTable ∨ (∃ n, i = .countBits n) ∨ i = .count1Bits ∨ i = .encodeGranule) ∧
    (t.regs.res1 ≠ s.regs.res1 → i = .count1Bits)

/-- R31, R160: no step changes a byte below `pos` or lowers `pos`, but for a `NEW` or `RESET`, which empty the buffer. -/
def Obligations.OutBytesBelowPosAreFinal : Prop :=
  ∀ s t : State, s.Inv → step s = .next t →
    (s.writer.pos ≤ t.writer.pos ∧ ∀ k, k < s.writer.pos → t.writer.buf.read k = s.writer.buf.read k) ∨
    (∃ w q, s.hostQueue = commandAction w :: q ∧ (decode w = .ok .new ∨ decode w = .ok .reset) ∧
      t.writer.pos = 0 ∧ t.writer.buf = [])

/-! ## Encoding (30_encoding.md) -/

/-- R45, R47: decoding the word of a well-formed command gives the command back. -/
def Obligations.DecodeOfEncode : Prop := ∀ i : Instr, i.wellFormed = true → decode (encode i) = .ok i

/-- R47, R48: a word spells a command exactly when it matches the command's row of the opcode map under the row's mask, and
the operand is then the field `a`; so no word spells two commands. -/
def Obligations.DecodeMatchesOpcodeMap : Prop :=
  ∀ w : Word,
    (decode w = .ok .new ↔ w &&& 0xFFFFFFFF#32 = 0x01000000#32) ∧
    (decode w = .ok .reset ↔ w &&& 0xFFFFFFFF#32 = 0x02000000#32) ∧
    (∀ n, decode w = .ok (.writeBits n) ↔ w &&& 0xFF00FFFF#32 = 0x03000000#32 ∧ n = w.toNat / 65536 % 256) ∧
    (decode w = .ok .getBitsCount ↔ w &&& 0xFFFFFFFF#32 = 0x04000000#32) ∧
    (decode w = .ok .byteAlign ↔ w &&& 0xFFFFFFFF#32 = 0x05000000#32) ∧
    (decode w = .ok .selectTable ↔ w &&& 0xFFFFFFFF#32 = 0x10000000#32) ∧
    (∀ t, decode w = .ok (.countBits t) ↔ w &&& 0xFF00FFFF#32 = 0x11000000#32 ∧ t = w.toNat / 65536 % 256) ∧
    (decode w = .ok .count1Bits ↔ w &&& 0xFFFFFFFF#32 = 0x12000000#32) ∧
    (∀ t, decode w = .ok (.encodePair t) ↔ w &&& 0xFF00FFFF#32 = 0x13000000#32 ∧ t = w.toNat / 65536 % 256) ∧
    (∀ c, decode w = .ok (.encodeQuad c) ↔ w &&& 0xFF00FFFF#32 = 0x14000000#32 ∧ c = w.toNat / 65536 % 256) ∧
    (decode w = .ok .encodeGranule ↔ w &&& 0xFFFFFFFF#32 = 0x15000000#32)

/-- R49: which words are illegal; that an illegal word changes nothing but `LAST` and `FAULT`; and that a value of `a` that
is out of range for its command is no illegal encoding but raises the command's own fault. -/
def Obligations.IllegalWordsRaiseIllegalCommand : Prop :=
  (∀ w : Word, (∀ i, decode w ≠ .ok i) ↔
    (w.toNat / 2 ^ 24 ∉ [0x01, 0x02, 0x03, 0x04, 0x05, 0x10, 0x11, 0x12, 0x13, 0x14, 0x15] ∨
      w.toNat % 2 ^ 16 ≠ 0 ∨
      (w.toNat / 2 ^ 24 ∉ [0x03, 0x11, 0x13, 0x14] ∧ w.toNat / 2 ^ 16 % 256 ≠ 0))) ∧
  (∀ (s : State) (w : Word) (q : List HostAction), s.hostQueue = commandAction w :: q → (∀ i, decode w ≠ .ok i) →
    step s = .next ({ s with hostQueue := q }.withFault .illegalCommand)) ∧
  ∀ (s : State) (a : Nat), s.Ready → a ≤ 255 →
    (33 ≤ a → exec (.writeBits a) s = .next (s.withFault .bitstreamOverflow)) ∧
    (32 ≤ a → exec (.countBits a) s = .next (s.withFault .invalidHuffmanIndex) ∧
      exec (.encodePair a) s = .next (s.withFault .invalidHuffmanIndex)) ∧
    (2 ≤ a → exec (.encodeQuad a) s = .next (s.withFault .invalidHuffmanIndex))

/-- R47, R51: six words of the opcode map decode as the spec spells them. -/
def Obligations.SampleWordsDecode : Prop :=
  decode 0x01000000#32 = .ok .new ∧ decode 0x03200000#32 = .ok (.writeBits 32) ∧
  decode 0x11110000#32 = .ok (.countBits 17) ∧ decode 0x13010000#32 = .ok (.encodePair 1) ∧
  decode 0x14010000#32 = .ok (.encodeQuad 1) ∧ decode 0x15000000#32 = .ok .encodeGranule

/-- R22, R39, R48: a step in which the host writes a word to `CMD` runs the command the word spells, on the state with that
host action taken off the queue, and adds nothing; with no action pending a step changes nothing (R154). -/
def Obligations.StepRunsTheDecodedCommand : Prop :=
  ∀ s : State,
    (∀ (w : Word) (i : Instr) (q : List HostAction), s.hostQueue = commandAction w :: q → decode w = .ok i →
      step s = exec i { s with hostQueue := q }) ∧
    (∀ i : Instr, i.wellFormed = true → step (s.withFetchWord 32 (encode i).toNat) = exec i s) ∧
    (s.hostQueue = [] → step s = .next s)

/-! ## Faults (60_exceptions.md) -/

/-- R142: the entry checks of a write of `CMD`, in order: an illegal word, then `NotInitialised`, then the refusal with the
latched code; otherwise the command's own rule runs, and ends with `LAST = 0` or with a fault of its own. -/
def Obligations.EntryChecksInOrder : Prop :=
  ∀ (s : State) (w : Word) (q : List HostAction), s.hostQueue = commandAction w :: q →
    ((∀ i, decode w ≠ .ok i) → step s = .next ({ s with hostQueue := q }.withFault .illegalCommand)) ∧
    ∀ i, decode w = .ok i →
      (i ≠ .new → s.status.init = false → step s = .next ({ s with hostQueue := q }.withFault .notInitialised)) ∧
      (i ≠ .new → i ≠ .getBitsCount → s.status.init = true → s.status.fault ≠ .none →
        step s = .next ({ s with hostQueue := q }.withLast s.status.fault)) ∧
      (i = .new ∨ (s.status.init = true ∧ (i = .getBitsCount ∨ s.status.fault = .none)) →
        step s = exec i { s with hostQueue := q } ∧
        ∃ t, step s = .next t ∧ (t.status.last = .none ∨ t = { s with hostQueue := q, status := t.status }))

/-- R141, R135: a command that ends with fault code `c` sets `LAST` to `c`, sets `FAULT` to `c` where nothing is latched and
`c` is not a query's range violation, and changes nothing else. -/
def Obligations.FaultsFollowTheLatchRule : Prop :=
  ∀ (i : Instr) (s t : State), exec i s = .next t → t.status.last ≠ .none →
    (s.status.fault = .none ∧ ¬(t.status.last = .encodingRangeViolation ∧ IsQuery i) →
      t = { s with status := ⟨s.status.init, t.status.last, t.status.last⟩ }) ∧
    (¬(s.status.fault = .none ∧ ¬(t.status.last = .encodingRangeViolation ∧ IsQuery i)) →
      t = { s with status := ⟨s.status.init, s.status.fault, t.status.last⟩ })

/-- R139: every command except `NEW` raises `NotInitialised` while `INIT = 0`, and on an initialised block with nothing
latched no command raises it. -/
def Obligations.CommandsBeforeNewRaiseNotInitialised : Prop :=
  ∀ (i : Instr) (s : State), i ≠ .new →
    (s.status.init = false → exec i s = .next (s.withFault .notInitialised)) ∧
    (s.Ready → ∀ t, exec i s = .next t → t.status.last ≠ .notInitialised)

/-- R144, R168: the block never halts: every command answers a next state from every state, faulting or not. -/
def Obligations.CommandsAlwaysAnswer : Prop := ∀ (i : Instr) (s : State), ∃ t, exec i s = .next t

/-- R21, R145: over every step, `INIT` is never cleared and is set only by a completed `NEW`; a latched `FAULT` is cleared
or changed only by a completed `NEW`, which leaves `INIT = 1`, `FAULT = 0`, `LAST = 0`. -/
def Obligations.OnlyNewClearsFaultAndSetsInit : Prop :=
  ∀ s t : State, step s = .next t →
    (s.status.init = true → t.status.init = true) ∧
    ((s.status.fault ≠ .none ∧ t.status.fault ≠ s.status.fault) ∨ t.status.init ≠ s.status.init →
      ∃ w q, s.hostQueue = commandAction w :: q ∧ decode w = .ok .new ∧ t.status = ⟨true, .none, .none⟩)

/-! ## The writer commands (40_bitstream_writer.md) -/

/-- R62: `NEW`, completely: it sets the writer and `STATUS` and nothing else, whatever `INIT` and `FAULT` hold, or refuses an
unusable capacity; it is the only command that clears `FAULT` and the only one accepted while `INIT = 0`. -/
def Obligations.NewInitialisesOrFaults : Prop :=
  ∀ s : State,
    (8 ≤ s.regs.op0.toNat ∧ s.regs.op0.toNat ≤ s.params.capLimit →
      exec .new s =
        .next { s with writer := ⟨[], 0, s.regs.op0.toNat, 0, 32⟩, status := ⟨true, .none, .none⟩ }) ∧
    (s.regs.op0.toNat < 8 ∨ s.params.capLimit < s.regs.op0.toNat →
      exec .new s = .next (s.withFault .illegalCommand)) ∧
    ∀ i, i ≠ .new →
      (s.status.init = false → exec i s = .next (s.withFault .notInitialised)) ∧
      ∀ t, exec i s = .next t → s.status.fault ≠ .none → t.status.fault = s.status.fault

/-- R69: `RESET` empties buffer and cache, keeps `cap`, and changes nothing else but `LAST`; while a fault is latched it is
refused and clears nothing. -/
def Obligations.ResetEmptiesTheStream : Prop :=
  ∀ s : State, s.status.init = true →
    (s.status.fault = .none →
      exec .reset s = .next (State.withLast { s with writer := ⟨[], 0, s.writer.cap, 0, 32⟩ } .none)) ∧
    (s.status.fault ≠ .none → exec .reset s = .next (s.withLast s.status.fault))

/-- R64, R65, first branch: bits that fit without filling the cache are added below the valid bits; only `cache`, `free` and
`LAST` change. -/
def Obligations.WriteBitsMergesIntoCache : Prop :=
  ∀ (s : State) (n : Nat), s.Ready → s.Inv → 1 ≤ n → n < s.writer.free →
    ∃ c : Word, c.toNat = s.writer.cache.toNat + s.regs.op0.toNat % 2 ^ n * 2 ^ (s.writer.free - n) ∧
      exec (.writeBits n) s = .next
        (State.withLast { s with writer := { s.writer with cache := c, free := s.writer.free - n } } .none)

/-- R64, R63, R34, second branch: the full word goes to `OUT` at `pos`, most significant byte first, the bits that do not fit
start the new cache left-justified, the capacity grows by half where fewer than 4 bytes remain, every other byte of `OUT` is
unchanged, and nothing else but `LAST` changes. -/
def Obligations.WriteBitsFlushesFullWord : Prop :=
  ∀ (s : State) (n : Nat), s.Ready → s.Inv → s.writer.free ≤ n → n ≤ 32 →
    4 ≤ s.writer.cap - s.writer.pos ∨ s.writer.cap + s.writer.cap / 2 ≤ s.params.capLimit →
    ∃ w : Writer, exec (.writeBits n) s = .next (State.withLast { s with writer := w } .none) ∧
      w.pos = s.writer.pos + 4 ∧
      w.cap = (if s.writer.cap - s.writer.pos < 4 then s.writer.cap + s.writer.cap / 2 else s.writer.cap) ∧
      w.free = 32 - (n - s.writer.free) ∧
      w.cache.toNat = s.regs.op0.toNat % 2 ^ (n - s.writer.free) * 2 ^ (32 - (n - s.writer.free)) ∧
      (∀ j, j < 4 → w.buf.read (s.writer.pos + j) = some (BitVec.ofNat 8
        ((s.writer.cache.toNat + s.regs.op0.toNat % 2 ^ n / 2 ^ (n - s.writer.free)) / 2 ^ (24 - 8 * j)))) ∧
      ∀ k, ¬(s.writer.pos ≤ k ∧ k < s.writer.pos + 4) → w.buf.read k = s.writer.buf.read k

/-- R65, R50, R140: `WRITE_BITS` of no bits completes and changes nothing; of more than 32 bits it raises
`BitstreamOverflow`; where the word to be flushed would need the buffer beyond `CAP_LIMIT` it raises `BufferExhausted`. -/
def Obligations.WriteBitsCornerCases : Prop :=
  ∀ (s : State) (n : Nat), s.Ready → s.Inv →
    (n = 0 → exec (.writeBits n) s = .next (s.withLast .none)) ∧
    (32 < n → exec (.writeBits n) s = .next (s.withFault .bitstreamOverflow)) ∧
    (s.writer.free ≤ n → n ≤ 32 → s.writer.cap - s.writer.pos < 4 →
      s.params.capLimit < s.writer.cap + s.writer.cap / 2 →
      exec (.writeBits n) s = .next (s.withFault .bufferExhausted))

/-- R70, the append law, for `emit` and for a `WRITE_BITS` that does not fault: the stream grows by exactly the `n` low bits
of the value, most significant first. -/
def Obligations.EmitAppendsItsBits : Prop :=
  (∀ (lim value n : Nat) (w w' : Writer), w.Inv lim → n ≤ 32 → emit lim w value n = .ok w' →
    w'.stream = w.stream ++ bitsN value n) ∧
  ∀ (s t : State) (n : Nat), s.Ready → s.Inv → exec (.writeBits n) s = .next t → t.status.last = .none →
    t.writer.stream = s.writer.stream ++ bitsN s.regs.op0.toNat n

/-- R66, R61: `GET_BITS_COUNT` writes the length of the stream, `8*pos + (32 − free)`, to `RES0`, is answered even while a fault
is latched, and changes nothing but `RES0` and `LAST`; before the first `NEW` it raises `NotInitialised`. R66 and R151 say that
the count always fits 32 bits; it fails to at `pos = 2^29 − 1` with 8 or more bits in the cache, where the model says nothing
of the value (notes/assumptions/9.md). -/
def Obligations.BitCountIsStreamLength : Prop :=
  ∀ s : State, s.Inv →
    (s.status.init = false → exec .getBitsCount s = .next (s.withFault .notInitialised)) ∧
    (s.status.init = true → s.writer.stream.length = 8 * s.writer.pos + (32 - s.writer.free) ∧
      ∃ v : Word, (s.writer.stream.length < 2 ^ 32 → v.toNat = s.writer.stream.length) ∧
        exec .getBitsCount s = .next (State.withLast { s with regs := { s.regs with res0 := v } } .none)) ∧
    (s.status.init = true → s.writer.pos ≤ 2 ^ 29 - 4 → s.writer.stream.length < 2 ^ 32)

/-- R67: `BYTE_ALIGN`: the bytes it writes, where, what else of the writer changes, the corner case of an empty cache, and
`BufferExhausted` before any change. -/
def Obligations.ByteAlignWritesPendingBytes : Prop :=
  ∀ s : State, s.Ready → s.Inv →
    (s.writer.free = 32 → exec .byteAlign s = .next (s.withLast .none)) ∧
    (s.writer.free < 32 →
      4 ≤ s.writer.cap - s.writer.pos ∨ s.writer.cap + s.writer.cap / 2 ≤ s.params.capLimit →
      ∃ w : Writer, exec .byteAlign s = .next (State.withLast { s with writer := w } .none) ∧
        w.pos = s.writer.pos + (32 - s.writer.free + 7) / 8 ∧ w.cache = 0 ∧ w.free = 32 ∧
        w.cap = (if s.writer.cap - s.writer.pos < 4 then s.writer.cap + s.writer.cap / 2 else s.writer.cap) ∧
        (∀ j, j < (32 - s.writer.free + 7) / 8 → w.buf.read (s.writer.pos + j) =
          some (BitVec.ofNat 8 (s.writer.cache.toNat / 2 ^ (24 - 8 * j)))) ∧
        ∀ k, ¬(s.writer.pos ≤ k ∧ k < s.writer.pos + (32 - s.writer.free + 7) / 8) →
          w.buf.read k = s.writer.buf.read k) ∧
    (s.writer.free < 32 → s.writer.cap - s.writer.pos < 4 →
      s.params.capLimit < s.writer.cap + s.writer.cap / 2 →
      exec .byteAlign s = .next (s.withFault .bufferExhausted))

/-- R72, the alignment law: `BYTE_ALIGN` pads the stream with zero bits to a whole number of bytes and leaves the cache empty,
and a second one changes nothing. -/
def Obligations.ByteAlignPadsWithZeros : Prop :=
  ∀ s t : State, s.Ready → s.Inv → exec .byteAlign s = .next t → t.status.last = .none →
    t.writer.stream = s.writer.stream ++ List.replicate ((8 - s.writer.stream.length % 8) % 8) false ∧
    t.writer.stream.length % 8 = 0 ∧ t.writer.cache = 0 ∧ t.writer.free = 32 ∧ exec .byteAlign t = .next t

/-- R71: after any sequence of `WRITE_BITS` that complete, `GET_BITS_COUNT` answers the count before it plus the sum of the
widths, where that fits 32 bits (see `BitCountIsStreamLength`), and the count is 0 after a `NEW` or `RESET`; a `BYTE_ALIGN`
adds 0 to 7. -/
def Obligations.BitCountIsConserved : Prop :=
  (∀ (s t : State) (writes : List (Word × Nat)), s.Ready → s.Inv → CompletesAs (writeSymbols writes) s t →
    t.writer.stream = s.writer.stream ++ (writes.map fun e => bitsN e.1.toNat e.2).flatten ∧
    t.writer.stream.length = s.writer.stream.length + (writes.map Prod.snd).sum ∧
    ∃ u, exec .getBitsCount t = .next u ∧ (s.writer.stream.length + (writes.map Prod.snd).sum < 2 ^ 32 →
      u.regs.res0.toNat = s.writer.stream.length + (writes.map Prod.snd).sum)) ∧
  (∀ (i : Instr) (s t : State), i = .new ∨ i = .reset → exec i s = .next t → t.status.last = .none →
    t.writer.stream = []) ∧
  ∀ s t : State, s.Ready → s.Inv → exec .byteAlign s = .next t → t.status.last = .none →
    s.writer.stream.length ≤ t.writer.stream.length ∧ t.writer.stream.length ≤ s.writer.stream.length + 7

/-- R73: the `n` bits after the old bit count are the masked value, and once later writes have put the bytes that hold them
into `OUT`, reading those bytes by R35 gives `value & mask(n)` bit by bit. -/
def Obligations.WrittenFieldReadsBackMasked : Prop :=
  ∀ (s t : State) (n : Nat), s.Ready → s.Inv → exec (.writeBits n) s = .next t → t.status.last = .none →
    (t.writer.stream.drop s.writer.stream.length).take n = bitsN s.regs.op0.toNat n ∧
    ∀ u : Writer, u.Inv s.params.capLimit → t.writer.stream <+: u.stream →
      s.writer.stream.length + n ≤ 8 * u.pos → ∀ j, j < n →
      ∃ b, u.buf.read ((s.writer.stream.length + j) / 8) = some b ∧
        b.toNat.testBit (7 - (s.writer.stream.length + j) % 8) =
          (s.regs.op0.toNat % 2 ^ n).testBit (n - 1 - j)

/-- R74: splitting a field in two leaves exactly the same state, and more generally the state after a run of `emit`s depends
only on the concatenated bit string. -/
def Obligations.EmitsSplitAndMerge : Prop :=
  (∀ (lim a m b n : Nat) (w u v v' : Writer), w.Inv lim → m + n ≤ 32 →
    emit lim w a m = .ok u → emit lim u b n = .ok v →
    emit lim w (a % 2 ^ m * 2 ^ n + b % 2 ^ n) (m + n) = .ok v' → v = v') ∧
  ∀ (lim : Nat) (w u v : Writer) (fs gs : List Field), w.Inv lim →
    (∀ f ∈ fs, f.width ≤ 32) → (∀ g ∈ gs, g.width ≤ 32) → fieldsBits fs = fieldsBits gs →
    emitFields lim w fs = .ok u → emitFields lim w gs = .ok v → u = v

/-- R75: `NEW c`, and `RESET` with `cap = c`, leave the empty writer of capacity `c`; from it the writer after any run of
`emit`s, and after any run of `WRITE_BITS` that complete, is a function of the bit string appended: `pos`, the bytes of `OUT`,
`free`, `cache` and `cap`. -/
def Obligations.WriterIsAFunctionOfItsStream : Prop :=
  (∀ s t : State, exec .new s = .next t → t.status.last = .none → t.writer = ⟨[], 0, s.regs.op0.toNat, 0, 32⟩) ∧
  (∀ s t : State, exec .reset s = .next t → t.status.last = .none → t.writer = ⟨[], 0, s.writer.cap, 0, 32⟩) ∧
  (∀ (lim c : Nat) (fs : List Field) (w : Writer), 8 ≤ c → c ≤ lim → (∀ f ∈ fs, f.width ≤ 32) →
    emitFields lim ⟨[], 0, c, 0, 32⟩ fs = .ok w → HoldsStream c (fieldsBits fs) w) ∧
  ∀ (c : Nat) (writes : List (Word × Nat)) (s t : State), s.Ready → s.Inv → s.writer = ⟨[], 0, c, 0, 32⟩ →
    CompletesAs (writeSymbols writes) s t →
    HoldsStream c (writes.map fun e => bitsN e.1.toNat e.2).flatten t.writer

/-- R35: bit `k` of the stream is bit `7 − (k mod 8)` of `OUT[k div 8]` once that byte has been written. -/
def Obligations.StreamBitsStandMostSignificantFirst : Prop :=
  ∀ (lim : Nat) (w : Writer) (k : Nat), w.Inv lim → k < 8 * w.pos →
    ∃ b, w.buf.read (k / 8) = some b ∧ w.stream[k]? = some (b.toNat.testBit (7 - k % 8))

/-- R131, R52: the writes that `STUFF n` stands for append `n` one bits. -/
def Obligations.StuffingAppendsOnes : Prop :=
  ∀ n : Nat,
    stuffActions n = ((stuffWrites n).map fun e => writeBitsActions e.1 e.2).flatten ∧
    ∀ s t : State, s.Ready → s.Inv → CompletesAs (writeSymbols (stuffWrites n)) s t →
      t.writer.stream = s.writer.stream ++ List.replicate n true

/-! ## Table selection and counting (42_huffman_count_select.md) -/

/-- R95: the result of a query is a function of the operands, of the magnitudes of the `IX` entries in the range, of `HT` and of
the tie parameters, whatever the writer, the granule registers and earlier commands; and a query changes nothing but `RES0`,
`RES1`, `LAST` and, on a fault that latches, `FAULT`. -/
def Obligations.QueriesArePure : Prop :=
  ∀ (i : Instr) (s1 s2 t1 t2 : State), IsQuery i → s1.Ready → s2.Ready →
    s1.regs.op0 = s2.regs.op0 → s1.regs.op1 = s2.regs.op1 → s1.params.ht = s2.params.ht →
    s1.params.tieNoesc = s2.params.tieNoesc → s1.params.tieEsc = s2.params.tieEsc →
    s1.params.count1Tie = s2.params.count1Tie →
    (∀ k, s1.regs.op0.toNat ≤ k →
      k < (if i = .count1Bits then s1.regs.op0.toNat + 4 * s1.regs.op1.toNat else s1.regs.op1.toNat) →
      (coefficient s1 k).natAbs = (coefficient s2 k).natAbs) →
    exec i s1 = .next t1 → exec i s2 = .next t2 →
    t1.status = t2.status ∧
    (t1.status.last = .none → t1.regs.res0 = t2.regs.res0 ∧ (i = .count1Bits → t1.regs.res1 = t2.regs.res1)) ∧
    t1.status.init = true ∧ (t1.status.fault = .none ∨ t1.status.fault = t1.status.last) ∧
    t1 = { s1 with status := t1.status, regs := { s1.regs with res0 := t1.regs.res0, res1 := t1.regs.res1 } }

/-- R96: a range that is reversed, longer than `IX` or of odd length raises `InvalidHuffmanIndex`, latched, in both commands
that take a range; every other range is legal, the empty one and one that begins at an odd index included. -/
def Obligations.BadRangesRaiseInvalidIndex : Prop :=
  ∀ s : State, s.Ready → s.params.ht.WellFormed →
    (s.regs.op1.toNat < s.regs.op0.toNat ∨ 576 < s.regs.op1.toNat ∨
        (s.regs.op1.toNat - s.regs.op0.toNat) % 2 ≠ 0 →
      exec .selectTable s = .next (s.withFault .invalidHuffmanIndex) ∧
      ∀ t, t ≤ 31 → exec (.countBits t) s = .next (s.withFault .invalidHuffmanIndex)) ∧
    (s.regs.op0.toNat ≤ s.regs.op1.toNat → s.regs.op1.toNat ≤ 576 →
      (s.regs.op1.toNat - s.regs.op0.toNat) % 2 = 0 →
      (∀ u, exec .selectTable s = .next u → u.status.last ≠ .invalidHuffmanIndex) ∧
      ∀ t u, t ≤ 31 → exec (.countBits t) s = .next u → u.status.last ≠ .invalidHuffmanIndex)

/-- R97: a legal range whose largest magnitude is 0, the empty range included, selects table 0. -/
def Obligations.SelectTableOfZerosIsZero : Prop :=
  ∀ s : State, s.Ready → RangeOk s.regs.op0.toNat s.regs.op1.toNat →
    (∀ k, s.regs.op0.toNat ≤ k → k < s.regs.op1.toNat → coefficient s k = 0) →
    exec .selectTable s = .next (State.withLast { s with regs := { s.regs with res0 := 0 } } .none)

/-- R97, R98: for a largest magnitude of 1 to 14 the command answers, among the least table whose `xlen` exceeds it and the
tables listed after it, the one of fewest bits, ties as `TIE_NOESC` says; nothing but `RES0` and `LAST` changes. -/
def Obligations.SelectTableWithoutEscape : Prop :=
  ∀ (s : State) (m choice : Nat), s.Ready → s.params.ht.WellFormed →
    RangeOk s.regs.op0.toNat s.regs.op1.toNat → IsMaxAbs s s.regs.op0.toNat s.regs.op1.toNat m →
    1 ≤ m → m ≤ 14 → IsNoEscapeChoice s.params.ht m choice →
    (∀ t ∈ candidates choice, RangeRepresentable s s.regs.op0.toNat s.regs.op1.toNat t) →
    ∃ r, IsCheapest s.params.tieNoesc (rangeCost s s.regs.op0.toNat s.regs.op1.toNat) (candidates choice) r ∧
      r ≤ 31 ∧
      exec .selectTable s =
        .next (State.withLast { s with regs := { s.regs with res0 := BitVec.ofNat 32 r } } .none)

/-- R97, R99: for a largest magnitude of 15 or more the command answers the cheaper of the least table of 15..23 and the
least of 24..31 whose `linmax` suffices, ties as `TIE_ESC` says; table 15 must hold the range itself. -/
def Obligations.SelectTableWithEscape : Prop :=
  ∀ (s : State) (m c0 c1 : Nat), s.Ready → s.params.ht.WellFormed →
    RangeOk s.regs.op0.toNat s.regs.op1.toNat → IsMaxAbs s s.regs.op0.toNat s.regs.op1.toNat m →
    15 ≤ m → IsEscapeChoice s.params.ht 15 23 m c0 → IsEscapeChoice s.params.ht 24 31 m c1 →
    (c0 = 15 → RangeRepresentable s s.regs.op0.toNat s.regs.op1.toNat 15) →
    exec .selectTable s = .next (State.withLast { s with regs := { s.regs with
      res0 := BitVec.ofNat 32
        (if rangeCost s s.regs.op0.toNat s.regs.op1.toNat c1 < rangeCost s s.regs.op0.toNat s.regs.op1.toNat c0 ∨
            (rangeCost s s.regs.op0.toNat s.regs.op1.toNat c1 = rangeCost s s.regs.op0.toNat s.regs.op1.toNat c0 ∧
              s.params.tieEsc = .second)
          then c1 else c0) } } .none)

/-- R98, R99, R141: where no table can hold the largest magnitude, or a table the procedure counts with cannot hold a pair, the
command reports `EncodingRangeViolation` in `LAST` only. -/
def Obligations.SelectTableReportsRangeViolation : Prop :=
  ∀ (s : State) (m : Nat), s.Ready → s.params.ht.WellFormed →
    RangeOk s.regs.op0.toNat s.regs.op1.toNat → IsMaxAbs s s.regs.op0.toNat s.regs.op1.toNat m →
    (1 ≤ m → m ≤ 14 → (∀ t, t ≤ 14 → (s.params.ht.table t).xlen ≤ m) →
      exec .selectTable s = .next (s.withLast .encodingRangeViolation)) ∧
    (∀ choice, 1 ≤ m → m ≤ 14 → IsNoEscapeChoice s.params.ht m choice →
      (∃ t ∈ candidates choice, ¬ RangeRepresentable s s.regs.op0.toNat s.regs.op1.toNat t) →
      exec .selectTable s = .next (s.withLast .encodingRangeViolation)) ∧
    (15 ≤ m → (∀ t, 15 ≤ t → t ≤ 23 → (s.params.ht.table t).linmax < m - 15) ∨
        (∀ t, 24 ≤ t → t ≤ 31 → (s.params.ht.table t).linmax < m - 15) →
      exec .selectTable s = .next (s.withLast .encodingRangeViolation)) ∧
    (∀ c1, 15 ≤ m → IsEscapeChoice s.params.ht 15 23 m 15 → IsEscapeChoice s.params.ht 24 31 m c1 →
      ¬ RangeRepresentable s s.regs.op0.toNat s.regs.op1.toNat 15 →
      exec .selectTable s = .next (s.withLast .encodingRangeViolation))

/-- R102, R100: `COUNT_BITS` writes to `RES0` the sum of the costs of the pairs of the range, 0 for table 0, at most 288 pairs of
at most 64 bits, and changes nothing else but `LAST`. -/
def Obligations.CountBitsSumsPairCosts : Prop :=
  ∀ (s : State) (t : Nat), s.Ready → s.params.ht.WellFormed → t ≤ 31 →
    RangeOk s.regs.op0.toNat s.regs.op1.toNat →
    t = 0 ∨ RangeRepresentable s s.regs.op0.toNat s.regs.op1.toNat t →
    ∃ v : Word, v.toNat = rangeCost s s.regs.op0.toNat s.regs.op1.toNat t ∧ v.toNat ≤ 288 * 64 ∧
      exec (.countBits t) s = .next (State.withLast { s with regs := { s.regs with res0 := v } } .none)

/-- R102, R100, R141, R143: a table index above 31 is reported before the range is looked at and latches; a pair the table
cannot represent is reported in `LAST` only. -/
def Obligations.CountBitsFaultsInOrder : Prop :=
  ∀ (s : State) (t : Nat), s.Ready → s.params.ht.WellFormed →
    (31 < t → exec (.countBits t) s = .next (s.withFault .invalidHuffmanIndex)) ∧
    (1 ≤ t → t ≤ 31 → RangeOk s.regs.op0.toNat s.regs.op1.toNat →
      ¬ RangeRepresentable s s.regs.op0.toNat s.regs.op1.toNat t →
      exec (.countBits t) s = .next (s.withLast .encodingRangeViolation))

/-- R106, R104, R105: `COUNT1_BITS` writes the smaller of the two count1 tables' sums to `RES0` and the table's select to `RES1`,
`COUNT1_TIE` on equal sums; a region past coefficient 575 raises `InvalidHuffmanIndex`, with no 32-bit wrap, and a
magnitude above 1 is reported in `LAST` only. -/
def Obligations.Count1BitsChoosesCheaperTable : Prop :=
  ∀ s : State, s.Ready → s.params.ht.WellFormed →
    (s.regs.op0.toNat + 4 * s.regs.op1.toNat ≤ 576 →
      (∀ k, k < s.regs.op1.toNat → QuadRepresentableAt s (s.regs.op0.toNat + 4 * k)) →
      ∃ v : Word,
        v.toNat = min (quadsCost s s.regs.op0.toNat s.regs.op1.toNat 0)
          (quadsCost s s.regs.op0.toNat s.regs.op1.toNat 1) ∧
        exec .count1Bits s = .next (State.withLast { s with regs := { s.regs with
          res0 := v
          res1 :=
            if quadsCost s s.regs.op0.toNat s.regs.op1.toNat 0 < quadsCost s s.regs.op0.toNat s.regs.op1.toNat 1 then 0
            else if quadsCost s s.regs.op0.toNat s.regs.op1.toNat 1 < quadsCost s s.regs.op0.toNat s.regs.op1.toNat 0
              then 1
            else BitVec.ofNat 32 s.params.count1Tie.val } } .none)) ∧
    (576 < s.regs.op0.toNat + 4 * s.regs.op1.toNat →
      exec .count1Bits s = .next (s.withFault .invalidHuffmanIndex)) ∧
    (s.regs.op0.toNat + 4 * s.regs.op1.toNat ≤ 576 →
      (∃ k, k < s.regs.op1.toNat ∧ ¬ QuadRepresentableAt s (s.regs.op0.toNat + 4 * k)) →
      exec .count1Bits s = .next (s.withLast .encodingRangeViolation))

/-- R103: a completed `ENCODE_PAIR` appends exactly `pair_bits` bits, none in table 0; it raises a range or index fault exactly
when `pair_bits` does; so `COUNT_BITS` over a range is the number of bits that encoding its pairs appends. -/
def Obligations.PairCountEqualsEmission : Prop :=
  ∀ s : State, s.Ready → s.Inv → s.params.ht.WellFormed →
    (∀ t u, exec (.encodePair t) s = .next u → u.status.last = .none →
      (t = 0 ∧ u.writer = s.writer) ∨
      (1 ≤ t ∧ ∃ bits, pairBits (s.params.ht.table t) t s.regs.op0.toInt.natAbs
          s.regs.op1.toInt.natAbs = .ok bits ∧
        u.writer.stream.length = s.writer.stream.length + bits)) ∧
    (∀ t u c, 1 ≤ t → t ≤ 31 → exec (.encodePair t) s = .next u →
      c = .encodingRangeViolation ∨ c = .invalidHuffmanIndex →
      (u.status.last = c ↔ pairBits (s.params.ht.table t) t s.regs.op0.toInt.natAbs
        s.regs.op1.toInt.natAbs = .error c)) ∧
    ∀ (b e : Word) (t : Nat) (u v : State),
      exec (.countBits t) { s with regs := { s.regs with op0 := b, op1 := e } } = .next u → u.status.last = .none →
      CompletesAs (rangeSymbols s b.toNat e.toNat t) s v →
      v.writer.stream.length = s.writer.stream.length + u.regs.res0.toNat

/-- R107: the same for quadruples: a completed `ENCODE_QUAD` appends exactly `quad_bits` bits, faults for its select or its
magnitudes exactly when they are out of range, and `COUNT1_BITS` is what encoding the region with its select appends. -/
def Obligations.QuadCountEqualsEmission : Prop :=
  ∀ s : State, s.Ready → s.Inv → s.params.ht.WellFormed →
    (∀ sel u, exec (.encodeQuad sel) s = .next u → u.status.last = .none →
      sel ≤ 1 ∧ ∃ bits, quadBits (s.params.ht.table (32 + sel)) s.regs.op0.toInt s.regs.op1.toInt s.regs.op2.toInt
          s.regs.op3.toInt = .ok bits ∧
        u.writer.stream.length = s.writer.stream.length + bits) ∧
    (∀ sel u, exec (.encodeQuad sel) s = .next u →
      (u.status.last = .invalidHuffmanIndex ↔ 1 < sel) ∧
      (u.status.last = .encodingRangeViolation ↔ sel ≤ 1 ∧
        quadIndex (s.params.ht.table (32 + sel)) s.regs.op0.toInt s.regs.op1.toInt s.regs.op2.toInt
          s.regs.op3.toInt = .error .encodingRangeViolation)) ∧
    ∀ (b n : Word) (u v : State),
      exec .count1Bits { s with regs := { s.regs with op0 := b, op1 := n } } = .next u → u.status.last = .none →
      CompletesAs (quadSymbols s b.toNat n.toNat u.regs.res1.toNat) s v →
      v.writer.stream.length = s.writer.stream.length + u.regs.res0.toNat

/-- R108, under the reference metadata of R88, which the spec takes from general knowledge: the first choices of `SELECT_TABLE`
by the largest magnitude, and the tables tried after them. -/
def Obligations.FirstChoicesUnderReferenceMetadata : Prop :=
  ∀ ht : Rom, (∀ t, t < 34 → ((ht.table t).xlen, (ht.table t).ylen, (ht.table t).linbits, (ht.table t).linmax) =
      referenceMeta.getD t (0, 0, 0, 0)) →
    (∀ row ∈ [(1, 1, [1]), (2, 2, [2, 3]), (3, 3, [5, 6]), (4, 5, [7, 8, 9]), (6, 7, [10, 11, 12]), (8, 14, [13, 15])],
      ∀ m, row.1 ≤ m → m ≤ row.2.1 → ∃ t, noescChoice ht m = some t ∧ candidates t = row.2.2) ∧
    (∀ row ∈ [(15, 15, 15, 24), (16, 16, 16, 24), (17, 18, 17, 24), (19, 22, 18, 24), (23, 30, 19, 24), (31, 46, 20, 25),
        (47, 78, 20, 26), (79, 142, 21, 27), (143, 270, 21, 28), (271, 526, 22, 29), (527, 1038, 22, 30),
        (1039, 2062, 23, 30), (2063, 8206, 23, 31)],
      ∀ m, row.1 ≤ m → m ≤ row.2.1 → escChoice ht 15 9 m = some row.2.2.1 ∧ escChoice ht 24 8 m = some row.2.2.2) ∧
    ∀ m, 8206 < m → escChoice ht 15 9 m = none ∧ escChoice ht 24 8 m = none

/-- R109, silence: with all `IX` zero, `SELECT_TABLE 0, e` and `COUNT_BITS b, e, 0` answer 0 for every legal range,
`COUNT1_BITS 0, 0` answers 0, and `ENCODE_GRANULE` of nothing appends nothing. -/
def Obligations.SilenceCostsAndEmitsNothing : Prop :=
  ∀ s : State, s.Ready → s.Inv → (∀ k, k < 576 → coefficient s k = 0) →
    (s.regs.op0 = 0 → RangeOk 0 s.regs.op1.toNat →
      exec .selectTable s = .next (State.withLast { s with regs := { s.regs with res0 := 0 } } .none)) ∧
    (RangeOk s.regs.op0.toNat s.regs.op1.toNat →
      exec (.countBits 0) s = .next (State.withLast { s with regs := { s.regs with res0 := 0 } } .none)) ∧
    (s.regs.op0 = 0 → s.regs.op1 = 0 → exec .count1Bits s = .next (State.withLast { s with regs := { s.regs with
      res0 := 0, res1 := BitVec.ofNat 32 s.params.count1Tie.val } } .none)) ∧
    (s.granule.bigValues = 0 → s.granule.count1 = 0 → GranuleOk s.granule →
      exec .encodeGranule s = .next (State.withLast { s with regs := { s.regs with res0 := 0 } } .none))

/-! ## Code emission (43_huffman_emit.md) -/

/-- R120: `room_check` passes exactly when the `emit`s it stands for all complete, which is when the growth they need stays
within `CAP_LIMIT`. -/
def Obligations.RoomCheckIsExact : Prop :=
  ∀ (lim : Nat) (w : Writer) (fs : List Field), w.Inv lim → (∀ f ∈ fs, f.width ≤ 32) →
    (roomCheck lim w (totalWidth fs) = .ok () ↔ ∃ w', emitFields lim w fs = .ok w') ∧
    (roomCheck lim w (totalWidth fs) = .ok () ↔ HasRoom lim w (totalWidth fs))

/-- R116 to R121, R53, R54: `ENCODE_PAIR`, completely: table 0 appends nothing; a table above 31 is reported first, then a pair the
table cannot represent, then a buffer that cannot take the words, each latched with nothing appended; otherwise the code
word of R53 or R54 is appended, and nothing but the writer and `LAST` changes. -/
def Obligations.EncodePairAppendsItsCode : Prop :=
  ∀ (s : State) (t : Nat), s.Ready → s.Inv → s.params.ht.WellFormed →
    (t = 0 → exec (.encodePair t) s = .next (s.withLast .none)) ∧
    (31 < t → exec (.encodePair t) s = .next (s.withFault .invalidHuffmanIndex)) ∧
    (1 ≤ t → t ≤ 31 → ¬ Representable (s.params.ht.table t) t s.regs.op0.toInt s.regs.op1.toInt →
      exec (.encodePair t) s = .next (s.withFault .encodingRangeViolation)) ∧
    (1 ≤ t → t ≤ 31 → Representable (s.params.ht.table t) t s.regs.op0.toInt s.regs.op1.toInt →
      ¬ HasRoom s.params.capLimit s.writer (pairCost (s.params.ht.table t) t s.regs.op0.toInt s.regs.op1.toInt) →
      exec (.encodePair t) s = .next (s.withFault .bufferExhausted)) ∧
    (1 ≤ t → t ≤ 31 → Representable (s.params.ht.table t) t s.regs.op0.toInt s.regs.op1.toInt →
      HasRoom s.params.capLimit s.writer (pairCost (s.params.ht.table t) t s.regs.op0.toInt s.regs.op1.toInt) →
      ∃ w : Writer, exec (.encodePair t) s = .next (State.withLast { s with writer := w } .none) ∧
        Appends s.params.capLimit s.writer
          (pairLayout (s.params.ht.table t) t s.regs.op0.toInt s.regs.op1.toInt) w)

/-- R122, R123, R55, R121: `ENCODE_QUAD`, completely, in the same order of checks: the code word of R55 in count1 table
`32 + sel`. -/
def Obligations.EncodeQuadAppendsItsCode : Prop :=
  ∀ (s : State) (sel : Nat), s.Ready → s.Inv → s.params.ht.WellFormed →
    (1 < sel → exec (.encodeQuad sel) s = .next (s.withFault .invalidHuffmanIndex)) ∧
    (sel ≤ 1 → ¬ QuadRepresentable s.regs.op0.toInt s.regs.op1.toInt s.regs.op2.toInt s.regs.op3.toInt →
      exec (.encodeQuad sel) s = .next (s.withFault .encodingRangeViolation)) ∧
    (sel ≤ 1 → QuadRepresentable s.regs.op0.toInt s.regs.op1.toInt s.regs.op2.toInt s.regs.op3.toInt →
      ¬ HasRoom s.params.capLimit s.writer (quadCost (s.params.ht.table (32 + sel)) s.regs.op0.toInt
        s.regs.op1.toInt s.regs.op2.toInt s.regs.op3.toInt) →
      exec (.encodeQuad sel) s = .next (s.withFault .bufferExhausted)) ∧
    (sel ≤ 1 → QuadRepresentable s.regs.op0.toInt s.regs.op1.toInt s.regs.op2.toInt s.regs.op3.toInt →
      HasRoom s.params.capLimit s.writer (quadCost (s.params.ht.table (32 + sel)) s.regs.op0.toInt
        s.regs.op1.toInt s.regs.op2.toInt s.regs.op3.toInt) →
      ∃ w : Writer, exec (.encodeQuad sel) s = .next (State.withLast { s with writer := w } .none) ∧
        Appends s.params.capLimit s.writer (quadLayout (s.params.ht.table (32 + sel)) s.regs.op0.toInt
          s.regs.op1.toInt s.regs.op2.toInt s.regs.op3.toInt) w)

/-- R124: the layouts are uniquely decodable, whatever follows them: two representable pairs, or two quadruples, whose layouts
in one table begin the same bit string are equal, and so is what follows. That the commands append these layouts is
EncodePairAppendsItsCode and EncodeQuadAppendsItsCode. -/
def Obligations.EmittedCodesDecodeUniquely : Prop :=
  ∀ ht : Rom, ht.WellFormed →
    (∀ (t : Nat) (x y x' y' : Int) (rest rest' : List Bool), 1 ≤ t → t ≤ 31 →
      Representable (ht.table t) t x y → Representable (ht.table t) t x' y' →
      pairLayout (ht.table t) t x y ++ rest = pairLayout (ht.table t) t x' y' ++ rest' →
      x = x' ∧ y = y' ∧ rest = rest') ∧
    ∀ (sel : Nat) (v w x y v' w' x' y' : Int) (rest rest' : List Bool), sel ≤ 1 →
      QuadRepresentable v w x y → QuadRepresentable v' w' x' y' →
      quadLayout (ht.table (32 + sel)) v w x y ++ rest = quadLayout (ht.table (32 + sel)) v' w' x' y' ++ rest' →
      v = v' ∧ w = w' ∧ x = x' ∧ y = y' ∧ rest = rest'

/-- R127, R121, R143: the granule register checks come first: `BigValuesLimitExceeded` above 288 big values, then
`InvalidHuffmanIndex` for any other failed check, on naturals with no 32-bit wrap, whatever the coefficients; registers that
pass raise neither. -/
def Obligations.GranuleRegisterChecksInOrder : Prop :=
  ∀ s : State, s.Ready → s.params.ht.WellFormed →
    (288 < s.granule.bigValues.toNat → exec .encodeGranule s = .next (s.withFault .bigValuesLimitExceeded)) ∧
    (s.granule.bigValues.toNat ≤ 288 → ¬ GranuleOk s.granule →
      exec .encodeGranule s = .next (s.withFault .invalidHuffmanIndex)) ∧
    (GranuleOk s.granule → ∀ t, exec .encodeGranule s = .next t →
      t.status.last ≠ .bigValuesLimitExceeded ∧ t.status.last ≠ .invalidHuffmanIndex)

/-- R126: `ENCODE_GRANULE` with good registers: a symbol that cannot be represented, then a buffer that cannot take the words, is
reported with nothing emitted; otherwise the big-values region and the count1 region are appended, `RES0` is their length,
which is the sum of the four counts and below 2^15, and nothing but the writer, `RES0` and `LAST` changes. -/
def Obligations.EncodeGranuleAppendsItsRegions : Prop :=
  ∀ s : State, s.Ready → s.Inv → s.params.ht.WellFormed → GranuleOk s.granule →
    (¬ GranuleRepresentable s → exec .encodeGranule s = .next (s.withFault .encodingRangeViolation)) ∧
    (GranuleRepresentable s → ¬ HasRoom s.params.capLimit s.writer (granuleLayout s).length →
      exec .encodeGranule s = .next (s.withFault .bufferExhausted)) ∧
    (GranuleRepresentable s → HasRoom s.params.capLimit s.writer (granuleLayout s).length →
      ∃ (w : Writer) (v : Word),
        exec .encodeGranule s =
          .next (State.withLast { s with writer := w, regs := { s.regs with res0 := v } } .none) ∧
        Appends s.params.capLimit s.writer (granuleLayout s) w ∧
        v.toNat = (granuleLayout s).length ∧ v.toNat < 2 ^ 15 ∧
        v.toNat = rangeCost s 0 s.granule.address1.toNat s.granule.tableSelect0.toNat +
          rangeCost s s.granule.address1.toNat s.granule.address2.toNat s.granule.tableSelect1.toNat +
          rangeCost s s.granule.address2.toNat s.granule.address3.toNat s.granule.tableSelect2.toNat +
          quadsCost s (2 * s.granule.bigValues.toNat) s.granule.count1.toNat s.granule.count1TableSelect.toNat)

/-- R129: if `ENCODE_GRANULE` completes, the writer it leaves is the one left by the single commands it stands for, each of which
completes; conversely, with good granule registers, if they all complete so does `ENCODE_GRANULE`, to the same writer; and
where it faults it emits none of the symbols. -/
def Obligations.GranuleEqualsSingleCommands : Prop :=
  ∀ s t : State, s.Ready → s.Inv → s.params.ht.WellFormed → exec .encodeGranule s = .next t →
    (t.status.last = .none → ∃ u, CompletesAs (granuleSymbols s) s u ∧ u.writer = t.writer) ∧
    (∀ u, GranuleOk s.granule → CompletesAs (granuleSymbols s) s u →
      t.status.last = .none ∧ u.writer = t.writer) ∧
    (t.status.last ≠ .none → t.writer = s.writer)
end

