-- ==== Sys2Proof/Laws/Memory.lean ====
section
/-! SUPPORT. Memories: a read after a write, and the canonical form, which every operation keeps. -/

namespace Sys2Proof.Machine

variable {width : Nat}

theorem Memory.read_write_same (m : Memory width) (k : Nat) (v : BitVec width) : (m.write k v).read k = some v := by
  induction m with
  | nil => simp [Memory.write, Memory.read]
  | cons e m ih =>
    obtain ⟨a, u⟩ := e
    by_cases h1 : k < a
    · simp [Memory.write, Memory.read, h1]
    · by_cases h2 : k = a
      · simp [Memory.write, Memory.read, h2]
      · simp [Memory.write, Memory.read, h1, h2, ih]

theorem Memory.read_write_other (m : Memory width) {k j : Nat} (v : BitVec width) (h : j ≠ k) :
    (m.write k v).read j = m.read j := by
  induction m with
  | nil => simp [Memory.write, Memory.read, h]
  | cons e m ih =>
    obtain ⟨a, u⟩ := e
    by_cases h1 : k < a
    · simp [Memory.write, Memory.read, h1, h]
    · by_cases h2 : k = a
      · subst h2; simp [Memory.write, Memory.read, h]
      · simp [Memory.write, Memory.read, h1, h2, ih]

/-- The addresses after a write are the old ones and the one written. -/
theorem Memory.mem_write {m : Memory width} {k : Nat} {v : BitVec width} {e : Nat × BitVec width}
    (h : e ∈ m.write k v) : e = (k, v) ∨ e ∈ m := by
  induction m with
  | nil => simpa [Memory.write] using h
  | cons f m ih =>
    obtain ⟨a, u⟩ := f
    simp only [Memory.write] at h
    split_ifs at h with h1 h2
    · simpa using h
    · rcases List.mem_cons.mp h with h | h
      · exact .inl h
      · exact .inr (List.mem_cons_of_mem _ h)
    · rcases List.mem_cons.mp h with h | h
      · exact .inr (h ▸ List.mem_cons_self)
      · rcases ih h with h | h
        · exact .inl h
        · exact .inr (List.mem_cons_of_mem _ h)

/-- A write keeps the canonical form. -/
theorem Memory.wf_write {m : Memory width} (h : m.wf) (k : Nat) (v : BitVec width) : (m.write k v).wf := by
  induction m with
  | nil => simp [Memory.write, Memory.wf]
  | cons e m ih =>
    obtain ⟨a, u⟩ := e
    have hm := List.pairwise_cons.mp h
    simp only [Memory.write]
    split_ifs with h1 h2
    · refine List.pairwise_cons.mpr ⟨?_, h⟩
      intro f hf
      rcases List.mem_cons.mp hf with rfl | hf
      · exact h1
      · exact lt_trans h1 (hm.1 f hf)
    · subst h2
      exact List.pairwise_cons.mpr ⟨hm.1, hm.2⟩
    · refine List.pairwise_cons.mpr ⟨?_, ih hm.2⟩
      intro f hf
      rcases Memory.mem_write hf with rfl | hf
      · show a < k
        omega
      · exact hm.1 f hf

/-- `MemWrite` keeps the canonical form. -/
theorem writeBytes_wf (n : Nat) : ∀ {buf : Memory 8} (_ : buf.wf) (addr : Nat) (w : Word),
    (writeBytes buf addr n w).wf := by
  induction n with
  | zero => intro buf h addr w; exact h
  | succ n ih => intro buf h addr w; exact ih (Memory.wf_write h addr _) (addr + 1) (w <<< 8)

/-- `MemWrite` leaves every byte outside `[addr, addr + n)` alone. -/
theorem writeBytes_read_other (n : Nat) : ∀ (buf : Memory 8) (addr : Nat) (w : Word) {k : Nat},
    ¬(addr ≤ k ∧ k < addr + n) → (writeBytes buf addr n w).read k = buf.read k := by
  induction n with
  | zero => intro buf addr w k _; rfl
  | succ n ih =>
    intro buf addr w k h
    rw [writeBytes, ih _ _ _ (by omega), Memory.read_write_other _ _ (by omega)]

theorem topByte_eq (w : Word) : topByte w = BitVec.ofNat 8 (w.toNat / 2 ^ 24) := by
  apply BitVec.eq_of_toNat_eq
  simp [topByte, BitVec.extractLsb', Nat.shiftRight_eq_div_pow]

theorem topByte_shiftLeft (w : Word) (j : Nat) (h : j < 4) :
    topByte (w <<< (8 * j)) = BitVec.ofNat 8 (w.toNat / 2 ^ (24 - 8 * j)) := by
  apply BitVec.eq_of_getLsbD_eq
  intro i hi
  simp only [topByte, BitVec.getLsbD_extractLsb', BitVec.getLsbD_shiftLeft, BitVec.getLsbD_ofNat,
    Nat.testBit_div_two_pow, BitVec.testBit_toNat]
  have h1 : i < 8 := hi
  have h2 : 24 + i < 32 := by omega
  have h3 : ¬ 24 + i < 8 * j := by omega
  simp [h1, h2, h3]
  congr 1
  omega

/-- Byte `j` of what `MemWrite` stores: the word's bytes, most significant first (R34). -/
theorem writeBytes_read_at (n : Nat) : ∀ (buf : Memory 8) (addr : Nat) (w : Word) {j : Nat}, j < n → n ≤ 4 →
    (writeBytes buf addr n w).read (addr + j) = some (BitVec.ofNat 8 (w.toNat / 2 ^ (24 - 8 * j))) := by
  have key : ∀ (n : Nat) (buf : Memory 8) (addr : Nat) (w : Word) (j : Nat), j < n →
      (writeBytes buf addr n w).read (addr + j) = some (topByte (w <<< (8 * j))) := by
    intro n
    induction n with
    | zero => intro buf addr w j h; omega
    | succ n ih =>
      intro buf addr w j h
      rw [writeBytes]
      cases j with
      | zero =>
        rw [writeBytes_read_other _ _ _ _ (by omega), Nat.add_zero, Memory.read_write_same]
        simp
      | succ j =>
        have := ih (buf.write addr (topByte w)) (addr + 1) (w <<< 8) j (by omega)
        rw [show addr + (j + 1) = addr + 1 + j by omega, this, ← BitVec.shiftLeft_add]
        congr 3
        omega
  intro buf addr w j h h4
  rw [key n buf addr w j h, topByte_shiftLeft w j (by omega)]

/-- A write right after the last address extends a buffer that holds `0 .. pos − 1`. -/
theorem Memory.addresses_write_end {m : Memory width} {n : Nat} (v : BitVec width)
    (h : m.map Prod.fst = List.range n) : (m.write n v).map Prod.fst = List.range (n + 1) := by
  have key : ∀ (m : Memory width), (∀ e ∈ m, e.1 < n) → (m.write n v).map Prod.fst = m.map Prod.fst ++ [n] := by
    intro m
    induction m with
    | nil => intro _; rfl
    | cons e m ih =>
      intro hm
      obtain ⟨a, u⟩ := e
      have ha : a < n := hm (a, u) List.mem_cons_self
      rw [Memory.write, if_neg (by omega), if_neg (by omega)]
      simp [ih fun e he => hm e (List.mem_cons_of_mem _ he)]
  rw [key m ?_, h, List.range_succ]
  intro e he
  have : e.1 ∈ m.map Prod.fst := List.mem_map_of_mem he
  rw [h] at this
  exact List.mem_range.mp this

theorem writeBytes_addresses (n : Nat) : ∀ {buf : Memory 8} {pos : Nat} (w : Word),
    buf.map Prod.fst = List.range pos → (writeBytes buf pos n w).map Prod.fst = List.range (pos + n) := by
  induction n with
  | zero => intro buf pos w h; exact h
  | succ n ih =>
    intro buf pos w h
    rw [writeBytes, ih _ (Memory.addresses_write_end _ h)]
    congr 1
    omega

/-- A buffer that holds exactly `0 .. pos − 1` is in canonical form. -/
theorem Memory.wf_of_addresses {m : Memory width} {n : Nat} (h : m.map Prod.fst = List.range n) : m.wf := by
  have h2 : (m.map Prod.fst).Pairwise (· < ·) := by rw [h]; exact List.pairwise_lt_range
  exact List.pairwise_map.mp h2

/-- Reading answers a value exactly at the listed addresses. -/
theorem Memory.read_isSome_iff (m : Memory width) (k : Nat) : (m.read k).isSome = true ↔ k ∈ m.map Prod.fst := by
  induction m with
  | nil => simp [Memory.read]
  | cons e m ih =>
    obtain ⟨a, u⟩ := e
    by_cases h : k = a
    · simp [Memory.read, h]
    · simp [Memory.read, h, ih]

end Sys2Proof.Machine
end

