-- ==== Sys2Proof/Laws/Bits.lean ====
section
/-! SUPPORT. Bit strings: the length, splitting and comparison of `bitsN` and of the bits of a run of bytes. -/

namespace Sys2Proof.Machine

/-! ## `bitsN` -/

@[simp] theorem bitsN_length (v : Nat) : ∀ n, (bitsN v n).length = n
  | 0 => rfl
  | n + 1 => by rw [bitsN, List.length_cons, bitsN_length v n]

/-- Bit `k` of `bitsN(v, n)`, counted from the first. -/
theorem bitsN_getElem? (v : Nat) : ∀ (n k : Nat), (bitsN v n)[k]? = if k < n then some (v.testBit (n - 1 - k)) else none
  | 0, k => by simp [bitsN]
  | n + 1, 0 => by simp [bitsN]
  | n + 1, k + 1 => by
    rw [bitsN, List.getElem?_cons_succ, bitsN_getElem? v n k]
    by_cases h : k < n
    · rw [if_pos h, if_pos (by omega)]
      congr 2
      omega
    · rw [if_neg h, if_neg (by omega)]

/-- Two bit strings of one length are equal when their numbers agree below that length. -/
theorem bitsN_eq_iff (u v n : Nat) : bitsN u n = bitsN v n ↔ u % 2 ^ n = v % 2 ^ n := by
  constructor
  · intro h
    apply Nat.eq_of_testBit_eq
    intro i
    rw [Nat.testBit_mod_two_pow, Nat.testBit_mod_two_pow]
    by_cases hi : i < n
    · have hk := congrArg (fun l => l[n - 1 - i]?) h
      simp only [bitsN_getElem?] at hk
      rw [if_pos (by omega), if_pos (by omega), show n - 1 - (n - 1 - i) = i by omega] at hk
      simp [hi, Option.some.inj hk]
    · simp [hi]
  · intro h
    apply List.ext_getElem?
    intro k
    rw [bitsN_getElem?, bitsN_getElem?]
    by_cases hk : k < n
    · rw [if_pos hk, if_pos hk]
      have hi := congrArg (fun x => x.testBit (n - 1 - k)) h
      simp only [Nat.testBit_mod_two_pow] at hi
      rw [show decide (n - 1 - k < n) = true by simp; omega] at hi
      simpa using hi
    · rw [if_neg hk, if_neg hk]

theorem bitsN_mod (v n : Nat) : bitsN (v % 2 ^ n) n = bitsN v n := by
  rw [bitsN_eq_iff, Nat.mod_mod]

/-- A bit string splits where its number splits. -/
theorem bitsN_add (v m : Nat) : ∀ n, bitsN v (m + n) = bitsN (v / 2 ^ n) m ++ bitsN v n := by
  intro n
  apply List.ext_getElem?
  intro k
  rw [bitsN_getElem?]
  by_cases hk : k < m
  · rw [List.getElem?_append_left (by simpa using hk), bitsN_getElem?, if_pos hk, if_pos (by omega),
      Nat.testBit_div_two_pow]
    congr 2
    omega
  · rw [List.getElem?_append_right (by simpa using Nat.le_of_not_lt hk), bitsN_getElem?, bitsN_length]
    by_cases hk2 : k < m + n
    · rw [if_pos hk2, if_pos (by omega)]
      congr 2
      omega
    · rw [if_neg hk2, if_neg (by omega)]

/-- The bits of a number assembled from a high and a low part (R76: shift, then OR). -/
theorem bitsN_mul_add (hi lo m n : Nat) (h : lo < 2 ^ n) :
    bitsN (hi * 2 ^ n + lo) (m + n) = bitsN hi m ++ bitsN lo n := by
  rw [bitsN_add]
  congr 1
  · congr 1
    rw [Nat.mul_comm, Nat.mul_add_div (by positivity), Nat.div_eq_of_lt h, Nat.add_zero]
  · rw [bitsN_eq_iff, Nat.mul_comm, Nat.mul_add_mod]

theorem bitsN_one (v : Nat) : bitsN v 1 = [v.testBit 0] := rfl

/-! ## The bits of a run of bytes -/

@[simp] theorem bytesBits_length (buf : Memory 8) : ∀ k n, (bytesBits buf k n).length = 8 * n := by
  intro k n
  induction n generalizing k with
  | zero => rfl
  | succ n ih => rw [bytesBits, List.length_append, bitsN_length, ih]; omega

theorem bytesBits_add (buf : Memory 8) (m : Nat) : ∀ k n,
    bytesBits buf k (m + n) = bytesBits buf k m ++ bytesBits buf (k + m) n := by
  induction m with
  | zero => intro k n; simp [bytesBits]
  | succ m ih =>
    intro k n
    rw [show m + 1 + n = m + n + 1 by omega, bytesBits, bytesBits, ih, List.append_assoc,
      show k + 1 + m = k + (m + 1) by omega]

theorem bytesBits_congr {a b : Memory 8} : ∀ {k n : Nat}, (∀ i, k ≤ i → i < k + n → a.read i = b.read i) →
    bytesBits a k n = bytesBits b k n := by
  intro k n
  induction n generalizing k with
  | zero => intro _; rfl
  | succ n ih =>
    intro h
    rw [bytesBits, bytesBits, h k (le_refl _) (by omega), ih fun i h1 h2 => h i (by omega) (by omega)]

/-- Bit `k` of a run of bytes: bit `7 − (k mod 8)` of byte `k div 8` (R35). -/
theorem bytesBits_getElem? (buf : Memory 8) : ∀ (n a k : Nat), (bytesBits buf a n)[k]? =
    if k < 8 * n then some (((buf.read (a + k / 8)).getD 0).toNat.testBit (7 - k % 8)) else none := by
  intro n
  induction n with
  | zero => intro a k; simp [bytesBits]
  | succ n ih =>
    intro a k
    rw [bytesBits]
    by_cases hk : k < 8
    · rw [List.getElem?_append_left (by simpa using hk), bitsN_getElem?, if_pos hk, if_pos (by omega),
        Nat.div_eq_of_lt hk, Nat.mod_eq_of_lt hk]
      rfl
    · rw [List.getElem?_append_right (by simpa using Nat.le_of_not_lt hk), bitsN_length, ih]
      by_cases hk2 : k < 8 * (n + 1)
      · rw [if_pos (by omega), if_pos hk2, show (k - 8) % 8 = k % 8 by omega,
          show a + 1 + (k - 8) / 8 = a + k / 8 by omega]
      · rw [if_neg (by omega), if_neg hk2]

/-- The bits of what `MemWrite` stores are the leading bits of the word (R34, R35). -/
theorem writeBytes_bits (n : Nat) (h4 : n ≤ 4) (buf : Memory 8) (addr : Nat) (w : Word) :
    bytesBits (writeBytes buf addr n w) addr n = bitsN (w.toNat / 2 ^ (32 - 8 * n)) (8 * n) := by
  apply List.ext_getElem?
  intro k
  rw [bytesBits_getElem?, bitsN_getElem?]
  by_cases hk : k < 8 * n
  · rw [if_pos hk, if_pos hk, writeBytes_read_at n buf addr w (by omega) h4, Option.getD_some, BitVec.toNat_ofNat,
      Nat.testBit_mod_two_pow, Nat.testBit_div_two_pow, Nat.testBit_div_two_pow]
    rw [show decide (7 - k % 8 < 8) = true by simp; omega, Bool.true_and]
    congr 2
    omega
  · rw [if_neg hk, if_neg hk]

@[simp] theorem stream_length (w : Writer) : w.stream.length = 8 * w.pos + (32 - w.free) := by
  simp [Writer.stream, cacheBits]

/-! ## Fields -/

@[simp] theorem Field.bits_length (f : Field) : f.bits.length = f.width := bitsN_length _ _

@[simp] theorem fieldsBits_nil : fieldsBits [] = [] := rfl

@[simp] theorem fieldsBits_cons (f : Field) (fs : List Field) : fieldsBits (f :: fs) = f.bits ++ fieldsBits fs := by
  simp [fieldsBits]

@[simp] theorem fieldsBits_append (fs gs : List Field) : fieldsBits (fs ++ gs) = fieldsBits fs ++ fieldsBits gs := by
  simp [fieldsBits]

theorem fieldsBits_length (fs : List Field) : (fieldsBits fs).length = totalWidth fs := by
  induction fs with
  | nil => rfl
  | cons f fs ih => rw [fieldsBits_cons, List.length_append, Field.bits_length, ih, totalWidth]

end Sys2Proof.Machine
end

