-- ==== Sys2Proof/Laws/State.lean ====
section
/-! SUPPORT. What the updates of the state do to each field, all true by `rfl`, and the status rules of R141 and R142. -/

namespace Sys2Proof.Machine

variable (s : State) (w : Writer) (v v0 v1 : Word) (c : FaultCode) (l : Bool) (n : Nat)

@[simp] theorem setWriter_writer : (s.setWriter w).writer = w := rfl
@[simp] theorem setWriter_status : (s.setWriter w).status = s.status := rfl
@[simp] theorem setWriter_regs : (s.setWriter w).regs = s.regs := rfl
@[simp] theorem setWriter_granule : (s.setWriter w).granule = s.granule := rfl
@[simp] theorem setWriter_ix : (s.setWriter w).ix = s.ix := rfl
@[simp] theorem setWriter_params : (s.setWriter w).params = s.params := rfl
@[simp] theorem setWriter_hostQueue : (s.setWriter w).hostQueue = s.hostQueue := rfl
@[simp] theorem setWriter_readData : (s.setWriter w).readData = s.readData := rfl
@[simp] theorem setWriter_freeReads : (s.setWriter w).freeReads = s.freeReads := rfl

@[simp] theorem setRes0_writer : (s.setRes0 v).writer = s.writer := rfl
@[simp] theorem setRes0_status : (s.setRes0 v).status = s.status := rfl
@[simp] theorem setRes0_regs : (s.setRes0 v).regs = { s.regs with res0 := v } := rfl
@[simp] theorem setRes0_granule : (s.setRes0 v).granule = s.granule := rfl
@[simp] theorem setRes0_ix : (s.setRes0 v).ix = s.ix := rfl
@[simp] theorem setRes0_params : (s.setRes0 v).params = s.params := rfl
@[simp] theorem setRes0_hostQueue : (s.setRes0 v).hostQueue = s.hostQueue := rfl
@[simp] theorem setRes0_readData : (s.setRes0 v).readData = s.readData := rfl
@[simp] theorem setRes0_freeReads : (s.setRes0 v).freeReads = s.freeReads := rfl

@[simp] theorem setRes_writer : (s.setRes v0 v1).writer = s.writer := rfl
@[simp] theorem setRes_status : (s.setRes v0 v1).status = s.status := rfl
@[simp] theorem setRes_regs : (s.setRes v0 v1).regs = { s.regs with res0 := v0, res1 := v1 } := rfl
@[simp] theorem setRes_granule : (s.setRes v0 v1).granule = s.granule := rfl
@[simp] theorem setRes_ix : (s.setRes v0 v1).ix = s.ix := rfl
@[simp] theorem setRes_params : (s.setRes v0 v1).params = s.params := rfl
@[simp] theorem setRes_hostQueue : (s.setRes v0 v1).hostQueue = s.hostQueue := rfl
@[simp] theorem setRes_readData : (s.setRes v0 v1).readData = s.readData := rfl
@[simp] theorem setRes_freeReads : (s.setRes v0 v1).freeReads = s.freeReads := rfl

@[simp] theorem raiseFault_status : (raiseFault c l s).status = s.status.raise c l := rfl
@[simp] theorem raiseFault_writer : (raiseFault c l s).writer = s.writer := rfl
@[simp] theorem raiseFault_regs : (raiseFault c l s).regs = s.regs := rfl
@[simp] theorem raiseFault_granule : (raiseFault c l s).granule = s.granule := rfl
@[simp] theorem raiseFault_ix : (raiseFault c l s).ix = s.ix := rfl
@[simp] theorem raiseFault_params : (raiseFault c l s).params = s.params := rfl
@[simp] theorem raiseFault_hostQueue : (raiseFault c l s).hostQueue = s.hostQueue := rfl
@[simp] theorem raiseFault_readData : (raiseFault c l s).readData = s.readData := rfl
@[simp] theorem raiseFault_freeReads : (raiseFault c l s).freeReads = s.freeReads := rfl

@[simp] theorem recover_status : (recover n s).status = ⟨true, .none, .none⟩ := rfl
@[simp] theorem recover_writer : (recover n s).writer = ⟨[], 0, n, 0, 32⟩ := rfl
@[simp] theorem recover_regs : (recover n s).regs = s.regs := rfl
@[simp] theorem recover_granule : (recover n s).granule = s.granule := rfl
@[simp] theorem recover_ix : (recover n s).ix = s.ix := rfl
@[simp] theorem recover_params : (recover n s).params = s.params := rfl
@[simp] theorem recover_hostQueue : (recover n s).hostQueue = s.hostQueue := rfl
@[simp] theorem recover_readData : (recover n s).readData = s.readData := rfl
@[simp] theorem recover_freeReads : (recover n s).freeReads = s.freeReads := rfl

@[simp] theorem status_raise_init (st : Status) : (st.raise c l).init = st.init := rfl
@[simp] theorem status_raise_last (st : Status) : (st.raise c l).last = c := rfl
@[simp] theorem status_refuse_init (st : Status) : st.refuse.init = st.init := rfl
@[simp] theorem status_refuse_fault (st : Status) : st.refuse.fault = st.fault := rfl
@[simp] theorem status_refuse_last (st : Status) : st.refuse.last = st.fault := rfl
@[simp] theorem status_complete_init (st : Status) : st.complete.init = st.init := rfl
@[simp] theorem status_complete_fault (st : Status) : st.complete.fault = st.fault := rfl
@[simp] theorem status_complete_last (st : Status) : st.complete.last = .none := rfl

@[simp] theorem mergeBits_buf : (mergeBits w v n).buf = w.buf := rfl
@[simp] theorem mergeBits_pos : (mergeBits w v n).pos = w.pos := rfl
@[simp] theorem mergeBits_cap : (mergeBits w v n).cap = w.cap := rfl
@[simp] theorem mergeBits_free : (mergeBits w v n).free = w.free - n := rfl
@[simp] theorem flushBits_pos : (flushBits w v n).pos = w.pos + 4 := rfl
@[simp] theorem flushBits_cap : (flushBits w v n).cap = w.cap := rfl
@[simp] theorem flushBits_free : (flushBits w v n).free = 32 - (n - w.free) := rfl
@[simp] theorem flushPending_pos : (flushPending w).pos = w.pos + pendingBytes w := rfl
@[simp] theorem flushPending_cap : (flushPending w).cap = w.cap := rfl
@[simp] theorem flushPending_cache : (flushPending w).cache = 0 := rfl
@[simp] theorem flushPending_free : (flushPending w).free = 32 := rfl
@[simp] theorem clearedWriter_buf : (clearedWriter w).buf = [] := rfl
@[simp] theorem clearedWriter_pos : (clearedWriter w).pos = 0 := rfl
@[simp] theorem clearedWriter_cap : (clearedWriter w).cap = w.cap := rfl
@[simp] theorem clearedWriter_cache : (clearedWriter w).cache = 0 := rfl
@[simp] theorem clearedWriter_free : (clearedWriter w).free = 32 := rfl

/-- Every host write leaves everything but the named register alone: the fields no register write reaches. -/
theorem writeValue_frame (r : HostReg) :
    (r.writeValue v s).writer = s.writer ∧ (r.writeValue v s).status = s.status ∧
    (r.writeValue v s).params = s.params ∧ (r.writeValue v s).hostQueue = s.hostQueue ∧
    (r.writeValue v s).readData = s.readData ∧ (r.writeValue v s).freeReads = s.freeReads ∧
    (r.writeValue v s).regs.res0 = s.regs.res0 ∧ (r.writeValue v s).regs.res1 = s.regs.res1 := by
  unfold HostReg.writeValue
  split <;> exact ⟨rfl, rfl, rfl, rfl, rfl, rfl, rfl, rfl⟩

end Sys2Proof.Machine
end

