-- ==== Sys2Proof/Laws/Writer.lean ====
section
/-! SUPPORT. The writer's primitives: what `ensure_room`, `emit` and `BYTE_ALIGN` can do, said once, and that each keeps
the invariants of R16. -/

namespace Sys2Proof.Machine

/-! ## Room -/

/-- All that one room check can answer (R63). -/
theorem roomStep_ok {lim pos cap c : Nat} (h : roomStep lim pos cap = .ok c) :
    (c = cap ∧ 4 ≤ cap - pos) ∨ (cap - pos < 4 ∧ c = cap + cap / 2 ∧ c ≤ lim) := by
  unfold roomStep grownCap flushBytes at h
  split_ifs at h with h1 h2
  · cases h; exact .inr ⟨h1, rfl, by omega⟩
  · cases h; exact .inl ⟨rfl, by omega⟩

/-- A room check that is not passed raises `BufferExhausted` (R140). -/
theorem roomStep_error {lim pos cap : Nat} {c : FaultCode} (h : roomStep lim pos cap = .error c) :
    c = .bufferExhausted ∧ cap - pos < 4 ∧ lim < cap + cap / 2 := by
  unfold roomStep grownCap flushBytes at h
  split_ifs at h with h1 h2
  cases h
  exact ⟨rfl, h1, by omega⟩

theorem roomStep_of_room {lim pos cap : Nat} (h : 4 ≤ cap - pos) : roomStep lim pos cap = .ok cap := by
  unfold roomStep flushBytes; rw [if_neg (by omega)]

theorem roomStep_of_growth {lim pos cap : Nat} (h : cap - pos < 4) (hl : cap + cap / 2 ≤ lim) :
    roomStep lim pos cap = .ok (cap + cap / 2) := by
  unfold roomStep grownCap flushBytes; rw [if_pos h, if_neg (by omega)]

theorem roomStep_of_exhausted {lim pos cap : Nat} (h : cap - pos < 4) (hl : lim < cap + cap / 2) :
    roomStep lim pos cap = .error .bufferExhausted := by
  unfold roomStep grownCap flushBytes; rw [if_pos h, if_pos hl]

/-- A passed room check leaves room for a word and keeps the capacity bounds (R63: one step always suffices). -/
theorem roomStep_bounds {lim pos cap c : Nat} (h : roomStep lim pos cap = .ok c) (h8 : 8 ≤ cap) (hp : pos ≤ cap)
    (hl : cap ≤ lim) : pos + 4 ≤ c ∧ cap ≤ c ∧ 8 ≤ c ∧ c ≤ lim := by
  rcases roomStep_ok h with ⟨rfl, h4⟩ | ⟨h4, rfl, hl'⟩ <;> omega

theorem ensureRoom_ok {lim : Nat} {w w' : Writer} (h : ensureRoom lim w = .ok w') :
    ∃ c, roomStep lim w.pos w.cap = .ok c ∧ w' = { w with cap := c } := by
  unfold ensureRoom at h
  cases hr : roomStep lim w.pos w.cap with
  | error e => rw [hr] at h; cases h
  | ok c => rw [hr] at h; cases h; exact ⟨c, rfl, rfl⟩

theorem ensureRoom_of_step {lim : Nat} {w : Writer} {c : Nat} (h : roomStep lim w.pos w.cap = .ok c) :
    ensureRoom lim w = .ok { w with cap := c } := by
  unfold ensureRoom; rw [h]; rfl

theorem ensureRoom_of_error {lim : Nat} {w : Writer} {e : FaultCode} (h : roomStep lim w.pos w.cap = .error e) :
    ensureRoom lim w = .error e := by
  unfold ensureRoom; rw [h]; rfl

/-! ## Words -/

theorem lowBits_toNat (value n : Nat) (h : n ≤ 32) : (lowBits value n).toNat = value % 2 ^ n := by
  unfold lowBits
  rw [BitVec.toNat_ofNat]
  exact Nat.mod_eq_of_lt (lt_of_lt_of_le (Nat.mod_lt _ (by positivity)) (Nat.pow_le_pow_right (by norm_num) h))

/-- OR of disjoint bit ranges is addition (R76). -/
theorem or_eq_add_of_clear {a b k : Nat} (ha : a % 2 ^ k = 0) (hb : b < 2 ^ k) : a ||| b = a + b := by
  obtain ⟨q, rfl⟩ := Nat.dvd_of_mod_eq_zero ha
  exact (Nat.two_pow_add_eq_or_of_lt hb q).symm

/-- The cache after the first branch of `emit`, as a number (R64). -/
theorem mergeBits_cache_toNat {w : Writer} {value n : Nat} (hc : w.cache.toNat % 2 ^ w.free = 0) (hf : w.free ≤ 32)
    (hn : n ≤ w.free) :
    (mergeBits w (lowBits value n) n).cache.toNat = w.cache.toNat + value % 2 ^ n * 2 ^ (w.free - n) := by
  have hv : value % 2 ^ n < 2 ^ n := Nat.mod_lt _ (by positivity)
  have hlt : value % 2 ^ n * 2 ^ (w.free - n) < 2 ^ w.free := by
    calc value % 2 ^ n * 2 ^ (w.free - n) < 2 ^ n * 2 ^ (w.free - n) :=
          Nat.mul_lt_mul_of_pos_right hv (by positivity)
      _ = 2 ^ w.free := by rw [← Nat.pow_add]; congr 1; omega
  have hle : (2 : Nat) ^ w.free ≤ 2 ^ 32 := Nat.pow_le_pow_right (by norm_num) hf
  simp only [mergeBits, BitVec.toNat_or, BitVec.toNat_shiftLeft, lowBits_toNat value n (by omega),
    Nat.shiftLeft_eq]
  rw [Nat.mod_eq_of_lt (lt_of_lt_of_le hlt hle), or_eq_add_of_clear hc hlt]

/-- The word the second branch of `emit` flushes, as a number (R64). -/
theorem flushWord_toNat {w : Writer} {value n : Nat} (hc : w.cache.toNat % 2 ^ w.free = 0) (hn : w.free ≤ n)
    (h32 : n ≤ 32) :
    (w.cache ||| (lowBits value n >>> (n - w.free))).toNat =
      w.cache.toNat + value % 2 ^ n / 2 ^ (n - w.free) := by
  have hv : value % 2 ^ n < 2 ^ n := Nat.mod_lt _ (by positivity)
  have hlt : value % 2 ^ n / 2 ^ (n - w.free) < 2 ^ w.free := by
    rw [Nat.div_lt_iff_lt_mul (by positivity), ← Nat.pow_add]
    rwa [show w.free + (n - w.free) = n by omega]
  simp only [BitVec.toNat_or, BitVec.toNat_ushiftRight, lowBits_toNat value n h32, Nat.shiftRight_eq_div_pow]
  rw [or_eq_add_of_clear hc hlt]

/-- The cache after the second branch of `emit`, as a number (R64): the low `r` bits, left-justified. -/
theorem flushBits_cache_toNat {w : Writer} {value n : Nat} (hn : w.free ≤ n) (h1 : 1 ≤ w.free) (h32 : n ≤ 32) :
    (flushBits w (lowBits value n) n).cache.toNat =
      value % 2 ^ (n - w.free) * 2 ^ (32 - (n - w.free)) := by
  simp only [flushBits, cacheBits]
  by_cases hr : n - w.free = 0
  · simp [hr, Nat.mod_one]
  · rw [if_neg hr, BitVec.toNat_shiftLeft, lowBits_toNat value n h32, Nat.shiftLeft_eq]
    have h2 : (2 : Nat) ^ 32 = 2 ^ (n - w.free) * 2 ^ (32 - (n - w.free)) := by
      rw [← Nat.pow_add]; congr 1; omega
    rw [h2, Nat.mul_mod_mul_right]
    congr 1
    exact Nat.mod_mod_of_dvd _ (pow_dvd_pow 2 (by omega))

/-! ## The invariants -/

theorem Writer.Inv.grown {lim c : Nat} {w : Writer} (h : w.Inv lim) (hr : roomStep lim w.pos w.cap = .ok c) :
    ({ w with cap := c } : Writer).Inv lim := by
  have hb := roomStep_bounds hr h.cap_ge h.pos_le h.cap_le
  exact ⟨h.free_pos, h.free_le, h.cache_clear, le_trans h.pos_le hb.2.1, hb.2.2.1, hb.2.2.2, h.buf_addresses⟩

theorem Writer.Inv.merge {lim : Nat} {w : Writer} (h : w.Inv lim) {n : Nat} (value : Nat) (hn : n < w.free) :
    (mergeBits w (lowBits value n) n).Inv lim := by
  refine ⟨?_, ?_, ?_, h.pos_le, h.cap_ge, h.cap_le, h.buf_addresses⟩
  · simp; omega
  · have := h.free_le; simp; omega
  · rw [mergeBits_cache_toNat h.cache_clear h.free_le (by omega), mergeBits_free]
    have hd : 2 ^ (w.free - n) ∣ w.cache.toNat :=
      dvd_trans (pow_dvd_pow 2 (by omega)) (Nat.dvd_of_mod_eq_zero h.cache_clear)
    exact Nat.mod_eq_zero_of_dvd (Nat.dvd_add hd (Nat.dvd_mul_left _ _))

theorem Writer.Inv.flush {lim : Nat} {w : Writer} (h : w.Inv lim) {n : Nat} (value : Nat) (hn : w.free ≤ n)
    (h32 : n ≤ 32) (hroom : w.pos + 4 ≤ w.cap) : (flushBits w (lowBits value n) n).Inv lim := by
  have h1 := h.free_pos
  refine ⟨?_, ?_, ?_, hroom, h.cap_ge, h.cap_le, writeBytes_addresses 4 _ h.buf_addresses⟩
  · simp; omega
  · simp
  · rw [flushBits_cache_toNat hn h1 h32, flushBits_free]
    exact Nat.mul_mod_left _ _

theorem freshWriter_inv {lim capacity : Nat} (h8 : 8 ≤ capacity) (hl : capacity ≤ lim) :
    (freshWriter capacity).Inv lim :=
  ⟨(by decide : 1 ≤ 32), (by decide : 32 ≤ 32), rfl, Nat.zero_le _, h8, hl, rfl⟩

theorem Writer.Inv.cleared {lim : Nat} {w : Writer} (h : w.Inv lim) : (clearedWriter w).Inv lim :=
  ⟨(by decide : 1 ≤ 32), (by decide : 32 ≤ 32), rfl, Nat.zero_le _, h.cap_ge, h.cap_le, rfl⟩

theorem pendingBytes_le {lim : Nat} {w : Writer} (h : w.Inv lim) : pendingBytes w ≤ 4 := by
  have := h.free_pos
  unfold pendingBytes ceil8 cacheBits
  omega

theorem pendingBytes_eq_zero {lim : Nat} {w : Writer} (h : w.Inv lim) : pendingBytes w = 0 ↔ w.free = 32 := by
  have := h.free_le
  unfold pendingBytes ceil8 cacheBits
  omega

theorem Writer.Inv.flushPending {lim : Nat} {w : Writer} (h : w.Inv lim) (hroom : w.pos + 4 ≤ w.cap) :
    (flushPending w).Inv lim := by
  have := pendingBytes_le h
  refine ⟨(by decide : 1 ≤ 32), (by decide : 32 ≤ 32), rfl, ?_, h.cap_ge, h.cap_le, writeBytes_addresses _ _ h.buf_addresses⟩
  simp; omega

/-! ## `emit` -/

/-- All that a completed `emit` can do (R64). -/
theorem emit_ok {lim value n : Nat} {w w' : Writer} (h : emit lim w value n = .ok w') :
    (n = 0 ∧ w' = w) ∨
    (0 < n ∧ n < w.free ∧ w' = mergeBits w (lowBits value n) n) ∨
    (0 < n ∧ w.free ≤ n ∧ ∃ c, roomStep lim w.pos w.cap = .ok c ∧
      w' = flushBits { w with cap := c } (lowBits value n) n) := by
  unfold emit at h
  split_ifs at h with h0 h1
  · cases h; exact .inl ⟨h0, rfl⟩
  · cases h; exact .inr (.inl ⟨by omega, h1, rfl⟩)
  · cases hr : roomStep lim w.pos w.cap with
    | error e => rw [ensureRoom_of_error hr] at h; cases h
    | ok c =>
      rw [ensureRoom_of_step hr] at h
      cases h
      exact .inr (.inr ⟨by omega, by omega, c, rfl, rfl⟩)

/-- The only fault of `emit` is `BufferExhausted`, in its second branch (R64). -/
theorem emit_error {lim value n : Nat} {w : Writer} {e : FaultCode} (h : emit lim w value n = .error e) :
    e = .bufferExhausted ∧ w.free ≤ n ∧ roomStep lim w.pos w.cap = .error .bufferExhausted := by
  unfold emit at h
  split_ifs at h with h0 h1
  cases hr : roomStep lim w.pos w.cap with
  | ok c => rw [ensureRoom_of_step hr] at h; cases h
  | error e' =>
    have he := (roomStep_error hr).1
    subst he
    rw [ensureRoom_of_error hr] at h
    cases h
    exact ⟨rfl, by omega, rfl⟩

theorem emit_zero (lim value : Nat) (w : Writer) : emit lim w value 0 = .ok w := rfl

theorem emit_merge {lim value n : Nat} {w : Writer} (h0 : 0 < n) (h : n < w.free) :
    emit lim w value n = .ok (mergeBits w (lowBits value n) n) := by
  unfold emit; rw [if_neg (by omega), if_pos h]

theorem emit_flush {lim value n c : Nat} {w : Writer} (h0 : 0 < n) (h : w.free ≤ n)
    (hr : roomStep lim w.pos w.cap = .ok c) :
    emit lim w value n = .ok (flushBits { w with cap := c } (lowBits value n) n) := by
  unfold emit; rw [if_neg (by omega), if_neg (by omega), ensureRoom_of_step hr]; rfl

theorem emit_exhausted {lim value n : Nat} {w : Writer} {e : FaultCode} (h0 : 0 < n) (h : w.free ≤ n)
    (hr : roomStep lim w.pos w.cap = .error e) : emit lim w value n = .error e := by
  unfold emit; rw [if_neg (by omega), if_neg (by omega), ensureRoom_of_error hr]; rfl

/-- `emit` keeps the writer invariants (R16). -/
theorem emit_inv {lim value n : Nat} {w w' : Writer} (h : w.Inv lim) (h32 : n ≤ 32)
    (he : emit lim w value n = .ok w') : w'.Inv lim := by
  rcases emit_ok he with ⟨_, rfl⟩ | ⟨_, h1, rfl⟩ | ⟨_, h1, c, hr, rfl⟩
  · exact h
  · exact h.merge value h1
  · have hb := roomStep_bounds hr h.cap_ge h.pos_le h.cap_le
    exact (h.grown hr).flush value h1 h32 hb.1

/-- `emit` never lowers `cap`, and keeps every byte below the old cursor (R63: growth keeps `OUT[0..pos)`). -/
theorem emit_keeps {lim value n : Nat} {w w' : Writer} (h : w.Inv lim) (he : emit lim w value n = .ok w') :
    w.cap ≤ w'.cap ∧ w.pos ≤ w'.pos ∧ ∀ k, k < w.pos → w'.buf.read k = w.buf.read k := by
  rcases emit_ok he with ⟨_, rfl⟩ | ⟨_, _, rfl⟩ | ⟨_, _, c, hr, rfl⟩
  · exact ⟨le_refl _, le_refl _, fun _ _ => rfl⟩
  · exact ⟨le_refl _, le_refl _, fun _ _ => rfl⟩
  · have hb := roomStep_bounds hr h.cap_ge h.pos_le h.cap_le
    refine ⟨hb.2.1, by simp, ?_⟩
    intro k hk
    exact writeBytes_read_other 4 w.buf w.pos _ (by omega)

/-! ## Lists of fields -/

theorem emitFields_cons {lim : Nat} {w w'' : Writer} {f : Field} {fs : List Field}
    (h : emitFields lim w (f :: fs) = .ok w'') :
    ∃ w', emit lim w f.value f.width = .ok w' ∧ emitFields lim w' fs = .ok w'' := by
  unfold emitFields at h
  cases he : emit lim w f.value f.width with
  | error e => rw [he] at h; cases h
  | ok w' => rw [he] at h; exact ⟨w', rfl, h⟩

theorem emitFields_append (lim : Nat) : ∀ (fs gs : List Field) (w : Writer),
    emitFields lim w (fs ++ gs) =
      match emitFields lim w fs with
      | .ok w' => emitFields lim w' gs
      | .error e => .error e := by
  intro fs
  induction fs with
  | nil => intro gs w; rfl
  | cons f fs ih =>
    intro gs w
    simp only [List.cons_append, emitFields]
    cases emit lim w f.value f.width with
    | error e => rfl
    | ok w' => exact ih gs w'

theorem emitFields_inv {lim : Nat} : ∀ {fs : List Field} {w w' : Writer}, w.Inv lim → (∀ f ∈ fs, f.width ≤ 32) →
    emitFields lim w fs = .ok w' → w'.Inv lim := by
  intro fs
  induction fs with
  | nil => intro w w' h _ he; cases he; exact h
  | cons f fs ih =>
    intro w w' h hw he
    obtain ⟨u, h1, h2⟩ := emitFields_cons he
    exact ih (emit_inv h (hw f List.mem_cons_self) h1) (fun g hg => hw g (List.mem_cons_of_mem _ hg)) h2

theorem emitFields_keeps {lim : Nat} : ∀ {fs : List Field} {w w' : Writer}, w.Inv lim → (∀ f ∈ fs, f.width ≤ 32) →
    emitFields lim w fs = .ok w' →
    w.cap ≤ w'.cap ∧ w.pos ≤ w'.pos ∧ ∀ k, k < w.pos → w'.buf.read k = w.buf.read k := by
  intro fs
  induction fs with
  | nil => intro w w' _ _ he; cases he; exact ⟨le_refl _, le_refl _, fun _ _ => rfl⟩
  | cons f fs ih =>
    intro w w' h hw he
    obtain ⟨u, h1, h2⟩ := emitFields_cons he
    have hk := emit_keeps h h1
    have hk2 := ih (emit_inv h (hw f List.mem_cons_self) h1) (fun g hg => hw g (List.mem_cons_of_mem _ hg)) h2
    refine ⟨le_trans hk.1 hk2.1, le_trans hk.2.1 hk2.2.1, fun k hlt => ?_⟩
    rw [hk2.2.2 k (lt_of_lt_of_le hlt hk.2.1), hk.2.2 k hlt]

/-- The only fault a list of fields can raise while it is emitted (R64). -/
theorem emitFields_error {lim : Nat} : ∀ {fs : List Field} {w : Writer} {e : FaultCode},
    emitFields lim w fs = .error e → e = .bufferExhausted := by
  intro fs
  induction fs with
  | nil => intro w e h; cases h
  | cons f fs ih =>
    intro w e h
    unfold emitFields at h
    cases he : emit lim w f.value f.width with
    | error e' => rw [he] at h; cases h; exact (emit_error he).1
    | ok w' => rw [he] at h; exact ih h

theorem roomForWords_error {lim : Nat} : ∀ {words pos cap : Nat} {e : FaultCode},
    roomForWords lim words pos cap = .error e → e = .bufferExhausted := by
  intro words
  induction words with
  | zero => intro pos cap e h; cases h
  | succ n ih =>
    intro pos cap e h
    unfold roomForWords at h
    cases hr : roomStep lim pos cap with
    | error e' => rw [hr] at h; cases h; exact (roomStep_error hr).1
    | ok c => rw [hr] at h; exact ih h

/-- All that the end of an emission command can do when it completes (R115, R121). -/
theorem emitChecked_ok {lim bits : Nat} {w w' : Writer} {fs : List Field}
    (h : emitChecked lim w bits fs = .ok w') :
    (∀ f ∈ fs, f.width ≤ 32) ∧ roomCheck lim w bits = .ok () ∧ emitFields lim w fs = .ok w' := by
  unfold emitChecked maxWrite at h
  split_ifs at h with h1
  cases hr : roomCheck lim w bits with
  | error e => rw [hr] at h; cases h
  | ok u =>
    rw [hr] at h
    refine ⟨?_, rfl, h⟩
    intro f hf
    by_contra hlt
    exact h1 (List.any_eq_true.mpr ⟨f, hf, decide_eq_true (by omega)⟩)

/-- The faults the end of an emission command can raise (R121 (3), (4)). -/
theorem emitChecked_error {lim bits : Nat} {w : Writer} {fs : List Field} {e : FaultCode}
    (h : emitChecked lim w bits fs = .error e) : e = .bitstreamOverflow ∨ e = .bufferExhausted := by
  unfold emitChecked at h
  split_ifs at h with h1
  · cases h; exact .inl rfl
  · cases hr : roomCheck lim w bits with
    | error e' => rw [hr] at h; cases h; exact .inr (roomForWords_error hr)
    | ok u => rw [hr] at h; exact .inr (emitFields_error h)

/-! ## `BYTE_ALIGN` -/

/-- All that a completed `BYTE_ALIGN` can do to the writer (R67). -/
theorem alignWriter_ok {lim : Nat} {w w' : Writer} (h : alignWriter lim w = .ok w') :
    (pendingBytes w = 0 ∧ w' = { w with cache := 0, free := 32 }) ∨
    (0 < pendingBytes w ∧ ∃ c, roomStep lim w.pos w.cap = .ok c ∧ w' = flushPending { w with cap := c }) := by
  unfold alignWriter at h
  split_ifs at h with h0
  · cases h; exact .inl ⟨h0, rfl⟩
  · cases hr : roomStep lim w.pos w.cap with
    | error e => rw [ensureRoom_of_error hr] at h; cases h
    | ok c => rw [ensureRoom_of_step hr] at h; cases h; exact .inr ⟨by omega, c, rfl, rfl⟩

theorem alignWriter_error {lim : Nat} {w : Writer} {e : FaultCode} (h : alignWriter lim w = .error e) :
    e = .bufferExhausted ∧ 0 < pendingBytes w ∧ roomStep lim w.pos w.cap = .error .bufferExhausted := by
  unfold alignWriter at h
  split_ifs at h with h0
  cases hr : roomStep lim w.pos w.cap with
  | ok c => rw [ensureRoom_of_step hr] at h; cases h
  | error e' =>
    have he := (roomStep_error hr).1
    subst he
    rw [ensureRoom_of_error hr] at h
    cases h
    exact ⟨rfl, by omega, rfl⟩

theorem alignWriter_inv {lim : Nat} {w w' : Writer} (h : w.Inv lim) (ha : alignWriter lim w = .ok w') :
    w'.Inv lim := by
  rcases alignWriter_ok ha with ⟨_, rfl⟩ | ⟨_, c, hr, rfl⟩
  · exact ⟨(by decide : 1 ≤ 32), (by decide : 32 ≤ 32), rfl, h.pos_le, h.cap_ge, h.cap_le, h.buf_addresses⟩
  · exact (h.grown hr).flushPending (roomStep_bounds hr h.cap_ge h.pos_le h.cap_le).1

theorem alignWriter_keeps {lim : Nat} {w w' : Writer} (h : w.Inv lim) (ha : alignWriter lim w = .ok w') :
    w.cap ≤ w'.cap ∧ w.pos ≤ w'.pos ∧ ∀ k, k < w.pos → w'.buf.read k = w.buf.read k := by
  rcases alignWriter_ok ha with ⟨_, rfl⟩ | ⟨_, c, hr, rfl⟩
  · exact ⟨le_refl _, le_refl _, fun _ _ => rfl⟩
  · refine ⟨(roomStep_bounds hr h.cap_ge h.pos_le h.cap_le).2.1, by simp, ?_⟩
    intro k hk
    exact writeBytes_read_other _ w.buf w.pos _ (by omega)

end Sys2Proof.Machine
end

