-- ==== Sys2Proof/Laws/Command.lean ====
section
/-! SUPPORT. The frame of R142 that every command runs in, said once: what it answers in each of its cases, and what every
rule keeps. The statements about single commands cite these and never unfold `runCommand`. -/

namespace Sys2Proof.Machine

variable {k : CommandKind} {rule : State → Except FaultCode State} {s t : State}

/-- A command always answers a next state: the block never stops (R144, R168). -/
theorem runCommand_next (k : CommandKind) (rule : State → Except FaultCode State) (s : State) :
    ∃ t, runCommand k rule s = .next t := by
  unfold runCommand
  split_ifs
  · exact ⟨_, rfl⟩
  · exact ⟨_, rfl⟩
  · split <;> exact ⟨_, rfl⟩

/-- Not initialised (R139). -/
theorem runCommand_notInitialised (h1 : k.needsInit = true) (h2 : s.status.init = false) :
    runCommand k rule s = .next (raiseFault .notInitialised true s) := by
  unfold runCommand; rw [if_pos ⟨h1, h2⟩]

/-- Refused while a fault is latched (R142). -/
theorem runCommand_refused (h1 : k.refusedOnFault = true) (h2 : s.status.init = true)
    (h3 : s.status.fault ≠ .none) : runCommand k rule s = .next { s with status := s.status.refuse } := by
  unfold runCommand; rw [if_neg (by simp [h2]), if_pos ⟨h1, h3⟩]

/-- The conditions under which the entry checks let a command's rule run (R142). -/
def CommandKind.Accepts (k : CommandKind) (s : State) : Prop :=
  (k.needsInit = true → s.status.init = true) ∧ (k.refusedOnFault = true → s.status.fault = .none)

theorem State.Ready.accepts (h : s.Ready) (k : CommandKind) : k.Accepts s := ⟨fun _ => h.1, fun _ => h.2⟩

theorem runCommand_accepted (h : k.Accepts s) :
    runCommand k rule s = match rule s with
      | .ok s' => .next { s' with status := s'.status.complete }
      | .error c => .next (raiseFault c (k.latches c) s) := by
  have h1 : ¬(k.needsInit = true ∧ s.status.init = false) := by
    rintro ⟨h1, h2⟩; rw [h.1 h1] at h2; cases h2
  have h2 : ¬(k.refusedOnFault = true ∧ s.status.fault ≠ .none) := by
    rintro ⟨h1, h2⟩; exact h2 (h.2 h1)
  unfold runCommand
  cases rule s <;> exact (if_neg h1).trans (if_neg h2)

theorem runCommand_ok (h : k.Accepts s) {s' : State} (hr : rule s = .ok s') :
    runCommand k rule s = .next { s' with status := s'.status.complete } := by
  rw [runCommand_accepted h, hr]

theorem runCommand_error (h : k.Accepts s) {c : FaultCode} (hr : rule s = .error c) :
    runCommand k rule s = .next (raiseFault c (k.latches c) s) := by
  rw [runCommand_accepted h, hr]

/-- Everything a command can do (R142): not initialised, refused, faulted, or completed by its rule. -/
theorem runCommand_cases (h : runCommand k rule s = .next t) :
    (k.needsInit = true ∧ s.status.init = false ∧ t = raiseFault .notInitialised true s) ∨
    (k.refusedOnFault = true ∧ s.status.init = true ∧ s.status.fault ≠ .none ∧
      t = { s with status := s.status.refuse }) ∨
    (k.Accepts s ∧ ∃ c, rule s = .error c ∧ t = raiseFault c (k.latches c) s) ∨
    (k.Accepts s ∧ ∃ s', rule s = .ok s' ∧ t = { s' with status := s'.status.complete }) := by
  by_cases h1 : k.needsInit = true ∧ s.status.init = false
  · rw [runCommand_notInitialised h1.1 h1.2] at h
    exact .inl ⟨h1.1, h1.2, by cases h; rfl⟩
  · have hi : k.needsInit = true → s.status.init = true := by
      intro hk
      cases hs : s.status.init with
      | true => rfl
      | false => exact absurd ⟨hk, hs⟩ h1
    by_cases h2 : k.refusedOnFault = true ∧ s.status.fault ≠ .none
    · have hin : s.status.init = true := by
        apply hi
        cases k <;> first | rfl | exact absurd h2.1 (by decide)
      rw [runCommand_refused h2.1 hin h2.2] at h
      exact .inr (.inl ⟨h2.1, hin, h2.2, by cases h; rfl⟩)
    · have ha : k.Accepts s := ⟨hi, fun hk => by by_contra hf; exact h2 ⟨hk, hf⟩⟩
      cases hr : rule s with
      | error c =>
        rw [runCommand_error ha hr] at h
        exact .inr (.inr (.inl ⟨ha, c, rfl, by cases h; rfl⟩))
      | ok s' =>
        rw [runCommand_ok ha hr] at h
        exact .inr (.inr (.inr ⟨ha, s', rfl, by cases h; rfl⟩))

/-- A command that reports no fault completed by its rule. -/
theorem runCommand_completed (h : runCommand k rule s = .next t) (hl : t.status.last = .none)
    (hne : ∀ c, rule s = .error c → c ≠ .none) :
    k.Accepts s ∧ ∃ s', rule s = .ok s' ∧ t = { s' with status := s'.status.complete } := by
  rcases runCommand_cases h with ⟨_, _, rfl⟩ | ⟨_, _, hf, rfl⟩ | ⟨_, c, hr, rfl⟩ | h
  · cases hl
  · exact absurd hl hf
  · exact absurd hl (hne c hr)
  · exact h

/-- The status of a ready state that has completed a command. -/
theorem State.Ready.complete (h : s.Ready) : s.status.complete = ⟨true, .none, .none⟩ := by
  obtain ⟨h1, h2⟩ := h
  rcases hs : s.status with ⟨i, f, l⟩
  rw [hs] at h1 h2
  cases h1; cases h2
  rfl

/-- The status of a ready state that has raised a fault that latches. -/
theorem State.Ready.raise (h : s.Ready) (c : FaultCode) : s.status.raise c true = ⟨true, c, c⟩ := by
  obtain ⟨h1, h2⟩ := h
  rcases hs : s.status with ⟨i, f, l⟩
  rw [hs] at h1 h2
  cases h1; cases h2
  rfl

/-- The status of a ready state that has raised a fault that does not latch. -/
theorem State.Ready.raise_unlatched (h : s.Ready) (c : FaultCode) : s.status.raise c false = ⟨true, .none, c⟩ := by
  obtain ⟨h1, h2⟩ := h
  rcases hs : s.status with ⟨i, f, l⟩
  rw [hs] at h1 h2
  cases h1; cases h2
  rfl

/-- A rule that completes on a ready state and leaves `STATUS` alone: `LAST` is 0, nothing else is added. -/
theorem runCommand_ready_ok (h : s.Ready) {s' : State} (hr : rule s = .ok s') (hs : s'.status = s.status) :
    runCommand k rule s = .next (s'.withLast .none) := by
  rw [runCommand_ok (h.accepts k) hr]
  unfold State.withLast Status.complete
  rw [hs]

/-- A rule that faults on a ready state with a code that latches. -/
theorem runCommand_ready_error (h : s.Ready) {c : FaultCode} (hr : rule s = .error c) (hl : k.latches c = true) :
    runCommand k rule s = .next (s.withFault c) := by
  rw [runCommand_error (h.accepts k) hr, hl]
  unfold raiseFault State.withFault
  rw [h.raise, h.1, h.2]
  rfl

/-- A query that reports a range violation on a ready state: `LAST` only. -/
theorem runCommand_ready_retry (h : s.Ready) (hr : rule s = .error .encodingRangeViolation) :
    runCommand .query rule s = .next (s.withLast .encodingRangeViolation) := by
  rw [runCommand_error (h.accepts _) hr]
  unfold raiseFault State.withLast
  rw [show CommandKind.query.latches .encodingRangeViolation = false from rfl, h.raise_unlatched, h.1, h.2]

end Sys2Proof.Machine
end

