-- ==== Sys2Proof/Laws/Huffman.lean ====
section
/-! SUPPORT. The coding functions on a well-formed ROM: when a pair or a quadruple can be coded, what it costs, which bits
its fields spell; counts over ranges; the choice of a table. Each function is said once in the terms of Safety.lean. -/

namespace Sys2Proof.Machine

/-! ## What a well-formed ROM gives an entry -/

/-- A pair table's arrays have the size of the index space (R83). -/
theorem wellFormed_pair_sizes {ht : Rom} (h : ht.WellFormed) {t : Nat} (h32 : t < 32) :
    (ht.table t).codes.length = (ht.table t).xlen * (ht.table t).ylen ∧
      (ht.table t).lengths.length = (ht.table t).xlen * (ht.table t).ylen :=
  h.2.1.1 t h32

/-- A count1 table has 16 entries (R83). -/
theorem wellFormed_quad_sizes {ht : Rom} (h : ht.WellFormed) {sel : Nat} (h1 : sel ≤ 1) :
    (ht.table (32 + sel)).codes.length = 16 ∧ (ht.table (32 + sel)).lengths.length = 16 :=
  h.2.1.2 (32 + sel) (by omega) (by omega)

/-- An escape table is 16 by 16 and its extension field carries `linmax` (R86). -/
theorem wellFormed_escape {ht : Rom} (h : ht.WellFormed) {t : Nat} (h16 : 15 < t) (h32 : t < 32) :
    (ht.table t).xlen = 16 ∧ (ht.table t).ylen = 16 ∧ (ht.table t).linmax < 2 ^ (ht.table t).linbits := by
  obtain ⟨h1, h2, h3⟩ := h.2.2.2.2 t h32 h16
  exact ⟨h1, h2, by have : 0 < 2 ^ (ht.table t).linbits := by positivity
                    omega⟩

theorem getD_mem_or_zero (l : List Nat) (i : Nat) : l.getD i 0 ∈ l ∨ l.getD i 0 = 0 := by
  rw [List.getD_eq_getElem?_getD]
  cases h : l[i]? with
  | none => exact .inr rfl
  | some v => exact .inl (List.mem_of_getElem? h)

/-- The widths of R84: a code with two signs in tables up to 15, a code and an extension field above, a count1 code. -/
theorem wellFormed_widths {ht : Rom} (h : ht.WellFormed) {t : Nat} (h34 : t < 34) (idx : Nat) :
    (t ≤ 15 → (ht.table t).lengths.getD idx 0 + 2 ≤ 32) ∧ (15 < t → (ht.table t).lengths.getD idx 0 ≤ 32) ∧
      (15 < t → t < 32 → 2 * (ht.table t).linbits + 2 ≤ 32) := by
  obtain ⟨h1, h2, h3, _⟩ := h.2.2.1
  refine ⟨fun h15 => ?_, fun h15 => ?_, fun h15 h32 => h3 t h32 h15⟩
  · rcases getD_mem_or_zero (ht.table t).lengths idx with hm | h0
    · exact h1 t (by omega) _ hm
    · omega
  · rcases getD_mem_or_zero (ht.table t).lengths idx with hm | h0
    · exact h2 t h34 h15 _ hm
    · omega

/-- Every code of an entry fits its length, and the length is not zero (R84). -/
theorem wellFormed_code {ht : Rom} (h : ht.WellFormed) {t : Nat} (h34 : t < 34) {idx : Nat}
    (hc : idx < (ht.table t).codes.length) (hl : idx < (ht.table t).lengths.length) :
    1 ≤ (ht.table t).lengths.getD idx 0 ∧
      (ht.table t).codes.getD idx 0 < 2 ^ (ht.table t).lengths.getD idx 0 := by
  have hfit := h.2.2.1.2.2.2 t h34
  have hm : ((ht.table t).codes[idx], (ht.table t).lengths[idx]) ∈ (ht.table t).words := by
    unfold Table.words
    rw [List.mem_iff_getElem]
    exact ⟨idx, by simp; omega, by simp⟩
  rw [List.getD_eq_getElem _ _ hc, List.getD_eq_getElem _ _ hl]
  exact hfit _ hm

/-! ## Magnitudes -/

theorem escaped_iff (t a : Nat) : escaped t a = true ↔ 15 < t ∧ 14 < a := by
  unfold escaped escapeThreshold
  rw [decide_eq_true_iff]
  omega

theorem beyondLinmax_iff (h : Table) (t a : Nat) : beyondLinmax h t a = true ↔ (15 < t ∧ 14 < a) ∧ h.linmax < a - 15 := by
  unfold beyondLinmax escapeThreshold
  rw [Bool.and_eq_true, escaped_iff, decide_eq_true_iff]

theorem clampMag_eq (t a : Nat) : clampMag t a = if 15 < t ∧ 14 < a then 15 else a := by
  unfold clampMag
  by_cases h : 15 < t ∧ 14 < a
  · rw [if_pos ((escaped_iff t a).mpr h), if_pos h]; rfl
  · rw [if_neg (by rw [escaped_iff]; exact h), if_neg h]

theorem extensionBits_eq (h : Table) (t a : Nat) : extensionBits h t a = if 15 < t ∧ 14 < a then h.linbits else 0 := by
  unfold extensionBits
  by_cases hc : 15 < t ∧ 14 < a
  · rw [if_pos ((escaped_iff t a).mpr hc), if_pos hc]
  · rw [if_neg (by rw [escaped_iff]; exact hc), if_neg hc]

theorem nonzeroMag_natAbs (n : Int) : nonzeroMag n.natAbs = if n = 0 then 0 else 1 := by
  unfold nonzeroMag
  by_cases h : n = 0 <;> simp [h]

theorem nonzeroBit_eq (n : Int) : nonzeroBit n = if n = 0 then 0 else 1 := by
  unfold nonzeroBit
  by_cases h : n = 0 <;> simp [h]

/-! ## Pairs -/

/-- The clamped magnitudes are legal indices exactly when the pair is representable (R86, R87, R100). -/
theorem representable_iff {ht : Rom} (hw : ht.WellFormed) {t : Nat} (h32 : t < 32) (x y : Int) :
    Representable (ht.table t) t x y ↔
      (beyondLinmax (ht.table t) t (magnitude x) || beyondLinmax (ht.table t) t (magnitude y)) = false ∧
        clampMag t (magnitude x) < (ht.table t).xlen ∧ clampMag t (magnitude y) < (ht.table t).ylen := by
  rw [← Bool.not_eq_true, Bool.or_eq_true, beyondLinmax_iff, beyondLinmax_iff]
  unfold Representable magnitude
  simp only [clampMag_eq]
  by_cases h15 : 15 < t
  · obtain ⟨h1, h2, _⟩ := wellFormed_escape hw h15 h32
    simp only [h15, true_and, if_true, h1, h2]
    constructor
    · rintro ⟨hx, hy⟩
      refine ⟨by omega, ?_, ?_⟩ <;> split_ifs <;> omega
    · rintro ⟨h3, _, _⟩
      omega
  · simp [h15]

/-- The array index of a representable pair is inside the arrays (R83). -/
theorem pairIndex_lt {h : Table} {t ax ay : Nat} (hx : clampMag t ax < h.xlen) (hy : clampMag t ay < h.ylen) :
    pairIndex h t ax ay < h.xlen * h.ylen := by
  unfold pairIndex
  calc clampMag t ax * h.ylen + clampMag t ay < clampMag t ax * h.ylen + h.ylen := by omega
    _ = (clampMag t ax + 1) * h.ylen := by ring
    _ ≤ h.xlen * h.ylen := Nat.mul_le_mul_right _ hx

theorem pairCost_eq (h : Table) (t : Nat) (x y : Int) : pairCost h t x y =
    h.lengths.getD (pairIndex h t x.natAbs y.natAbs) 0 + extensionBits h t x.natAbs + extensionBits h t y.natAbs +
      (if x = 0 then 0 else 1) + (if y = 0 then 0 else 1) := by
  unfold pairCost pairIndex
  simp only [extensionBits_eq, clampMag_eq]
  by_cases h15 : 15 < t <;> simp [h15]

/-- All that `pair_bits` answers on a well-formed ROM: the cost of a representable pair, else
`EncodingRangeViolation` (R100). -/
theorem pairBits_eq {ht : Rom} (hw : ht.WellFormed) {t : Nat} (h32 : t < 32) (x y : Int) :
    (Representable (ht.table t) t x y →
      pairBits (ht.table t) t (magnitude x) (magnitude y) = .ok (pairCost (ht.table t) t x y)) ∧
    (¬ Representable (ht.table t) t x y →
      pairBits (ht.table t) t (magnitude x) (magnitude y) = .error .encodingRangeViolation) := by
  rw [representable_iff hw h32]
  unfold pairBits
  constructor
  · rintro ⟨h1, h2, h3⟩
    have hs := wellFormed_pair_sizes hw h32
    have hi := pairIndex_lt h2 h3
    have ho : outsideArrays (ht.table t) (pairIndex (ht.table t) t (magnitude x) (magnitude y)) = false := by
      unfold outsideArrays; rw [hs.1, hs.2]; simpa using hi
    rw [if_neg (by rw [h1]; exact Bool.false_ne_true), if_neg (by omega), if_neg (by rw [ho]; exact Bool.false_ne_true)]
    rw [pairCost_eq]
    simp only [magnitude, nonzeroMag_natAbs]
  · intro h
    by_cases h1 : (beyondLinmax (ht.table t) t (magnitude x) || beyondLinmax (ht.table t) t (magnitude y)) = true
    · rw [if_pos h1]
    · rw [if_neg h1, if_pos]
      by_contra h2
      exact h ⟨by simpa using h1, by omega, by omega⟩

/-! ## Fields -/

theorem withSign_width (f : Field) (n : Int) : (f.withSign n).width = f.width + if n = 0 then 0 else 1 := by
  unfold Field.withSign
  by_cases h : n = 0 <;> simp [h]

/-- A sign shifted in is one more bit (R53, R56). -/
theorem withSign_bits (f : Field) (n : Int) : (f.withSign n).bits = f.bits ++ signBits n := by
  unfold Field.withSign signBits Field.bits
  by_cases h : n = 0
  · simp [h]
  · have hs : signBit n < 2 ^ 1 := by unfold signBit; split_ifs <;> norm_num
    rw [if_pos h, if_neg h]
    have := bitsN_mul_add f.value (signBit n) f.width 1 hs
    rw [Nat.pow_one] at this
    rw [this]
    congr 1
    unfold signBit
    by_cases hn : n < 0 <;> simp [hn, bitsN]

theorem withExtension_width (f : Field) (h : Table) (t a : Nat) :
    (f.withExtension h t a).width = f.width + extensionBits h t a := by
  unfold Field.withExtension extensionBits
  split_ifs <;> simp

/-- An extension shifted in is `linbits` more bits (R54). -/
theorem withExtension_bits (f : Field) {h : Table} {t a : Nat} (ht : 15 < t) (hfit : a - 15 < 2 ^ h.linbits) :
    (f.withExtension h t a).bits = f.bits ++ escapeBits h a := by
  unfold Field.withExtension escapeBits Field.bits
  by_cases ha : 14 < a
  · rw [if_pos ((escaped_iff t a).mpr ⟨ht, ha⟩), if_pos ha]
    exact bitsN_mul_add _ _ _ _ hfit
  · rw [if_neg (by rw [escaped_iff]; omega), if_neg ha, List.append_nil]

/-- The fields of a pair spell its layout (R53, R54, R118, R119). -/
theorem pairFields_bits {ht : Rom} (hw : ht.WellFormed) {t : Nat} (h32 : t < 32) {x y : Int}
    (hr : Representable (ht.table t) t x y) :
    fieldsBits (pairFields (ht.table t) t x y) = pairLayout (ht.table t) t x y := by
  unfold pairFields pairLayout
  by_cases h15 : 15 < t
  · obtain ⟨_, _, hl⟩ := wellFormed_escape hw h15 h32
    unfold Representable at hr
    rw [if_pos h15] at hr
    rw [if_pos h15, if_pos h15]
    simp only [fieldsBits_cons, fieldsBits_nil, List.append_nil, extensionField, withSign_bits]
    rw [withExtension_bits _ h15 (by unfold magnitude; omega), withSign_bits,
      withExtension_bits _ h15 (by unfold magnitude; omega)]
    simp only [pairIndex, clampMag_eq, magnitude, h15, true_and, codeField, codeBits, Field.bits, bitsN,
      List.nil_append, List.append_assoc]
  · rw [if_neg h15, if_neg h15]
    simp only [fieldsBits_cons, fieldsBits_nil, List.append_nil, withSign_bits]
    simp only [pairIndex, clampMag_eq, magnitude, h15, false_and, if_false, codeField, codeBits, Field.bits]

/-- The widths of a pair's fields add up to its cost (R103). -/
theorem pairFields_totalWidth (h : Table) (t : Nat) (x y : Int) : totalWidth (pairFields h t x y) = pairCost h t x y := by
  rw [pairCost_eq]
  unfold pairFields
  by_cases h15 : 15 < t
  · rw [if_pos h15]
    simp only [totalWidth, codeField, extensionField, withSign_width, withExtension_width, magnitude]
    omega
  · rw [if_neg h15]
    simp only [totalWidth, withSign_width, codeField, magnitude, extensionBits_eq, h15, false_and, if_false]
    omega

/-- No field of a pair is wider than 32 bits on a well-formed ROM (R84). -/
theorem pairFields_width {ht : Rom} (hw : ht.WellFormed) {t : Nat} (h32 : t < 32) (x y : Int) :
    ∀ f ∈ pairFields (ht.table t) t x y, f.width ≤ 32 := by
  have hwd := wellFormed_widths hw (t := t) (by omega) (pairIndex (ht.table t) t (magnitude x) (magnitude y))
  unfold pairFields
  by_cases h15 : 15 < t
  · rw [if_pos h15]
    have h3 := hwd.2.2 h15 h32
    intro f hf
    simp only [List.mem_cons, List.not_mem_nil, or_false] at hf
    rcases hf with rfl | rfl
    · exact hwd.2.1 h15
    · simp only [extensionField, withSign_width, withExtension_width, extensionBits_eq]
      split_ifs <;> omega
  · rw [if_neg h15]
    have h3 := hwd.1 (by omega)
    intro f hf
    simp only [List.mem_cons, List.not_mem_nil, or_false] at hf
    subst hf
    simp only [withSign_width, codeField]
    split_ifs <;> omega

theorem pairLayout_length {ht : Rom} (hw : ht.WellFormed) {t : Nat} (h32 : t < 32) {x y : Int}
    (hr : Representable (ht.table t) t x y) :
    (pairLayout (ht.table t) t x y).length = pairCost (ht.table t) t x y := by
  rw [← pairFields_bits hw h32 hr, fieldsBits_length, pairFields_totalWidth]

/-! ## Quadruples -/

theorem quadInRange_iff (v w x y : Int) : quadInRange v w x y = true ↔ QuadRepresentable v w x y := by
  unfold quadInRange QuadRepresentable magnitude
  exact decide_eq_true_iff

theorem quadPattern_lt (v w x y : Int) : quadPattern v w x y < 16 := by
  unfold quadPattern
  simp only [nonzeroBit_eq]
  split_ifs <;> omega

theorem quadPattern_eq (v w x y : Int) : quadPattern v w x y =
    (if v = 0 then 0 else 1) + (if w = 0 then 0 else 2) + (if x = 0 then 0 else 4) + (if y = 0 then 0 else 8) := by
  unfold quadPattern
  simp only [nonzeroBit_eq]
  split_ifs <;> rfl

/-- All that `quad_index` answers on a well-formed ROM (R104). -/
theorem quadIndex_eq {ht : Rom} (hw : ht.WellFormed) {sel : Nat} (h1 : sel ≤ 1) (v w x y : Int) :
    (QuadRepresentable v w x y → quadIndex (ht.table (32 + sel)) v w x y = .ok (quadPattern v w x y)) ∧
    (¬ QuadRepresentable v w x y → quadIndex (ht.table (32 + sel)) v w x y = .error .encodingRangeViolation) := by
  have hs := wellFormed_quad_sizes hw h1
  have hp := quadPattern_lt v w x y
  unfold quadIndex
  constructor
  · intro h
    rw [if_neg (by rw [(quadInRange_iff v w x y).mpr h]; exact Bool.noConfusion), if_neg]
    unfold outsideArrays
    rw [hs.1, hs.2]
    simpa using hp
  · intro h
    rw [if_pos]
    rw [← Bool.not_eq_true, quadInRange_iff]
    exact h

theorem quadCost_eq (h : Table) (v w x y : Int) :
    quadCost h v w x y = h.lengths.getD (quadPattern v w x y) 0 + quadSigns v w x y := by
  unfold quadCost quadSigns
  rw [quadPattern_eq]
  simp only [nonzeroBit_eq]
  omega

/-- All that `quad_bits` answers on a well-formed ROM (R105). -/
theorem quadBits_eq {ht : Rom} (hw : ht.WellFormed) {sel : Nat} (h1 : sel ≤ 1) (v w x y : Int) :
    (QuadRepresentable v w x y →
      quadBits (ht.table (32 + sel)) v w x y = .ok (quadCost (ht.table (32 + sel)) v w x y)) ∧
    (¬ QuadRepresentable v w x y → quadBits (ht.table (32 + sel)) v w x y = .error .encodingRangeViolation) := by
  obtain ⟨h2, h3⟩ := quadIndex_eq hw h1 v w x y
  unfold quadBits
  exact ⟨fun h => by rw [h2 h, quadCost_eq]; rfl, fun h => by rw [h3 h]; rfl⟩

/-- The two fields of a quadruple (R123). -/
def quadFieldList (h : Table) (v w x y : Int) : List Field := [codeField h (quadPattern v w x y), signsField v w x y]

/-- All that `quad_fields` answers on a well-formed ROM (R123). -/
theorem quadFields_eq {ht : Rom} (hw : ht.WellFormed) {sel : Nat} (h1 : sel ≤ 1) (v w x y : Int) :
    (QuadRepresentable v w x y →
      quadFields (ht.table (32 + sel)) v w x y = .ok (quadFieldList (ht.table (32 + sel)) v w x y)) ∧
    (¬ QuadRepresentable v w x y → quadFields (ht.table (32 + sel)) v w x y = .error .encodingRangeViolation) := by
  obtain ⟨h2, h3⟩ := quadIndex_eq hw h1 v w x y
  unfold quadFields
  exact ⟨fun h => by rw [h2 h]; rfl, fun h => by rw [h3 h]; rfl⟩

/-- The fields of a quadruple spell its layout (R55). -/
theorem quadFieldList_bits (h : Table) (v w x y : Int) : fieldsBits (quadFieldList h v w x y) = quadLayout h v w x y := by
  unfold quadFieldList quadLayout signsField codeBits
  rw [fieldsBits_cons, fieldsBits_cons, fieldsBits_nil, List.append_nil, withSign_bits, withSign_bits, withSign_bits,
    withSign_bits, quadPattern_eq]
  simp only [codeField, Field.bits, bitsN, List.nil_append, List.append_assoc]

theorem signsField_width (v w x y : Int) : (signsField v w x y).width = quadSigns v w x y := by
  unfold signsField quadSigns
  simp only [withSign_width, nonzeroBit_eq]
  omega

/-- The widths of a quadruple's fields add up to its cost (R107). -/
theorem quadFieldList_totalWidth (h : Table) (v w x y : Int) :
    totalWidth (quadFieldList h v w x y) = quadCost h v w x y := by
  rw [quadCost_eq]
  simp only [quadFieldList, totalWidth, codeField, signsField_width]
  omega

/-- No field of a quadruple is wider than 32 bits on a well-formed ROM (R84). -/
theorem quadFieldList_width {ht : Rom} (hw : ht.WellFormed) {sel : Nat} (h1 : sel ≤ 1) (v w x y : Int) :
    ∀ f ∈ quadFieldList (ht.table (32 + sel)) v w x y, f.width ≤ 32 := by
  intro f hf
  simp only [quadFieldList, List.mem_cons, List.not_mem_nil, or_false] at hf
  rcases hf with rfl | rfl
  · exact (wellFormed_widths hw (by omega) _).2.1 (by omega)
  · rw [signsField_width]
    unfold quadSigns
    simp only [nonzeroBit_eq]
    split_ifs <;> omega

theorem quadLayout_length (h : Table) (v w x y : Int) : (quadLayout h v w x y).length = quadCost h v w x y := by
  rw [← quadFieldList_bits, fieldsBits_length, quadFieldList_totalWidth]

/-! ## Ranges -/

theorem checkRange_eq (b e : Nat) :
    (RangeOk b e → checkRange b e = .ok ()) ∧ (¬ RangeOk b e → checkRange b e = .error .invalidHuffmanIndex) := by
  unfold RangeOk checkRange granuleSize
  constructor
  · intro h; rw [if_neg (by omega)]
  · intro h; rw [if_pos (by omega)]

theorem le_maxAbs (ix : Nat → Int) : ∀ (n b i : Nat), b ≤ i → i < b + n → (ix i).natAbs ≤ maxAbs ix b n := by
  intro n
  induction n with
  | zero => intro b i h1 h2; omega
  | succ n ih =>
    intro b i h1 h2
    unfold maxAbs magnitude
    by_cases h : i = b
    · subst h; exact le_max_left _ _
    · exact le_trans (ih (b + 1) i (by omega) (by omega)) (le_max_right _ _)

theorem maxAbs_attained (ix : Nat → Int) : ∀ (n b : Nat), 0 < n →
    ∃ i, b ≤ i ∧ i < b + n ∧ (ix i).natAbs = maxAbs ix b n := by
  intro n
  induction n with
  | zero => intro b h; omega
  | succ n ih =>
    intro b _
    unfold maxAbs magnitude
    rcases Nat.eq_zero_or_pos n with rfl | hn
    · exact ⟨b, le_refl _, by omega, by simp [maxAbs]⟩
    · rcases max_cases (ix b).natAbs (maxAbs ix (b + 1) n) with ⟨h, _⟩ | ⟨h, _⟩
      · exact ⟨b, le_refl _, by omega, h.symm⟩
      · obtain ⟨i, h1, h2, h3⟩ := ih (b + 1) hn
        exact ⟨i, by omega, by omega, by rw [h3, h]⟩

/-- `max_abs` is the largest magnitude of the range (R101). -/
theorem maxAbs_eq {s : State} {b e m : Nat} (h : IsMaxAbs s b e m) : maxAbs (coefficient s) b (e - b) = m := by
  obtain ⟨h1, i, h2, h3, h4⟩ := h
  apply le_antisymm
  · obtain ⟨j, j1, j2, j3⟩ := maxAbs_attained (coefficient s) (e - b) b (by omega)
    rw [← j3]
    exact h1 j j1 (by omega)
  · rw [← h4]
    exact le_maxAbs _ _ _ _ h2 (by omega)

/-- All that the count over pairs answers on a well-formed ROM (R102). -/
theorem countPairs_eq {ht : Rom} (hw : ht.WellFormed) {t : Nat} (h32 : t < 32) (ix : Nat → Int) : ∀ (n i : Nat),
    ((∀ k, k < n → Representable (ht.table t) t (ix (i + 2 * k)) (ix (i + 2 * k + 1))) →
      countPairs (ht.table t) t ix i n =
        .ok ((List.range n).map fun k => pairCost (ht.table t) t (ix (i + 2 * k)) (ix (i + 2 * k + 1))).sum) ∧
    ((¬ ∀ k, k < n → Representable (ht.table t) t (ix (i + 2 * k)) (ix (i + 2 * k + 1))) →
      countPairs (ht.table t) t ix i n = .error .encodingRangeViolation) := by
  intro n
  induction n with
  | zero => exact fun i => ⟨fun _ => rfl, fun h => absurd (fun k hk => absurd hk (Nat.not_lt_zero k)) h⟩
  | succ n ih =>
    intro i
    obtain ⟨p1, p2⟩ := pairBits_eq hw h32 (ix i) (ix (i + 1))
    obtain ⟨q1, q2⟩ := ih (i + 2)
    have hshift : ∀ k, i + 2 + 2 * k = i + 2 * (k + 1) := fun k => by omega
    simp only [hshift] at q1 q2
    constructor
    · intro h
      rw [countPairs, p1 (by simpa using h 0 (by omega)), q1 fun k hk => h (k + 1) (by omega)]
      rw [List.range_succ_eq_map, List.map_cons, List.sum_cons, List.map_map]
      rfl
    · intro h
      rw [countPairs]
      by_cases h0 : Representable (ht.table t) t (ix i) (ix (i + 1))
      · rw [p1 h0, q2]
        · rfl
        · intro hall
          apply h
          intro k hk
          cases k with
          | zero => simpa using h0
          | succ k => exact hall k (by omega)
      · rw [p2 h0]

/-- All that `cb` answers on a well-formed ROM (R102). -/
theorem countRange_eq {s : State} (hw : s.params.ht.WellFormed) {t : Nat} (h32 : t < 32) (b e : Nat) :
    (t = 0 ∨ RangeRepresentable s b e t →
      countRange s.params.ht (coefficient s) b e t = .ok (rangeCost s b e t)) ∧
    (t ≠ 0 → ¬ RangeRepresentable s b e t →
      countRange s.params.ht (coefficient s) b e t = .error .encodingRangeViolation) := by
  obtain ⟨h1, h2⟩ := countPairs_eq hw h32 (coefficient s) ((e - b) / 2) b
  unfold countRange rangeCost
  constructor
  · intro h
    by_cases h0 : t = 0
    · rw [if_pos h0, if_pos h0]
    · rw [if_neg h0, if_neg h0]
      exact h1 (h.resolve_left h0)
  · intro h0 h
    rw [if_neg h0]
    exact h2 h

/-- All that the two sums of `COUNT1_BITS` answer on a well-formed ROM (R106). -/
theorem count1Sums_eq {ht : Rom} (hw : ht.WellFormed) (ix : Nat → Int) : ∀ (n i : Nat),
    ((∀ k, k < n →
        QuadRepresentable (ix (i + 4 * k)) (ix (i + 4 * k + 1)) (ix (i + 4 * k + 2)) (ix (i + 4 * k + 3))) →
      count1Sums ht ix i n =
        .ok (((List.range n).map fun k => quadCost (ht.table 32) (ix (i + 4 * k)) (ix (i + 4 * k + 1))
            (ix (i + 4 * k + 2)) (ix (i + 4 * k + 3))).sum,
          ((List.range n).map fun k => quadCost (ht.table 33) (ix (i + 4 * k)) (ix (i + 4 * k + 1))
            (ix (i + 4 * k + 2)) (ix (i + 4 * k + 3))).sum)) ∧
    ((¬ ∀ k, k < n →
        QuadRepresentable (ix (i + 4 * k)) (ix (i + 4 * k + 1)) (ix (i + 4 * k + 2)) (ix (i + 4 * k + 3))) →
      count1Sums ht ix i n = .error .encodingRangeViolation) := by
  intro n
  induction n with
  | zero => exact fun i => ⟨fun _ => rfl, fun h => absurd (fun k hk => absurd hk (Nat.not_lt_zero k)) h⟩
  | succ n ih =>
    intro i
    obtain ⟨p1, p2⟩ := quadBits_eq hw (sel := 0) (by omega) (ix i) (ix (i + 1)) (ix (i + 2)) (ix (i + 3))
    obtain ⟨r1, _⟩ := quadBits_eq hw (sel := 1) (by omega) (ix i) (ix (i + 1)) (ix (i + 2)) (ix (i + 3))
    obtain ⟨q1, q2⟩ := ih (i + 4)
    have hshift : ∀ k, i + 4 + 4 * k = i + 4 * (k + 1) := fun k => by omega
    simp only [hshift] at q1 q2
    simp only [Nat.add_zero] at p1 p2
    constructor
    · intro h
      have h0 := h 0 (by omega)
      simp only [Nat.mul_zero, Nat.add_zero] at h0
      rw [count1Sums, p1 h0, r1 h0, q1 fun k hk => h (k + 1) (by omega)]
      rw [List.range_succ_eq_map, List.map_cons, List.sum_cons, List.map_map, List.map_cons, List.sum_cons,
        List.map_map]
      rfl
    · intro h
      rw [count1Sums]
      by_cases h0 : QuadRepresentable (ix i) (ix (i + 1)) (ix (i + 2)) (ix (i + 3))
      · rw [p1 h0, r1 h0, q2]
        · rfl
        · intro hall
          apply h
          intro k hk
          cases k with
          | zero => simpa using h0
          | succ k => exact hall k (by omega)
      · rw [p2 h0]

/-! ## The choice of a table -/

/-- `leastTable` answers the least index of its range that meets the test. -/
theorem leastTable_eq_some {first count t : Nat} {test : Nat → Bool} (h1 : first ≤ t) (h2 : t < first + count)
    (h3 : test t = true) (h4 : ∀ u, first ≤ u → u < t → test u = false) : leastTable first count test = some t := by
  unfold leastTable
  rw [List.find?_range'_eq_some]
  exact ⟨h3, by simp; omega, fun u hu1 hu2 => by simpa using h4 u hu1 hu2⟩

theorem leastTable_eq_none {first count : Nat} {test : Nat → Bool}
    (h : ∀ u, first ≤ u → u < first + count → test u = false) : leastTable first count test = none := by
  unfold leastTable
  rw [List.find?_eq_none]
  intro u hu
  simp only [List.mem_range'_1] at hu
  simpa using h u hu.1 hu.2

/-- The running comparison keeps the candidate `TIE_NOESC` picks (R98), where every cost is known. -/
theorem keepBest_eq {tie : TieNoesc} {cost : Nat → Except FaultCode Nat} {value : Nat → Nat} :
    ∀ (alts : List Nat) (choice : Nat), (∀ a ∈ alts, cost a = .ok (value a)) → (choice :: alts).Pairwise (· < ·) →
      ∃ r, keepBest tie cost choice (value choice) alts = .ok r ∧ IsCheapest tie value (choice :: alts) r := by
  intro alts
  induction alts with
  | nil =>
    intro choice _ _
    refine ⟨choice, rfl, List.mem_singleton.mpr rfl, ?_⟩
    intro t ht
    rw [List.mem_singleton.mp ht]
    refine ⟨le_refl _, fun _ => ?_⟩
    cases tie <;> exact le_refl _
  | cons a alts ih =>
    intro choice hc hp
    have hca := hc a List.mem_cons_self
    have hlt : choice < a := List.rel_of_pairwise_cons hp List.mem_cons_self
    have hrest : ∀ b ∈ alts, cost b = .ok (value b) := fun b hb => hc b (List.mem_cons_of_mem _ hb)
    have hp2 : (a :: alts).Pairwise (· < ·) := (List.pairwise_cons.mp hp).2
    have hp3 : (choice :: alts).Pairwise (· < ·) :=
      List.pairwise_cons.mpr ⟨fun b hb => List.rel_of_pairwise_cons hp (List.mem_cons_of_mem _ hb),
        (List.pairwise_cons.mp hp2).2⟩
    rw [keepBest, hca]
    simp only
    by_cases hb : better tie (value a) (value choice) = true
    · rw [if_pos hb]
      obtain ⟨r, hr, hmem, hbest⟩ := ih a hrest hp2
      refine ⟨r, hr, List.mem_cons_of_mem _ hmem, ?_⟩
      intro t ht
      rcases List.mem_cons.mp ht with rfl | ht
      · have ha := hbest a List.mem_cons_self
        have har : a ≤ r := by
          rcases List.mem_cons.mp hmem with rfl | hm
          · exact le_refl _
          · exact le_of_lt (List.rel_of_pairwise_cons hp2 hm)
        cases tie with
        | later =>
          simp only [better, decide_eq_true_eq] at hb
          exact ⟨le_trans ha.1 hb, fun _ => by omega⟩
        | earlier =>
          simp only [better, decide_eq_true_eq] at hb
          exact ⟨by omega, fun he => by omega⟩
      · exact hbest t ht
    · rw [if_neg hb]
      obtain ⟨r, hr, hmem, hbest⟩ := ih choice hrest hp3
      refine ⟨r, hr, ?_, ?_⟩
      · rcases List.mem_cons.mp hmem with rfl | hm
        · exact List.mem_cons_self
        · exact List.mem_cons_of_mem _ (List.mem_cons_of_mem _ hm)
      · intro t ht
        rcases List.mem_cons.mp ht with rfl | ht
        · exact hbest _ List.mem_cons_self
        · rcases List.mem_cons.mp ht with rfl | ht
          · have hch := hbest choice List.mem_cons_self
            cases tie with
            | later =>
              simp only [better, decide_eq_true_eq] at hb
              exact ⟨by omega, fun he => by omega⟩
            | earlier =>
              simp only [better, decide_eq_true_eq] at hb
              refine ⟨by omega, fun he => ?_⟩
              have := hch.2 (by omega)
              omega
          · exact hbest t (List.mem_cons_of_mem _ ht)

theorem keepBest_error {tie : TieNoesc} {cost : Nat → Except FaultCode Nat} {c : FaultCode} :
    ∀ (alts : List Nat) (choice sum : Nat), (∀ a ∈ alts, (∃ v, cost a = .ok v) ∨ cost a = .error c) →
      (∃ a ∈ alts, cost a = .error c) → keepBest tie cost choice sum alts = .error c := by
  intro alts
  induction alts with
  | nil => rintro _ _ _ ⟨a, ha, _⟩; cases ha
  | cons a alts ih =>
    rintro choice sum hall ⟨b, hb, hbe⟩
    rw [keepBest]
    rcases hall a List.mem_cons_self with ⟨v, hv⟩ | he
    · rw [hv]
      have hb2 : ∃ b ∈ alts, cost b = .error c := by
        rcases List.mem_cons.mp hb with rfl | hb
        · rw [hbe] at hv; cases hv
        · exact ⟨b, hb, hbe⟩
      have hall2 := fun d hd => hall d (List.mem_cons_of_mem a hd)
      simp only
      split_ifs
      · exact ih _ _ hall2 hb2
      · exact ih _ _ hall2 hb2
    · rw [he]

/-- The substitution lists, as the first choice and its alternatives (R98). -/
theorem candidates_eq (choice : Nat) : candidates choice = choice :: alternatives choice := by
  unfold candidates alternatives
  split_ifs with h1 h2 h3 h4 h5
  · subst h1; rfl
  · subst h2; rfl
  · subst h3; rfl
  · subst h4; rfl
  · subst h5; rfl
  · split <;> simp_all

theorem candidates_rising (choice : Nat) : (candidates choice).Pairwise (· < ·) := by
  unfold candidates
  split_ifs <;> simp

theorem candidates_lt {choice t : Nat} (h : choice < 15) (ht : t ∈ candidates choice) : t < 16 := by
  unfold candidates at ht
  split_ifs at ht <;> simp at ht <;> omega

end Sys2Proof.Machine
end

