-- ==== Sys2Proof/Laws/Emission.lean ====
section
/-! SUPPORT. The granule: its register checks, the table of each pair, and the fields of the two regions, said once in the
terms of Safety.lean. -/

namespace Sys2Proof.Machine

/-- All that `gi_check` answers (R127): nothing exactly on registers that pass every check. -/
theorem granuleCheck_ok_iff (g : GranuleRegs) : granuleCheck g = .ok () ↔ GranuleOk g := by
  unfold granuleCheck GranuleOk bigValuesMax granuleSize
  constructor
  · intro h
    split_ifs at h with h1 h2 h3 h4 h5 h6
    omega
  · intro h
    rw [if_neg (by omega), if_neg (by omega), if_neg (by omega), if_neg (by omega), if_neg (by omega),
      if_neg (by omega)]

/-- The region of a pair, where the boundaries are in order (R126). -/
theorem regionTable_eq {g : GranuleRegs} (h : g.address1.toNat ≤ g.address2.toNat) (i : Nat) :
    regionTable g i = granuleTable g i := by
  unfold regionTable granuleTable
  split_ifs <;> first | rfl | omega

theorem granuleTable_lt {g : GranuleRegs} (h : GranuleOk g) (i : Nat) : granuleTable g i < 32 := by
  obtain ⟨_, _, _, _, _, _, _, h1, h2, h3, _⟩ := h
  unfold granuleTable
  split_ifs <;> omega

/-- The fields of the pair at index `i` (R126). -/
def granulePairFields (ht : Rom) (g : GranuleRegs) (ix : Nat → Int) (i : Nat) : List Field :=
  if granuleTable g i = 0 then []
  else pairFields (ht.table (granuleTable g i)) (granuleTable g i) (ix i) (ix (i + 1))

/-- The pair at index `i` can be emitted: table 0 takes any pair (R117, R126). -/
def GranulePairOk (ht : Rom) (g : GranuleRegs) (ix : Nat → Int) (i : Nat) : Prop :=
  granuleTable g i ≠ 0 → Representable (ht.table (granuleTable g i)) (granuleTable g i) (ix i) (ix (i + 1))

/-- All that one pair of the big-values region answers on a well-formed ROM (R126). -/
theorem regionPairFields_eq {ht : Rom} (hw : ht.WellFormed) {g : GranuleRegs} (hg : GranuleOk g) (ix : Nat → Int)
    (i : Nat) :
    (GranulePairOk ht g ix i →
      regionPairFields ht (regionTable g i) (ix i) (ix (i + 1)) = .ok (granulePairFields ht g ix i)) ∧
    (¬ GranulePairOk ht g ix i →
      regionPairFields ht (regionTable g i) (ix i) (ix (i + 1)) = .error .encodingRangeViolation) := by
  rw [regionTable_eq hg.2.2.1]
  obtain ⟨h1, h2⟩ := pairBits_eq hw (granuleTable_lt hg i) (ix i) (ix (i + 1))
  unfold regionPairFields GranulePairOk granulePairFields
  by_cases h0 : granuleTable g i = 0
  · simp [h0]
  · simp only [h0, if_false, ne_eq, not_false_eq_true, true_implies]
    exact ⟨fun h => by rw [h1 h]; rfl, fun h => by rw [h2 h]; rfl⟩

/-- All that the big-values region answers on a well-formed ROM (R126). -/
theorem bigValuesFields_eq {ht : Rom} (hw : ht.WellFormed) {g : GranuleRegs} (hg : GranuleOk g) (ix : Nat → Int) :
    ∀ (n i : Nat),
    ((∀ k, k < n → GranulePairOk ht g ix (i + 2 * k)) → bigValuesFields ht g ix i n =
      .ok ((List.range n).map fun k => granulePairFields ht g ix (i + 2 * k)).flatten) ∧
    ((¬ ∀ k, k < n → GranulePairOk ht g ix (i + 2 * k)) →
      bigValuesFields ht g ix i n = .error .encodingRangeViolation) := by
  intro n
  induction n with
  | zero => exact fun i => ⟨fun _ => rfl, fun h => absurd (fun k hk => absurd hk (Nat.not_lt_zero k)) h⟩
  | succ n ih =>
    intro i
    obtain ⟨p1, p2⟩ := regionPairFields_eq hw hg ix i
    obtain ⟨q1, q2⟩ := ih (i + 2)
    have hshift : ∀ k, i + 2 + 2 * k = i + 2 * (k + 1) := fun k => by omega
    simp only [hshift] at q1 q2
    constructor
    · intro h
      rw [bigValuesFields, p1 (h 0 (by omega)), q1 fun k hk => h (k + 1) (by omega)]
      rw [List.range_succ_eq_map, List.map_cons, List.flatten_cons, List.map_map]
      rfl
    · intro h
      rw [bigValuesFields]
      by_cases h0 : GranulePairOk ht g ix i
      · rw [p1 h0, q2]
        · rfl
        · intro hall
          apply h
          intro k hk
          cases k with
          | zero => exact h0
          | succ k => exact hall k (by omega)
      · rw [p2 h0]

/-- All that the count1 region answers on a well-formed ROM (R126). -/
theorem count1Fields_eq {ht : Rom} (hw : ht.WellFormed) {sel : Nat} (h1 : sel ≤ 1) (ix : Nat → Int) : ∀ (n i : Nat),
    ((∀ k, k < n →
        QuadRepresentable (ix (i + 4 * k)) (ix (i + 4 * k + 1)) (ix (i + 4 * k + 2)) (ix (i + 4 * k + 3))) →
      count1Fields (ht.table (32 + sel)) ix i n = .ok ((List.range n).map fun k => quadFieldList (ht.table (32 + sel))
        (ix (i + 4 * k)) (ix (i + 4 * k + 1)) (ix (i + 4 * k + 2)) (ix (i + 4 * k + 3))).flatten) ∧
    ((¬ ∀ k, k < n →
        QuadRepresentable (ix (i + 4 * k)) (ix (i + 4 * k + 1)) (ix (i + 4 * k + 2)) (ix (i + 4 * k + 3))) →
      count1Fields (ht.table (32 + sel)) ix i n = .error .encodingRangeViolation) := by
  intro n
  induction n with
  | zero => exact fun i => ⟨fun _ => rfl, fun h => absurd (fun k hk => absurd hk (Nat.not_lt_zero k)) h⟩
  | succ n ih =>
    intro i
    obtain ⟨p1, p2⟩ := quadFields_eq hw h1 (ix i) (ix (i + 1)) (ix (i + 2)) (ix (i + 3))
    obtain ⟨q1, q2⟩ := ih (i + 4)
    have hshift : ∀ k, i + 4 + 4 * k = i + 4 * (k + 1) := fun k => by omega
    simp only [hshift] at q1 q2
    constructor
    · intro h
      rw [count1Fields, p1 (h 0 (by omega)), q1 fun k hk => h (k + 1) (by omega)]
      rw [List.range_succ_eq_map, List.map_cons, List.flatten_cons, List.map_map]
      rfl
    · intro h
      rw [count1Fields]
      by_cases h0 : QuadRepresentable (ix i) (ix (i + 1)) (ix (i + 2)) (ix (i + 3))
      · rw [p1 h0, q2]
        · rfl
        · intro hall
          apply h
          intro k hk
          cases k with
          | zero => exact h0
          | succ k => exact hall k (by omega)
      · rw [p2 h0]

theorem fieldsBits_flatten (l : List (List Field)) : fieldsBits l.flatten = (l.map fieldsBits).flatten := by
  induction l with
  | nil => rfl
  | cons a l ih => rw [List.flatten_cons, fieldsBits_append, ih, List.map_cons, List.flatten_cons]

/-- All that the fields of a granule answer on a well-formed ROM, once the granule registers are checked (R126): fields
of at most 32 bits that spell the granule's layout, or `EncodingRangeViolation`. -/
theorem granuleFields_eq {s : State} (hw : s.params.ht.WellFormed) (hg : GranuleOk s.granule) :
    (GranuleRepresentable s → ∃ fields, granuleFields s.params.ht s.granule (coefficient s) = .ok fields ∧
      fieldsBits fields = granuleLayout s ∧ ∀ f ∈ fields, f.width ≤ 32) ∧
    (¬ GranuleRepresentable s →
      granuleFields s.params.ht s.granule (coefficient s) = .error .encodingRangeViolation) := by
  obtain ⟨p1, p2⟩ := bigValuesFields_eq hw hg (coefficient s) s.granule.bigValues.toNat 0
  obtain ⟨q1, q2⟩ := count1Fields_eq hw hg.2.2.2.2.2.2.2.2.2.2 (coefficient s) s.granule.count1.toNat
    (2 * s.granule.bigValues.toNat)
  simp only [Nat.zero_add] at p1 p2
  unfold granuleFields
  constructor
  · rintro ⟨hp, hq⟩
    have hp' : ∀ k, k < s.granule.bigValues.toNat → GranulePairOk s.params.ht s.granule (coefficient s) (2 * k) := hp
    rw [p1 hp', q1 hq]
    refine ⟨_, rfl, ?_, ?_⟩
    · rw [fieldsBits_append, fieldsBits_flatten, fieldsBits_flatten, List.map_map, List.map_map]
      unfold granuleLayout
      congr 2
      · apply List.map_congr_left
        intro k hk
        simp only [Function.comp_apply, granulePairFields, granulePairLayout]
        by_cases h0 : granuleTable s.granule (2 * k) = 0
        · rw [if_pos h0, if_pos h0]; rfl
        · rw [if_neg h0, if_neg h0]
          exact pairFields_bits hw (granuleTable_lt hg _) (hp' k (List.mem_range.mp hk) h0)
      · apply List.map_congr_left
        intro k _
        exact quadFieldList_bits _ _ _ _ _
    · intro f hf
      rcases List.mem_append.mp hf with hf | hf
      · obtain ⟨l, hl, hfl⟩ := List.mem_flatten.mp hf
        obtain ⟨k, _, rfl⟩ := List.mem_map.mp hl
        unfold granulePairFields at hfl
        split_ifs at hfl
        · cases hfl
        · exact pairFields_width hw (granuleTable_lt hg _) _ _ f hfl
      · obtain ⟨l, hl, hfl⟩ := List.mem_flatten.mp hf
        obtain ⟨k, _, rfl⟩ := List.mem_map.mp hl
        exact quadFieldList_width hw hg.2.2.2.2.2.2.2.2.2.2 _ _ _ _ f hfl
  · intro h
    by_cases hp : ∀ k, k < s.granule.bigValues.toNat → GranulePairOk s.params.ht s.granule (coefficient s) (2 * k)
    · rw [p1 hp, q2]
      · rfl
      · exact fun hq => h ⟨hp, hq⟩
    · rw [p2 hp]

end Sys2Proof.Machine
end

