-- ==== Sys2Proof/Laws/Frame.lean ====
section
/-! SUPPORT. All commands at once: each is its rule run in the frame of R142, a rule that completes changes the writer, `RES0`
and `RES1` only, and a rule that faults raises one of six codes. Statements over all commands start from these. -/

namespace Sys2Proof.Machine

/-- How a command stands to the entry checks and the latch rule (R141, R142). -/
def commandKind : Instr → CommandKind
  | .new => .initialise
  | .reset => .mutating
  | .writeBits _ => .mutating
  | .getBitsCount => .bitCount
  | .byteAlign => .mutating
  | .selectTable => .query
  | .countBits _ => .query
  | .count1Bits => .query
  | .encodePair _ => .mutating
  | .encodeQuad _ => .mutating
  | .encodeGranule => .mutating

/-- A command's own rule. -/
def commandRule : Instr → State → Except FaultCode State
  | .new => newRule
  | .reset => resetRule
  | .writeBits n => writeBitsRule n
  | .getBitsCount => getBitsCountRule
  | .byteAlign => byteAlignRule
  | .selectTable => selectTableRule
  | .countBits t => countBitsRule t
  | .count1Bits => count1BitsRule
  | .encodePair t => encodePairRule t
  | .encodeQuad sel => encodeQuadRule sel
  | .encodeGranule => encodeGranuleRule

/-- Every command is its rule run in the frame of R142. -/
theorem exec_eq (i : Instr) (s : State) : exec i s = runCommand (commandKind i) (commandRule i) s := by
  cases i <;> rfl

theorem commandKind_query_iff (i : Instr) : commandKind i = .query ↔ IsQuery i := by
  cases i <;> simp [commandKind, IsQuery]

theorem commandKind_needsInit (i : Instr) : (commandKind i).needsInit = true ↔ i ≠ .new := by
  cases i <;> simp [commandKind, CommandKind.needsInit]

theorem commandKind_refusedOnFault (i : Instr) :
    (commandKind i).refusedOnFault = true ↔ i ≠ .new ∧ i ≠ .getBitsCount := by
  cases i <;> simp [commandKind, CommandKind.refusedOnFault]

theorem commandKind_latches (i : Instr) (c : FaultCode) :
    (commandKind i).latches c = true ↔ ¬(c = .encodingRangeViolation ∧ IsQuery i) := by
  rw [← commandKind_query_iff]
  simp [CommandKind.latches, imp_iff_not_or]

/-! ## Codes -/

/-- The codes a rule can raise (R136): never 0, never the two reserved for others, never `NotInitialised`. -/
def IsRuleCode (c : FaultCode) : Prop :=
  c = .bitstreamOverflow ∨ c = .encodingRangeViolation ∨ c = .bigValuesLimitExceeded ∨ c = .invalidHuffmanIndex ∨
    c = .illegalCommand ∨ c = .bufferExhausted

theorem IsRuleCode.ne_none {c : FaultCode} (h : IsRuleCode c) : c ≠ .none := by
  rcases h with rfl | rfl | rfl | rfl | rfl | rfl <;> exact fun h => FaultCode.noConfusion h

theorem IsRuleCode.ne_notInitialised {c : FaultCode} (h : IsRuleCode c) : c ≠ .notInitialised := by
  rcases h with rfl | rfl | rfl | rfl | rfl | rfl <;> exact fun h => FaultCode.noConfusion h

theorem IsRuleCode.ne_inputShapeMismatch {c : FaultCode} (h : IsRuleCode c) : c ≠ .inputShapeMismatch := by
  rcases h with rfl | rfl | rfl | rfl | rfl | rfl <;> exact fun h => FaultCode.noConfusion h

theorem isRuleCode_of_symbol {c : FaultCode} (h : c = .encodingRangeViolation ∨ c = .invalidHuffmanIndex) :
    IsRuleCode c := by
  rcases h with rfl | rfl
  · exact .inr (.inl rfl)
  · exact .inr (.inr (.inr (.inl rfl)))

theorem isRuleCode_of_emit {c : FaultCode} (h : c = .bitstreamOverflow ∨ c = .bufferExhausted) : IsRuleCode c := by
  rcases h with rfl | rfl
  · exact .inl rfl
  · exact .inr (.inr (.inr (.inr (.inr rfl))))

theorem map_error {α β : Type} {x : Except FaultCode α} {f : α → β} {c : FaultCode} (h : x.map f = .error c) :
    x = .error c := by
  cases x with
  | error e => cases h; rfl
  | ok a => cases h

theorem map_ok {α β : Type} {x : Except FaultCode α} {f : α → β} {b : β} (h : x.map f = .ok b) :
    ∃ a, x = .ok a ∧ b = f a := by
  cases x with
  | error e => cases h
  | ok a => cases h; exact ⟨a, rfl, rfl⟩

theorem checkRange_error {b e : Nat} {c : FaultCode} (h : checkRange b e = .error c) : c = .invalidHuffmanIndex := by
  unfold checkRange at h
  split_ifs at h
  cases h; rfl

theorem pairBits_error {h : Table} {t ax ay : Nat} {c : FaultCode} (he : pairBits h t ax ay = .error c) :
    c = .encodingRangeViolation ∨ c = .invalidHuffmanIndex := by
  unfold pairBits at he
  split_ifs at he <;> cases he
  · exact .inl rfl
  · exact .inl rfl
  · exact .inr rfl

theorem quadIndex_error {h : Table} {v w x y : Int} {c : FaultCode} (he : quadIndex h v w x y = .error c) :
    c = .encodingRangeViolation ∨ c = .invalidHuffmanIndex := by
  unfold quadIndex at he
  split_ifs at he <;> cases he
  · exact .inl rfl
  · exact .inr rfl

theorem countPairs_error {h : Table} {t : Nat} {ix : Nat → Int} {c : FaultCode} : ∀ {n i : Nat},
    countPairs h t ix i n = .error c → c = .encodingRangeViolation ∨ c = .invalidHuffmanIndex := by
  intro n
  induction n with
  | zero => intro i he; cases he
  | succ n ih =>
    intro i he
    unfold countPairs at he
    cases hp : pairBits h t (magnitude (ix i)) (magnitude (ix (i + 1))) with
    | error e => rw [hp] at he; cases he; exact pairBits_error hp
    | ok a => rw [hp] at he; exact ih (map_error he)

theorem countRange_error {ht : Rom} {ix : Nat → Int} {b e t : Nat} {c : FaultCode}
    (he : countRange ht ix b e t = .error c) : c = .encodingRangeViolation ∨ c = .invalidHuffmanIndex := by
  unfold countRange at he
  split_ifs at he
  exact countPairs_error he

theorem count1Sums_error {ht : Rom} {ix : Nat → Int} {c : FaultCode} : ∀ {n i : Nat},
    count1Sums ht ix i n = .error c → c = .encodingRangeViolation ∨ c = .invalidHuffmanIndex := by
  intro n
  induction n with
  | zero => intro i he; cases he
  | succ n ih =>
    intro i he
    unfold count1Sums at he
    cases hp : quadBits (ht.table 32) (ix i) (ix (i + 1)) (ix (i + 2)) (ix (i + 3)) with
    | error e => rw [hp] at he; cases he; exact quadIndex_error (map_error hp)
    | ok a =>
      rw [hp] at he
      cases hq : quadBits (ht.table 33) (ix i) (ix (i + 1)) (ix (i + 2)) (ix (i + 3)) with
      | error e => rw [hq] at he; cases he; exact quadIndex_error (map_error hq)
      | ok b => rw [hq] at he; exact ih (map_error he)

theorem keepBest_error_code {tie : TieNoesc} {cost : Nat → Except FaultCode Nat} {P : FaultCode → Prop}
    (hc : ∀ a c, cost a = .error c → P c) {c : FaultCode} : ∀ {alts : List Nat} {choice sum : Nat},
    keepBest tie cost choice sum alts = .error c → P c := by
  intro alts
  induction alts with
  | nil => intro choice sum he; cases he
  | cons a alts ih =>
    intro choice sum he
    unfold keepBest at he
    cases ha : cost a with
    | error e => rw [ha] at he; cases he; exact hc a _ ha
    | ok v =>
      rw [ha] at he
      simp only at he
      split_ifs at he
      · exact ih he
      · exact ih he

theorem chooseTable_error {p : Params} {ix : Nat → Int} {b e : Nat} {c : FaultCode}
    (he : chooseTable p ix b e = .error c) : c = .encodingRangeViolation ∨ c = .invalidHuffmanIndex := by
  unfold chooseTable at he
  split_ifs at he with h0 h1
  · unfold selectNoesc at he
    split at he
    · cases he; exact .inl rfl
    · split at he
      · next h => cases he; exact countRange_error h
      · exact keepBest_error_code (fun a c h => countRange_error h) he
  · unfold selectEsc at he
    split at he
    · split at he
      · next h => cases he; exact countRange_error h
      · exact countRange_error (map_error he)
    · cases he; exact .inl rfl

theorem granuleCheck_error {g : GranuleRegs} {c : FaultCode} (he : granuleCheck g = .error c) :
    (c = .bigValuesLimitExceeded ∧ 288 < g.bigValues.toNat) ∨
      (c = .invalidHuffmanIndex ∧ g.bigValues.toNat ≤ 288 ∧ ¬ GranuleOk g) := by
  have hno : ¬ GranuleOk g := by rw [← granuleCheck_ok_iff, he]; exact fun h => by cases h
  unfold granuleCheck bigValuesMax at he
  by_cases h1 : 288 < g.bigValues.toNat
  · rw [if_pos h1] at he; cases he; exact .inl ⟨rfl, h1⟩
  · rw [if_neg h1] at he
    refine .inr ⟨?_, by omega, hno⟩
    split_ifs at he <;> cases he <;> rfl

theorem bigValuesFields_error {ht : Rom} {g : GranuleRegs} {ix : Nat → Int} {c : FaultCode} : ∀ {n i : Nat},
    bigValuesFields ht g ix i n = .error c → c = .encodingRangeViolation ∨ c = .invalidHuffmanIndex := by
  intro n
  induction n with
  | zero => intro i he; cases he
  | succ n ih =>
    intro i he
    unfold bigValuesFields at he
    cases hp : regionPairFields ht (regionTable g i) (ix i) (ix (i + 1)) with
    | error e =>
      rw [hp] at he
      cases he
      unfold regionPairFields at hp
      split_ifs at hp
      exact pairBits_error (map_error hp)
    | ok a => rw [hp] at he; exact ih (map_error he)

theorem count1Fields_error {h : Table} {ix : Nat → Int} {c : FaultCode} : ∀ {n i : Nat},
    count1Fields h ix i n = .error c → c = .encodingRangeViolation ∨ c = .invalidHuffmanIndex := by
  intro n
  induction n with
  | zero => intro i he; cases he
  | succ n ih =>
    intro i he
    unfold count1Fields at he
    cases hp : quadFields h (ix i) (ix (i + 1)) (ix (i + 2)) (ix (i + 3)) with
    | error e => rw [hp] at he; cases he; exact quadIndex_error (map_error hp)
    | ok a => rw [hp] at he; exact ih (map_error he)

theorem granuleFields_error {ht : Rom} {g : GranuleRegs} {ix : Nat → Int} {c : FaultCode}
    (he : granuleFields ht g ix = .error c) : c = .encodingRangeViolation ∨ c = .invalidHuffmanIndex := by
  unfold granuleFields at he
  split at he
  · next h => cases he; exact bigValuesFields_error h
  · exact count1Fields_error (map_error he)

/-- The faults a rule can raise (R136). -/
theorem commandRule_error {i : Instr} {s : State} {c : FaultCode} (h : commandRule i s = .error c) : IsRuleCode c := by
  cases i with
  | new =>
    change newRule s = .error c at h
    unfold newRule at h
    split_ifs at h
    cases h
    exact .inr (.inr (.inr (.inr (.inl rfl))))
  | reset => cases h
  | writeBits n =>
    change writeBitsRule n s = .error c at h
    unfold writeBitsRule at h
    split_ifs at h
    · cases h; exact .inl rfl
    · exact isRuleCode_of_emit (.inr (emit_error (map_error h)).1)
  | getBitsCount => cases h
  | byteAlign => exact isRuleCode_of_emit (.inr (alignWriter_error (map_error h)).1)
  | selectTable =>
    change selectTableRule s = .error c at h
    unfold selectTableRule at h
    split at h
    · next hr => cases h; exact isRuleCode_of_symbol (.inr (checkRange_error hr))
    · exact isRuleCode_of_symbol (chooseTable_error (map_error h))
  | countBits t =>
    change countBitsRule t s = .error c at h
    unfold countBitsRule at h
    split_ifs at h
    · cases h; exact isRuleCode_of_symbol (.inr rfl)
    · split at h
      · next hr => cases h; exact isRuleCode_of_symbol (.inr (checkRange_error hr))
      · exact isRuleCode_of_symbol (countRange_error (map_error h))
  | count1Bits =>
    change count1BitsRule s = .error c at h
    unfold count1BitsRule at h
    split_ifs at h
    · cases h; exact isRuleCode_of_symbol (.inr rfl)
    · exact isRuleCode_of_symbol (count1Sums_error (map_error h))
  | encodePair t =>
    change encodePairRule t s = .error c at h
    unfold encodePairRule at h
    split_ifs at h
    · cases h; exact isRuleCode_of_symbol (.inr rfl)
    · split at h
      · next hr => cases h; exact isRuleCode_of_symbol (pairBits_error hr)
      · exact isRuleCode_of_emit (emitChecked_error (map_error h))
  | encodeQuad sel =>
    change encodeQuadRule sel s = .error c at h
    unfold encodeQuadRule at h
    split_ifs at h
    · cases h; exact isRuleCode_of_symbol (.inr rfl)
    · split at h
      · next hr => cases h; exact isRuleCode_of_symbol (quadIndex_error (map_error hr))
      · exact isRuleCode_of_emit (emitChecked_error (map_error h))
  | encodeGranule =>
    change encodeGranuleRule s = .error c at h
    unfold encodeGranuleRule at h
    split at h
    · next hr =>
      cases h
      rcases granuleCheck_error hr with ⟨rfl, _⟩ | ⟨rfl, _⟩
      · exact .inr (.inr (.inl rfl))
      · exact isRuleCode_of_symbol (.inr rfl)
    · split at h
      · next hr => cases h; exact isRuleCode_of_symbol (granuleFields_error hr)
      · exact isRuleCode_of_emit (emitChecked_error (map_error h))

/-! ## What a completed rule changes -/

/-- `w'` is `w` grown by a command: the invariants are kept, `pos` does not fall, the bytes below it stand (R16, R31). -/
def WriterGrows (capLimit : Nat) (w w' : Writer) : Prop :=
  w.Inv capLimit → w'.Inv capLimit ∧ w.pos ≤ w'.pos ∧ ∀ k, k < w.pos → w'.buf.read k = w.buf.read k

theorem WriterGrows.refl (capLimit : Nat) (w : Writer) : WriterGrows capLimit w w :=
  fun h => ⟨h, le_refl _, fun _ _ => rfl⟩

theorem writerGrows_of_emit {lim value n : Nat} {w w' : Writer} (h32 : n ≤ 32) (he : emit lim w value n = .ok w') :
    WriterGrows lim w w' :=
  fun h => ⟨emit_inv h h32 he, (emit_keeps h he).2.1, (emit_keeps h he).2.2⟩

theorem writerGrows_of_align {lim : Nat} {w w' : Writer} (he : alignWriter lim w = .ok w') : WriterGrows lim w w' :=
  fun h => ⟨alignWriter_inv h he, (alignWriter_keeps h he).2.1, (alignWriter_keeps h he).2.2⟩

theorem writerGrows_of_emitChecked {lim bits : Nat} {w w' : Writer} {fs : List Field}
    (he : emitChecked lim w bits fs = .ok w') : WriterGrows lim w w' := by
  intro h
  obtain ⟨h1, _, h2⟩ := emitChecked_ok he
  exact ⟨emitFields_inv h h1 h2, (emitFields_keeps h h1 h2).2.1, (emitFields_keeps h h1 h2).2.2⟩

/-- The state after a rule: another writer and other results. -/
def State.after (s : State) (w : Writer) (v0 v1 : Word) : State :=
  { s with writer := w, regs := { s.regs with res0 := v0, res1 := v1 } }

/-- The commands that write `RES0` (R17). -/
def WritesRes0 (i : Instr) : Prop :=
  i = .getBitsCount ∨ i = .selectTable ∨ (∃ n, i = .countBits n) ∨ i = .count1Bits ∨ i = .encodeGranule

/-- Everything a completed rule other than `NEW`'s can do to the state (R17 to R19, R31, R95). -/
theorem commandRule_ok {i : Instr} {s s' : State} (hi : i ≠ .new) (h : commandRule i s = .ok s') :
    ∃ w v0 v1, s' = s.after w v0 v1 ∧
      ((i = .reset ∧ w = clearedWriter s.writer) ∨ (i ≠ .reset ∧ WriterGrows s.params.capLimit s.writer w)) ∧
      (v0 = s.regs.res0 ∨ WritesRes0 i) ∧ (v1 = s.regs.res1 ∨ i = .count1Bits) ∧
      (IsQuery i ∨ i = .getBitsCount → w = s.writer) := by
  cases i with
  | new => exact absurd rfl hi
  | reset =>
    cases h
    exact ⟨_, _, _, rfl, .inl ⟨rfl, rfl⟩, .inl rfl, .inl rfl, fun h => by simp [IsQuery] at h⟩
  | writeBits n =>
    change writeBitsRule n s = .ok s' at h
    unfold writeBitsRule maxWrite at h
    split_ifs at h with h32
    obtain ⟨w, hw, rfl⟩ := map_ok h
    exact ⟨w, _, _, rfl, .inr ⟨by simp, writerGrows_of_emit (by omega) hw⟩, .inl rfl, .inl rfl,
      fun h => by simp [IsQuery] at h⟩
  | getBitsCount =>
    cases h
    exact ⟨_, _, _, rfl, .inr ⟨by simp, .refl _ _⟩, .inr (.inl rfl), .inl rfl, fun _ => rfl⟩
  | byteAlign =>
    obtain ⟨w, hw, rfl⟩ := map_ok h
    exact ⟨w, _, _, rfl, .inr ⟨by simp, writerGrows_of_align hw⟩, .inl rfl, .inl rfl,
      fun h => by simp [IsQuery] at h⟩
  | selectTable =>
    change selectTableRule s = .ok s' at h
    unfold selectTableRule at h
    split at h
    · cases h
    · obtain ⟨v, _, rfl⟩ := map_ok h
      exact ⟨_, _, _, rfl, .inr ⟨by simp, .refl _ _⟩, .inr (.inr (.inl rfl)), .inl rfl, fun _ => rfl⟩
  | countBits t =>
    change countBitsRule t s = .ok s' at h
    unfold countBitsRule at h
    split_ifs at h
    split at h
    · cases h
    · obtain ⟨v, _, rfl⟩ := map_ok h
      exact ⟨_, _, _, rfl, .inr ⟨by simp, .refl _ _⟩, .inr (.inr (.inr (.inl ⟨t, rfl⟩))), .inl rfl, fun _ => rfl⟩
  | count1Bits =>
    change count1BitsRule s = .ok s' at h
    unfold count1BitsRule at h
    split_ifs at h
    obtain ⟨v, _, rfl⟩ := map_ok h
    exact ⟨_, _, _, rfl, .inr ⟨by simp, .refl _ _⟩, .inr (.inr (.inr (.inr (.inl rfl)))), .inr rfl, fun _ => rfl⟩
  | encodePair t =>
    change encodePairRule t s = .ok s' at h
    unfold encodePairRule at h
    split_ifs at h with h1 h0
    · cases h
      exact ⟨_, _, _, rfl, .inr ⟨by simp, .refl _ _⟩, .inl rfl, .inl rfl, fun h => by simp [IsQuery] at h⟩
    · split at h
      · cases h
      · obtain ⟨w, hw, rfl⟩ := map_ok h
        exact ⟨w, _, _, rfl, .inr ⟨by simp, writerGrows_of_emitChecked hw⟩, .inl rfl, .inl rfl,
          fun h => by simp [IsQuery] at h⟩
  | encodeQuad sel =>
    change encodeQuadRule sel s = .ok s' at h
    unfold encodeQuadRule at h
    split_ifs at h
    split at h
    · cases h
    · obtain ⟨w, hw, rfl⟩ := map_ok h
      exact ⟨w, _, _, rfl, .inr ⟨by simp, writerGrows_of_emitChecked hw⟩, .inl rfl, .inl rfl,
        fun h => by simp [IsQuery] at h⟩
  | encodeGranule =>
    change encodeGranuleRule s = .ok s' at h
    unfold encodeGranuleRule at h
    split at h
    · cases h
    · split at h
      · cases h
      · obtain ⟨w, hw, rfl⟩ := map_ok h
        exact ⟨w, _, _, rfl, .inr ⟨by simp, writerGrows_of_emitChecked hw⟩,
          .inr (.inr (.inr (.inr (.inr rfl)))), .inl rfl, fun h => by simp [IsQuery] at h⟩

end Sys2Proof.Machine
end

