-- ==== Sys2Proof/Laws/Host.lean ====
section
/-! SUPPORT. What a host access and a step can do (Machine/HostPort.lean, Machine/Step.lean): once for each, so that later
proofs need not unfold them. -/

namespace Sys2Proof.Machine

/-- A register access in the map: a whole aligned word below `mapEnd` (R23, R36). -/
theorem registerAccess_next_iff {size : AccessSize} {offset : Nat} {r : HostReg} :
    registerAccess size offset = .next r ↔
      size = .word ∧ offset % 4 = 0 ∧ offset < mapEnd ∧ registerAt offset = r := by
  unfold registerAccess
  split_ifs with h1 h2
  · refine ⟨fun h => (nomatch h), fun h => ?_⟩
    exact absurd h1 (by rw [not_or, not_not, not_not]; exact ⟨h.1, h.2.1⟩)
  · exact ⟨fun h => (nomatch h), fun h => absurd h.2.2.1 (by omega)⟩
  · rw [not_or, not_not, not_not] at h1
    constructor
    · intro h
      cases h
      exact ⟨h1.1, h1.2, by omega, rfl⟩
    · rintro ⟨_, _, _, rfl⟩
      rfl

/-- The register at an aligned offset of the map is an `IX` entry only inside the window's 576 entries (R23). -/
theorem registerAt_ix_lt {offset i : Nat} (hm : offset < mapEnd) (h : registerAt offset = .ix i) : i < 576 := by
  unfold registerAt at h
  split_ifs at h with hb
  · cases h
    unfold mapEnd at hm
    unfold ixBase at *
    omega
  · split at h <;> cases h

/-- A write of a register changes `IX` only at the entry written (R19). -/
theorem writeValue_ix (r : HostReg) (v : Word) (s : State) :
    (r.writeValue v s).ix = s.ix ∨ ∃ i, r = .ix i ∧ (r.writeValue v s).ix = s.ix.write i v := by
  cases r with
  | ix i => exact .inr ⟨i, rfl, rfl⟩
  | general i => fin_cases i <;> exact .inl rfl
  | _ => exact .inl rfl

/-- A read of a byte of `OUT` changes what the host was given and the count of free values only (R38). -/
theorem readOut_eq (k : Nat) (s : State) :
    readOut k s = { s with readData := (readOut k s).readData, freeReads := (readOut k s).freeReads } := by
  unfold readOut
  split <;> rfl

/-- The three host accesses (R165): a register write, a register read, a read of `OUT`. -/
theorem hostAccess_cases {a : HostAction} {s t : State} (h : hostAccess a s = .next t) :
    (∃ size offset v r, a = .write size offset v ∧ registerAccess size offset = .next r ∧ t = r.writeValue v s) ∨
    (∃ size offset r, a = .read size offset ∧ registerAccess size offset = .next r ∧
      t = { s with readData := r.readValue s }) ∨
    ∃ k, a = .readOut k ∧ t = readOut k s := by
  unfold hostAccess at h
  cases a with
  | write size offset v =>
    simp only at h
    cases hr : registerAccess size offset with
    | next r =>
      rw [hr] at h
      cases h
      exact .inl ⟨size, offset, v, r, rfl, hr, rfl⟩
    | fault f => rw [hr] at h; cases h
    | refused f => rw [hr] at h; cases h
  | read size offset =>
    simp only at h
    cases hr : registerAccess size offset with
    | next r =>
      rw [hr] at h
      cases h
      exact .inr (.inl ⟨size, offset, r, rfl, hr, rfl⟩)
    | fault f => rw [hr] at h; cases h
    | refused f => rw [hr] at h; cases h
  | readOut k =>
    cases h
    exact .inr (.inr ⟨k, rfl, rfl⟩)

/-- A host access touches neither the writer nor `STATUS`, `RES0`, `RES1` or the parameters (R17, R18, R19, R38). -/
theorem hostAccess_frame {a : HostAction} {s t : State} (h : hostAccess a s = .next t) :
    t.writer = s.writer ∧ t.status = s.status ∧ t.params = s.params ∧ t.regs.res0 = s.regs.res0 ∧
      t.regs.res1 = s.regs.res1 ∧ t.hostQueue = s.hostQueue := by
  rcases hostAccess_cases h with ⟨_, _, v, r, _, _, rfl⟩ | ⟨_, _, _, _, _, rfl⟩ | ⟨k, _, rfl⟩
  · cases r with
    | general i => fin_cases i <;> exact ⟨rfl, rfl, rfl, rfl, rfl, rfl⟩
    | _ => exact ⟨rfl, rfl, rfl, rfl, rfl, rfl⟩
  · exact ⟨rfl, rfl, rfl, rfl, rfl, rfl⟩
  · rw [readOut_eq]
    exact ⟨rfl, rfl, rfl, rfl, rfl, rfl⟩

/-- A host access leaves `IX` as it is or writes one of its 576 entries (R19). -/
theorem hostAccess_ix {a : HostAction} {s t : State} (h : hostAccess a s = .next t) :
    t.ix = s.ix ∨ ∃ i v, i < 576 ∧ t.ix = s.ix.write i v := by
  rcases hostAccess_cases h with ⟨_, _, v, r, _, hr, rfl⟩ | ⟨_, _, _, _, _, rfl⟩ | ⟨k, _, rfl⟩
  · rcases writeValue_ix r v s with h | ⟨i, rfl, h⟩
    · exact .inl h
    · obtain ⟨_, _, hm, hi⟩ := registerAccess_next_iff.mp hr
      exact .inr ⟨i, v, registerAt_ix_lt hm hi, h⟩
  · exact .inl rfl
  · rw [readOut_eq]
    exact .inl rfl

/-- Only a whole-word write of offset 0 is a write of `CMD` (R22). -/
theorem commandWord_eq_some {a : HostAction} {w : Word} (h : commandWord a = some w) : a = commandAction w := by
  unfold commandWord at h
  split at h
  · cases h
    rfl
  · cases h

/-- A step with a write of `CMD` pending runs the word (R142). -/
theorem step_command {s : State} {w : Word} {q : List HostAction} (h : s.hostQueue = commandAction w :: q) :
    step s = runWord w { s with hostQueue := q } := by
  unfold step fetchAction
  rw [h]
  rfl

/-- A step with another host access pending carries it out (R165). -/
theorem step_access {s : State} {a : HostAction} {q : List HostAction} (h : s.hostQueue = a :: q)
    (ha : commandWord a = none) : step s = hostAccess a { s with hostQueue := q } := by
  unfold step fetchAction
  rw [h]
  simp only [ha]

/-- The four things a step can be: nothing pending, an illegal word, a command, a host access. -/
theorem step_cases {s t : State} (h : step s = .next t) :
    (s.hostQueue = [] ∧ t = s) ∨
    (∃ w q e, s.hostQueue = commandAction w :: q ∧ decode w = .error e ∧
      t = raiseFault .illegalCommand true { s with hostQueue := q }) ∨
    (∃ w q i, s.hostQueue = commandAction w :: q ∧ decode w = .ok i ∧ exec i { s with hostQueue := q } = .next t) ∨
    ∃ a q, s.hostQueue = a :: q ∧ commandWord a = none ∧ hostAccess a { s with hostQueue := q } = .next t := by
  cases hq : s.hostQueue with
  | nil =>
    unfold step fetchAction at h
    rw [hq] at h
    cases h
    exact .inl ⟨rfl, rfl⟩
  | cons a q =>
    right
    cases hc : commandWord a with
    | none => exact .inr (.inr ⟨a, q, rfl, hc, (step_access hq hc).symm.trans h⟩)
    | some w =>
      obtain rfl := commandWord_eq_some hc
      rw [step_command hq, runWord] at h
      cases hd : decode w with
      | ok i =>
        rw [hd] at h
        exact .inr (.inl ⟨w, q, i, rfl, hd, h⟩)
      | error e =>
        rw [hd] at h
        cases h
        exact .inl ⟨w, q, e, rfl, hd, rfl⟩

end Sys2Proof.Machine
end

