-- ==== Sys2Proof/Laws/PerInstr.lean ====
section
/-! SUPPORT. What is said of every command, one lemma per constructor: the family `EncodingFields`, the fields of the
command word of a well-formed command (spec 30_encoding.md R45, R47). -/

namespace Sys2Proof.Laws

/-- R45, R47: the command word of a well-formed command holds its opcode in bits 31:24, its immediate in bits 23:16, zeros
below. -/
def EncodingFields.Statement (i : Instr) : Prop :=
  i.wellFormed = true →
    (opcodeField (encode i)).toNat = i.opcode ∧ (immediateField (encode i)).toNat = i.immediate ∧
      zeroField (encode i) = 0

/-- The fields of a word put together from its three fields (R45). -/
theorem fields_of_append (o a : BitVec 8) :
    opcodeField (o ++ a ++ 0#16) = o ∧ immediateField (o ++ a ++ 0#16) = a ∧ zeroField (o ++ a ++ 0#16) = 0 := by
  unfold opcodeField immediateField zeroField
  refine ⟨?_, ?_, ?_⟩ <;> ext i hi <;>
    simp only [BitVec.getElem_extractLsb', BitVec.getLsbD_append, BitVec.getLsbD_zero]
  · rw [if_neg (by omega), if_neg (by omega), ← BitVec.getLsbD_eq_getElem]
    congr 1
    omega
  · rw [if_neg (by omega), if_pos (by omega), ← BitVec.getLsbD_eq_getElem]
    congr 1
    omega
  · rw [if_pos (by omega)]
    simp

theorem EncodingFields.of_bounds {i : Instr} (ho : i.opcode < 256) (ha : i.immediate < 256) :
    EncodingFields.Statement i := by
  intro _
  obtain ⟨h1, h2, h3⟩ := fields_of_append (BitVec.ofNat 8 i.opcode) (BitVec.ofNat 8 i.immediate)
  refine ⟨?_, ?_, h3⟩
  · rw [encode, h1, BitVec.toNat_ofNat, Nat.mod_eq_of_lt ho]
  · rw [encode, h2, BitVec.toNat_ofNat, Nat.mod_eq_of_lt ha]

theorem EncodingFields.new : EncodingFields.Statement .new := EncodingFields.of_bounds (by decide) (by decide)

theorem EncodingFields.reset : EncodingFields.Statement .reset := EncodingFields.of_bounds (by decide) (by decide)

theorem EncodingFields.writeBits (n : Nat) : EncodingFields.Statement (.writeBits n) := fun h =>
  EncodingFields.of_bounds (i := .writeBits n) (show 3 < 256 by decide) (of_decide_eq_true h) h

theorem EncodingFields.getBitsCount : EncodingFields.Statement .getBitsCount :=
  EncodingFields.of_bounds (by decide) (by decide)

theorem EncodingFields.byteAlign : EncodingFields.Statement .byteAlign :=
  EncodingFields.of_bounds (by decide) (by decide)

theorem EncodingFields.selectTable : EncodingFields.Statement .selectTable :=
  EncodingFields.of_bounds (by decide) (by decide)

theorem EncodingFields.countBits (t : Nat) : EncodingFields.Statement (.countBits t) := fun h =>
  EncodingFields.of_bounds (i := .countBits t) (show 17 < 256 by decide) (of_decide_eq_true h) h

theorem EncodingFields.count1Bits : EncodingFields.Statement .count1Bits :=
  EncodingFields.of_bounds (by decide) (by decide)

theorem EncodingFields.encodePair (t : Nat) : EncodingFields.Statement (.encodePair t) := fun h =>
  EncodingFields.of_bounds (i := .encodePair t) (show 19 < 256 by decide) (of_decide_eq_true h) h

theorem EncodingFields.encodeQuad (sel : Nat) : EncodingFields.Statement (.encodeQuad sel) := fun h =>
  EncodingFields.of_bounds (i := .encodeQuad sel) (show 20 < 256 by decide) (of_decide_eq_true h) h

theorem EncodingFields.encodeGranule : EncodingFields.Statement .encodeGranule :=
  EncodingFields.of_bounds (by decide) (by decide)

end Sys2Proof.Laws
end

