-- ==== Sys2Proof/Laws/ReferenceRom.lean ====
section
/-! SUPPORT. The ROM image of the test vectors meets R81 to R86, as spec/95_test_vectors.md section 2 says; so the tests may
take it for the parameter `HT`. -/

namespace Sys2Proof.Machine

/-- What R82 to R86 ask of one entry `t ≥ 1`. -/
structure EntryOk (t : Nat) (h : Table) : Prop where
  linbits : h.linbits ≤ 15
  sizes : if t < 32 then h.codes.length = h.xlen * h.ylen ∧ h.lengths.length = h.xlen * h.ylen
    else h.codes.length = 16 ∧ h.lengths.length = 16
  widths : ∀ n ∈ h.lengths, n ≤ 30
  fit : h.CodesFit
  prefixFree : h.PrefixFree
  escapes : 16 ≤ t → t < 32 → 2 * h.linbits + 2 ≤ 32 ∧ h.xlen = 16 ∧ h.ylen = 16 ∧ h.linmax ≤ 2 ^ h.linbits - 1

/-- A ROM whose entry 0 is empty and whose other entries meet the rules one by one. -/
theorem wellFormed_of_entries {ht : Rom} (hl : ht.tables.length = 34) (h0 : ht.table 0 = Table.empty)
    (h : ∀ t, 1 ≤ t → t < 34 → EntryOk t (ht.table t)) : ht.WellFormed := by
  have h0' : ∀ {P : Nat → Table → Prop}, P 0 Table.empty → (∀ t, 1 ≤ t → t < 34 → P t (ht.table t)) →
      ∀ t, t < 34 → P t (ht.table t) := by
    intro P hp0 hp t ht
    rcases Nat.eq_zero_or_pos t with rfl | hpos
    · rw [h0]
      exact hp0
    · exact hp t hpos ht
  refine ⟨⟨hl, by rw [h0]; exact ⟨rfl, rfl, rfl, rfl⟩, ?_⟩, ⟨?_, ?_⟩, ⟨?_, ?_, ?_, ?_⟩, ?_, ?_⟩
  · exact h0' (P := fun _ x => x.linbits ≤ 15) (Nat.zero_le _) fun t h1 h2 => (h t h1 h2).linbits
  · intro t ht
    rcases Nat.eq_zero_or_pos t with rfl | hpos
    · rw [h0]
      exact ⟨rfl, rfl⟩
    · have := (h t hpos (by omega)).sizes
      rwa [if_pos ht] at this
  · intro t h34 h32
    have := (h t (by omega) h34).sizes
    rwa [if_neg (by omega)] at this
  · intro t h16 n hn
    rcases Nat.eq_zero_or_pos t with rfl | hpos
    · rw [h0] at hn
      cases hn
    · exact Nat.add_le_add_right ((h t hpos (by omega)).widths n hn) 2
  · exact fun t h34 h16 n hn => le_trans ((h t (by omega) h34).widths n hn) (by norm_num)
  · exact fun t h32 h16 => ((h t (by omega) (by omega)).escapes h16 h32).1
  · exact h0' (P := fun _ x => x.CodesFit) Table.empty_codesFit fun t h1 h2 => (h t h1 h2).fit
  · exact h0' (P := fun _ x => x.PrefixFree) Table.empty_prefixFree fun t h1 h2 => (h t h1 h2).prefixFree
  · exact fun t h32 h16 => ((h t (by omega) (by omega)).escapes h16 h32).2

theorem empty_entryOk {t : Nat} (ht : t < 16) : EntryOk t Table.empty where
  linbits := Nat.zero_le _
  sizes := by rw [if_pos (by omega)]; exact ⟨rfl, rfl⟩
  widths := fun _ h => nomatch h
  fit := Table.empty_codesFit
  prefixFree := Table.empty_prefixFree
  escapes := fun h => absurd h (by omega)

theorem fixedLength_entryOk {t linbits linmax k : Nat} {f : Nat → Nat} (ht : t < 32) (h1 : 1 ≤ k) (h30 : k ≤ 30)
    (hb : linbits ≤ 15) (hm : linmax ≤ 2 ^ linbits - 1) (hf : ∀ i, i < 256 → f i < 2 ^ k)
    (hinj : ∀ i j, j < 256 → i < j → f i ≠ f j) : EntryOk t (Table.fixedLength 16 16 linbits linmax k f) where
  linbits := hb
  sizes := by rw [if_pos ht]; exact Table.fixedLength_sizes 16 16 linbits linmax k f
  widths := fun n hn => (Table.fixedLength_mem_lengths hn).le.trans h30
  fit := Table.fixedLength_codesFit h1 hf
  prefixFree := Table.fixedLength_prefixFree hf hinj
  escapes := fun _ _ => ⟨by change 2 * linbits + 2 ≤ 32; omega, rfl, rfl, hm⟩

theorem testTable16_entryOk {t linbits : Nat} (ht : t < 32) (hb : linbits ≤ 15) : EntryOk t (testTable16 linbits) :=
  fixedLength_entryOk ht (by norm_num) (by norm_num) hb le_rfl (fun _ h => h) fun _ _ _ h => Nat.ne_of_lt h

theorem testTable24_entryOk {t linbits : Nat} (ht : t < 32) (hb : linbits ≤ 15) : EntryOk t (testTable24 linbits) :=
  fixedLength_entryOk ht (by norm_num) (by norm_num) hb le_rfl (fun i h => by norm_num; omega)
    fun i j _ h => by omega

theorem testTable13_entryOk : EntryOk 13 testTable13 :=
  fixedLength_entryOk (by norm_num) (by norm_num) (by norm_num) (Nat.zero_le _) (Nat.zero_le _) (fun _ h => h)
    fun _ _ _ h => Nat.ne_of_lt h

theorem testTable15_entryOk : EntryOk 15 testTable15 :=
  fixedLength_entryOk (by norm_num) (by norm_num) (by norm_num) (Nat.zero_le _) (Nat.zero_le _)
    (fun i h => by norm_num; omega) fun i j _ h => by omega

/-- An entry without escapes, its arrays checked one by one. -/
theorem plain_entryOk {t x y : Nat} {codes lengths : List Nat} (ht : t < 16 ∨ 32 ≤ t)
    (hs : codes.length = (if t < 32 then x * y else 16) ∧ lengths.length = (if t < 32 then x * y else 16))
    (hw : (lengths.all fun n => decide (n ≤ 30)) = true) (hf : (plainTable x y codes lengths).CodesFit)
    (hp : (plainTable x y codes lengths).PrefixFree) : EntryOk t (plainTable x y codes lengths) where
  linbits := Nat.zero_le _
  sizes := by
    split_ifs at hs ⊢ <;> exact hs
  widths := fun n hn => of_decide_eq_true (List.all_eq_true.mp hw n hn)
  fit := hf
  prefixFree := hp
  escapes := fun h1 h2 => absurd h1 (by omega)

theorem referenceTable1_entryOk : EntryOk 1 referenceTable1 :=
  plain_entryOk (by decide) (by decide) (by decide) (by decide) (by decide)

theorem referenceTable2_entryOk : EntryOk 2 referenceTable2 :=
  plain_entryOk (by decide) (by decide) (by decide) (by decide) (by decide)

theorem referenceTable3_entryOk : EntryOk 3 referenceTable3 :=
  plain_entryOk (by decide) (by decide) (by decide) (by decide) (by decide)

theorem referenceTable5_entryOk : EntryOk 5 referenceTable5 :=
  plain_entryOk (by decide) (by decide) (by decide) (by decide +kernel) (by decide +kernel)

theorem referenceTable6_entryOk : EntryOk 6 referenceTable6 :=
  plain_entryOk (by decide) (by decide) (by decide) (by decide +kernel) (by decide +kernel)

theorem referenceTable7_entryOk : EntryOk 7 referenceTable7 :=
  plain_entryOk (by decide) (by decide +kernel) (by decide +kernel) (by decide +kernel) (by decide +kernel)

theorem referenceTable8_entryOk : EntryOk 8 referenceTable8 :=
  plain_entryOk (by decide) (by decide +kernel) (by decide +kernel) (by decide +kernel) (by decide +kernel)

theorem referenceTable9_entryOk : EntryOk 9 referenceTable9 :=
  plain_entryOk (by decide) (by decide +kernel) (by decide +kernel) (by decide +kernel) (by decide +kernel)

theorem referenceTable10_entryOk : EntryOk 10 referenceTable10 :=
  plain_entryOk (by decide) (by decide +kernel) (by decide +kernel) (by decide +kernel) (by decide +kernel)

theorem referenceTable11_entryOk : EntryOk 11 referenceTable11 :=
  plain_entryOk (by decide) (by decide +kernel) (by decide +kernel) (by decide +kernel) (by decide +kernel)

theorem referenceTable12_entryOk : EntryOk 12 referenceTable12 :=
  plain_entryOk (by decide) (by decide +kernel) (by decide +kernel) (by decide +kernel) (by decide +kernel)

theorem referenceTable32_entryOk : EntryOk 32 referenceTable32 :=
  plain_entryOk (by decide) (by decide) (by decide) (by decide +kernel) (by decide +kernel)

theorem referenceTable33_entryOk : EntryOk 33 referenceTable33 :=
  plain_entryOk (by decide) (by decide) (by decide) (by decide +kernel) (by decide +kernel)

/-- Every entry of `HT_TEST` but the unused one. -/
theorem testRom_entryOk (t : Nat) (h1 : 1 ≤ t) (h34 : t < 34) : EntryOk t (testRom.table t) := by
  interval_cases t
  · exact referenceTable1_entryOk
  · exact referenceTable2_entryOk
  · exact referenceTable3_entryOk
  · exact empty_entryOk (by norm_num)
  · exact referenceTable5_entryOk
  · exact referenceTable6_entryOk
  · exact referenceTable7_entryOk
  · exact referenceTable8_entryOk
  · exact referenceTable9_entryOk
  · exact referenceTable10_entryOk
  · exact referenceTable11_entryOk
  · exact referenceTable12_entryOk
  · exact testTable13_entryOk
  · exact empty_entryOk (by norm_num)
  · exact testTable15_entryOk
  · exact testTable16_entryOk (linbits := 1) (by norm_num) (by norm_num)
  · exact testTable16_entryOk (linbits := 2) (by norm_num) (by norm_num)
  · exact testTable16_entryOk (linbits := 3) (by norm_num) (by norm_num)
  · exact testTable16_entryOk (linbits := 4) (by norm_num) (by norm_num)
  · exact testTable16_entryOk (linbits := 6) (by norm_num) (by norm_num)
  · exact testTable16_entryOk (linbits := 8) (by norm_num) (by norm_num)
  · exact testTable16_entryOk (linbits := 10) (by norm_num) (by norm_num)
  · exact testTable16_entryOk (linbits := 13) (by norm_num) (by norm_num)
  · exact testTable24_entryOk (linbits := 4) (by norm_num) (by norm_num)
  · exact testTable24_entryOk (linbits := 5) (by norm_num) (by norm_num)
  · exact testTable24_entryOk (linbits := 6) (by norm_num) (by norm_num)
  · exact testTable24_entryOk (linbits := 7) (by norm_num) (by norm_num)
  · exact testTable24_entryOk (linbits := 8) (by norm_num) (by norm_num)
  · exact testTable24_entryOk (linbits := 9) (by norm_num) (by norm_num)
  · exact testTable24_entryOk (linbits := 11) (by norm_num) (by norm_num)
  · exact testTable24_entryOk (linbits := 13) (by norm_num) (by norm_num)
  · exact referenceTable32_entryOk
  · exact referenceTable33_entryOk

/-- `HT_TEST` meets the rules R81 to R86 (95_test_vectors.md section 2). -/
theorem testRom_wellFormed : testRom.WellFormed := wellFormed_of_entries rfl rfl testRom_entryOk

theorem testParams_wellFormed : testParams.WellFormed := ⟨testRom_wellFormed, by decide, by decide⟩

end Sys2Proof.Machine
end

