-- ==== Sys2Proof/Tests/Slice0.lean ====
section
/-! SUPPORT. Tests: the check of well-formed terms, one command word per constructor written out from the opcode map of
spec/30_encoding.md R47, at most two one-step tests per command with results taken from spec/95_test_vectors.md (each names
its vector), and for every statement with hypotheses a state and operands that meet them all (`witness_<Statement>`). -/

set_option Elab.async false

namespace Sys2Proof.Tests

open Sys2Proof Sys2Proof.Machine

/-! ## Well-formed terms (R45, R46): an immediate above 255 is refused -/

theorem test_writeBits_256_ill_formed : (Instr.writeBits 256).wellFormed = false := by decide
theorem test_countBits_256_ill_formed : (Instr.countBits 256).wellFormed = false := by decide
theorem test_encodePair_256_ill_formed : (Instr.encodePair 256).wellFormed = false := by decide
theorem test_encodeQuad_256_ill_formed : (Instr.encodeQuad 256).wellFormed = false := by decide
theorem test_writeBits_255_well_formed : (Instr.writeBits 255).wellFormed = true := by decide

/-! ## Decoding: one word per row of R47, and the three ways a word is illegal (R49; vectors X1, X9, X10) -/

theorem test_decode_new : decode 0x01000000#32 = .ok .new := by decide
theorem test_decode_reset : decode 0x02000000#32 = .ok .reset := by decide
theorem test_decode_writeBits : decode 0x03140000#32 = .ok (.writeBits 20) := by decide
theorem test_decode_getBitsCount : decode 0x04000000#32 = .ok .getBitsCount := by decide
theorem test_decode_byteAlign : decode 0x05000000#32 = .ok .byteAlign := by decide
theorem test_decode_selectTable : decode 0x10000000#32 = .ok .selectTable := by decide
theorem test_decode_countBits : decode 0x111F0000#32 = .ok (.countBits 31) := by decide
theorem test_decode_count1Bits : decode 0x12000000#32 = .ok .count1Bits := by decide
theorem test_decode_encodePair : decode 0x130A0000#32 = .ok (.encodePair 10) := by decide
theorem test_decode_encodeQuad : decode 0x14010000#32 = .ok (.encodeQuad 1) := by decide
theorem test_decode_encodeGranule : decode 0x15000000#32 = .ok .encodeGranule := by decide
theorem test_decode_unknown_opcode : decode 0x00000000#32 = .error .unknownOpcode := by decide
theorem test_decode_zero_field : decode 0x05008000#32 = .error .nonzeroZeroField := by decide
theorem test_decode_immediate : decode 0x10010000#32 = .error .nonzeroImmediate := by decide

/-! ## Small states -/

/-- `IX[i], IX[i+1], …` as the host's writes of the listed values leave them. -/
def coefficientsFrom (i : Nat) : List Int → Memory 32
  | [] => []
  | v :: vs => (i, BitVec.ofInt 32 v) :: coefficientsFrom (i + 1) vs

/-- The writer after `NEW 16`. -/
def emptyWriter : Writer := ⟨[], 0, 16, 0, 32⟩

/-- The granule registers after the host has written nothing. -/
def noGranule : GranuleRegs := ⟨0, 0, 0, 0, 0, 0, 0, 0, 0⟩

/-- An initialised state with nothing latched, under the parameters of the test vectors. -/
def testState (w : Writer) (r : Regs) (ix : List Int) (g : GranuleRegs) : State :=
  { State.reset with
    params := testParams, status := ⟨true, .none, .none⟩, writer := w, regs := r, granule := g,
    ix := coefficientsFrom 0 ix }

/-- `testState` with operands `OP0..OP3` and a writer alone. -/
def writerState (w : Writer) (a b c d : Word) : State := testState w ⟨a, b, c, d, 0, 0⟩ [] noGranule

/-- `testState` after `NEW 16`, with a range in `OP0`, `OP1` and coefficients. -/
def rangeState (b e : Word) (ix : List Int) : State := testState emptyWriter ⟨b, e, 0, 0, 7, 7⟩ ix noGranule

/-- `s` with another `CAP_LIMIT`. -/
def withLimit (limit : Nat) (s : State) : State := { s with params := { s.params with capLimit := limit } }

/-- `s` with another `STATUS`. -/
def withStatus (init : Bool) (fault last : FaultCode) (s : State) : State := { s with status := ⟨init, fault, last⟩ }

/-- `s` with host actions pending. -/
def withQueue (q : List HostAction) (s : State) : State := { s with hostQueue := q }

/-- An outcome is a next state that passes a check. -/
def answers (o : Host.Outcome State Fault Refusal) (p : State → Bool) : Bool :=
  match o with
  | .next t => p t
  | .fault _ => false
  | .refused _ => false

theorem of_answers {o : Host.Outcome State Fault Refusal} {p : State → Bool} (h : answers o p = true) :
    ∃ t, o = .next t ∧ p t = true := by
  cases o with
  | next t => exact ⟨t, rfl, h⟩
  | fault f => cases h
  | refused r => cases h

/-- The invariant as a check that can be run. -/
theorem inv_of_check {s : State}
    (h : (8 ≤ s.params.capLimit ∧ s.params.capLimit ≤ 2 ^ 29 - 1) ∧
      (1 ≤ s.writer.free ∧ s.writer.free ≤ 32 ∧ s.writer.cache.toNat % 2 ^ s.writer.free = 0 ∧
        s.writer.pos ≤ s.writer.cap ∧ 8 ≤ s.writer.cap ∧ s.writer.cap ≤ s.params.capLimit ∧
        s.writer.buf.map Prod.fst = List.range s.writer.pos) ∧
      s.writer.buf.wf ∧ s.ix.wf ∧ (∀ e ∈ s.ix, e.1 < 576) ∧
      s.status.fault ≠ .inputShapeMismatch ∧ s.status.last ≠ .inputShapeMismatch) : s.Inv := by
  obtain ⟨⟨h1, h2⟩, ⟨a, b, c, d, e, f, g⟩, h3, h4, h5, h6, h7⟩ := h
  exact ⟨h1, h2, fun _ => ⟨a, b, c, d, e, f, g⟩, h3, h4, h5, h6, h7⟩

theorem testRom_ok (w : Writer) (r : Regs) (ix : List Int) (g : GranuleRegs) :
    (testState w r ix g).params.ht.WellFormed := testRom_wellFormed

/-- The single commands of a list run one after the other, `none` where one does not complete. -/
def runSymbols : List Symbol → State → Option State
  | [], s => some s
  | y :: ys, s =>
    match exec y.instr { s with regs := { s.regs with op0 := y.op0, op1 := y.op1, op2 := y.op2, op3 := y.op3 } } with
    | .next u => if u.status.last = .none then runSymbols ys u else none
    | .fault _ => none
    | .refused _ => none

theorem completesAs_of_runSymbols : ∀ {ys : List Symbol} {s : State}, (runSymbols ys s).isSome = true →
    ∃ t, CompletesAs ys s t := by
  intro ys
  induction ys with
  | nil => exact fun {s} _ => ⟨s, rfl⟩
  | cons y ys ih =>
    intro s h
    unfold runSymbols at h
    split at h
    · rename_i u hu
      split_ifs at h with hl
      · obtain ⟨t, ht⟩ := ih h
        exact ⟨t, u, hu, hl, ht⟩
      · cases h
    · cases h
    · cases h

/-! ## One step of each command -/

/-- W52: `NEW 8` from power-on, with the writer's power-on values. -/
theorem test_new_eight : answers (exec .new (withStatus false .none .none (writerState Writer.powerOn 8 0 0 0)))
    (fun t => decide (t.writer = ⟨[], 0, 8, 0, 32⟩ ∧ t.status.word = 0x100)) = true := by decide +kernel

/-- F10: `NEW 4` with code 1 latched neither clears nor replaces the latch. -/
theorem test_new_four : answers (exec .new (withStatus true .bitstreamOverflow .bitstreamOverflow
    (writerState emptyWriter 4 0 0 0)))
    (fun t => decide (t.writer = emptyWriter ∧ t.status.word = 0x161)) = true := by decide +kernel

/-- W6b: `RESET` keeps the grown capacity. -/
theorem test_reset_keeps_cap : answers (exec .reset (writerState
    ⟨[(0, 0xBA), (1, 0xBE), (2, 0xAA)], 3, 18, 0x80000000, 31⟩ 0 0 0 0))
    (fun t => decide (t.writer = ⟨[], 0, 18, 0, 32⟩)) = true := by decide +kernel

/-- W43: `RESET` is refused while a fault is latched. -/
theorem test_reset_refused : answers (exec .reset (withStatus true .bufferExhausted .none
    (writerState ⟨[], 0, 8, 0x80000000, 31⟩ 0 0 0 0)))
    (fun t => decide (t.writer = ⟨[], 0, 8, 0x80000000, 31⟩ ∧ t.status.word = 0x188)) = true := by decide +kernel

/-- W2: 24 bits into a cache with 12 free; the value is masked to `0x123456`. -/
theorem test_writeBits_flush : answers (exec (.writeBits 24) (writerState ⟨[], 0, 8, 0xABCDE000, 12⟩ 0xFF123456 0 0 0))
    (fun t => decide (t.writer = ⟨[(0, 0xAB), (1, 0xCD), (2, 0xE1), (3, 0x23)], 4, 8, 0x45600000, 20⟩)) = true := by
  decide +kernel

/-- W15: `n = free` is flushed at once. -/
theorem test_writeBits_exact : answers (exec (.writeBits 5) (writerState ⟨[], 0, 8, 0xAAAAAAA0, 5⟩ 0x1F 0 0 0))
    (fun t => decide (t.writer = ⟨[(0, 0xAA), (1, 0xAA), (2, 0xAA), (3, 0xBF)], 4, 8, 0, 32⟩)) = true := by
  decide +kernel

/-- `GET_BITS_COUNT` after W2: 44, with a fault latched as in F5. -/
theorem test_getBitsCount : answers (exec .getBitsCount (withStatus true .encodingRangeViolation .none
    (writerState ⟨[(0, 0xAB), (1, 0xCD), (2, 0xE1), (3, 0x23)], 4, 8, 0x45600000, 20⟩ 0 0 0 0)))
    (fun t => decide (t.regs.res0 = 44 ∧ t.status.word = 0x102)) = true := by decide +kernel

/-- W22: `BYTE_ALIGN` of 9 bits. -/
theorem test_byteAlign_nine : answers (exec .byteAlign (writerState ⟨[], 0, 8, 0xD2800000, 23⟩ 0 0 0 0))
    (fun t => decide (t.writer = ⟨[(0, 0xD2), (1, 0x80)], 2, 8, 0, 32⟩)) = true := by decide +kernel

/-- W46: with `CAP_LIMIT = 11` the buffer cannot grow; the cache keeps its bit. -/
theorem test_byteAlign_exhausted : answers (exec .byteAlign (withLimit 11 (writerState
    ⟨[(0, 1), (1, 1), (2, 1), (3, 1), (4, 1), (5, 1), (6, 1), (7, 1)], 8, 8, 0x80000000, 31⟩ 0 0 0 0)))
    (fun t => decide (t.writer.pos = 8 ∧ t.writer.cap = 8 ∧ t.writer.cache = 0x80000000 ∧ t.writer.free = 31 ∧
      t.status.word = 0x188)) = true := by decide +kernel

/-- T14: 8 beats 7, and 9 ties with 8. -/
theorem test_selectTable_noesc : answers (exec .selectTable (rangeState 0 4 [5, 0, 1, 1]))
    (fun t => decide (t.regs.res0 = 9 ∧ t.regs.res1 = 7)) = true := by decide +kernel

/-- T31: the candidate of 24..31 wins. -/
theorem test_selectTable_escape : answers (exec .selectTable (rangeState 0 2 [40, -33]))
    (fun t => decide (t.regs.res0 = 25)) = true := by decide +kernel

/-- K19: a long range with escapes. -/
theorem test_countBits_escape : answers (exec (.countBits 23) (rangeState 0 6 [20, -15, 14, 0, 100, 3]))
    (fun t => decide (t.regs.res0 = 68)) = true := by decide +kernel

/-- K2: a range violation of a query does not latch. -/
theorem test_countBits_violation : answers (exec (.countBits 1) (rangeState 0 4 [2, 1, 0, 0]))
    (fun t => decide (t.regs.res0 = 7 ∧ t.status.word = 0x120)) = true := by decide +kernel

/-- Q7: table 33 is cheaper, 11 against 12. -/
theorem test_count1Bits_cheaper : answers (exec .count1Bits (rangeState 0 2 [1, 0, 0, -1, 0, 1, 0, 0]))
    (fun t => decide (t.regs.res0 = 11 ∧ t.regs.res1 = 1)) = true := by decide +kernel

/-- Q17: `4 * 2^30` does not wrap. -/
theorem test_count1Bits_no_wrap : answers (exec .count1Bits (rangeState 0 0x40000000 []))
    (fun t => decide (t.regs.res0 = 7 ∧ t.status.word = 0x144)) = true := by decide +kernel

/-- E21: both values escaped, signs after their extensions. -/
theorem test_encodePair_escape : answers (exec (.encodePair 25) (writerState emptyWriter 40 0xFFFFFFDF 0 0))
    (fun t => decide (t.writer = ⟨[], 0, 16, 0xFFE52800, 11⟩)) = true := by decide +kernel

/-- E8: no escape in table 5. -/
theorem test_encodePair_plain : answers (exec (.encodePair 5) (writerState emptyWriter 3 0xFFFFFFFE 0 0))
    (fun t => decide (t.writer = ⟨[], 0, 16, 0x02800000, 23⟩)) = true := by decide +kernel

/-- V3: `p = 9`, table 32. -/
theorem test_encodeQuad_a : answers (exec (.encodeQuad 0) (writerState emptyWriter 1 0 0 0xFFFFFFFF))
    (fun t => decide (t.writer = ⟨[], 0, 16, 0x1A000000, 25⟩)) = true := by decide +kernel

/-- V6: four signs, table 33. -/
theorem test_encodeQuad_b : answers (exec (.encodeQuad 1) (writerState emptyWriter 0xFFFFFFFF 1 0xFFFFFFFF 1))
    (fun t => decide (t.writer = ⟨[], 0, 16, 0x0A000000, 24⟩)) = true := by decide +kernel

/-- The state of vector G9a. -/
def granuleState : State :=
  testState emptyWriter ⟨0, 0, 0, 0, 7, 7⟩ [40, -33, 15, 0, 1, 0, 0, 0] ⟨2, 1, 2, 4, 4, 25, 15, 0, 1⟩

/-- G9a: two regions and a quadruple, 35 bits. -/
theorem test_encodeGranule : answers (exec .encodeGranule granuleState)
    (fun t => decide (t.regs.res0 = 35 ∧
      t.writer = ⟨[(0, 0xFF), (1, 0xE5), (2, 0x28), (3, 0x7B)], 4, 16, 0x80000000, 29⟩)) = true := by decide +kernel

/-- The state of vector G19. -/
def badGranuleState : State :=
  testState ⟨[], 0, 16, 0xA0000000, 29⟩ ⟨5, 0, 0, 0, 7, 7⟩ [1, 1, 2, -1] ⟨2, 0, 4, 4, 4, 1, 1, 1, 0⟩

/-- G19: the second pair fails, so the first is not emitted. -/
theorem test_encodeGranule_violation : answers (exec .encodeGranule badGranuleState)
    (fun t => decide (t.regs.res0 = 7 ∧ t.writer = ⟨[], 0, 16, 0xA0000000, 29⟩ ∧ t.status.word = 0x122)) = true := by
  decide +kernel

/-! ## Witnesses: the host's accesses -/

/-- The writer after W2: 4 bytes in `OUT`, 12 bits in the cache. -/
def midWriter : Writer := ⟨[(0, 0xAB), (1, 0xCD), (2, 0xE1), (3, 0x23)], 4, 8, 0x45600000, 20⟩

/-- A writer whose next word needs growth (W31). -/
def fullWriter : Writer :=
  ⟨[(0, 1), (1, 2), (2, 3), (3, 4), (4, 5), (5, 6), (6, 7), (7, 8)], 8, 8, 0x80000000, 31⟩

/-- `midWriter` with `OP0` given. -/
def midState (a : Word) : State := writerState midWriter a 0 0 0

/-- `fullWriter` with `OP0` given, the limit at `limit`. -/
def fullState (limit : Nat) (a : Word) : State := withLimit limit (writerState fullWriter a 0 0 0)

theorem midState_inv (a : Word) : (midState a).Inv := by
  have h : (midState 0).Inv := inv_of_check (by decide +kernel)
  exact ⟨h.1, h.2, h.3, h.4, h.5, h.6, h.7, h.8⟩

theorem midState_ready (a : Word) : (midState a).Ready := ⟨rfl, rfl⟩

theorem witness_PowerOnRefusesIllFormedRom :
    testParams.WellFormed ∧ ¬ (Params.mk ⟨[]⟩ 8 .later .first 1).WellFormed :=
  ⟨testParams_wellFormed, fun h => absurd h.1.1.1 (by decide)⟩

theorem witness_StepKeepsStateInvariant :
    (withQueue [commandAction 0x03180000] (midState 0x123456)).Inv ∧
      ∃ t, step (withQueue [commandAction 0x03180000] (midState 0x123456)) = .next t := by
  refine ⟨inv_of_check (by decide +kernel), ?_⟩
  obtain ⟨t, h, _⟩ := of_answers (o := step (withQueue [commandAction 0x03180000] (midState 0x123456)))
    (p := fun t => decide (t.writer.pos = 8)) (by decide +kernel)
  exact ⟨t, h⟩

/-- The last `IX` entry and the first and last reserved offsets are in the ranges named. -/
theorem witness_HostWritesSetOneRegister : 575 < 576 ∧ 0x54 ≤ 4 * 21 ∧ 4 * 1023 ≤ 0xFFC := by decide

theorem witness_HostWritesSetOneRegister_last :
    answers (step (withQueue [.write .word (0x1000 + 4 * 575) 5] (midState 0)))
      (fun t => decide (t.ix.read 575 = some 5)) = true := by decide +kernel

theorem witness_HostReadsAnswerRegisters : (rangeState 0 0 [3, -4]).ix.read 1 = some 0xFFFFFFFC ∧ 1 < 576 := by decide

theorem witness_ReadsHaveNoSideEffect :
    (∃ t, step { midState 0 with hostQueue := [.read .word 0x20] } = .next t) ∧
      ∃ t, step { midState 0 with hostQueue := [.readOut 4] } = .next t :=
  ⟨⟨_, rfl⟩, ⟨_, rfl⟩⟩

theorem witness_OutReadsAnswerTheStream :
    (midState 0).Inv ∧ (midState 0).status.init = true ∧ 3 < (midState 0).writer.pos ∧ (midState 0).writer.pos ≤ 4 :=
  ⟨midState_inv 0, rfl, by decide, by decide⟩

theorem witness_AccessesOutsideTheMapStop :
    (AccessSize.half ≠ .word ∨ 0 % 4 ≠ 0) ∧ (AccessSize.word ≠ .word ∨ 0x1902 % 4 ≠ 0) ∧
      0x1900 % 4 = 0 ∧ 0x1900 ≤ 0x1900 := by decide

theorem witness_CommandsNeverWriteInputs : ∃ t, exec (.writeBits 24) (midState 0) = .next t :=
  (of_answers (p := fun t => decide (t.writer.pos = 8)) (by decide +kernel)).imp fun _ h => h.1

theorem witness_ResultsWrittenOnlyOnSuccess :
    (∃ t, exec (.writeBits 33) (midState 0) = .next t ∧ t.status.last ≠ .none) ∧
      (∃ t, exec .getBitsCount (midState 0) = .next t ∧ t.regs.res0 ≠ (midState 0).regs.res0) ∧
      ∃ t, exec .count1Bits (rangeState 0 1 [0, 1, 0, 0]) = .next t ∧ t.regs.res1 ≠ 7 := by
  refine ⟨?_, ?_, ?_⟩
  · obtain ⟨t, h, hp⟩ := of_answers (o := exec (.writeBits 33) (midState 0))
      (p := fun t => decide (t.status.last ≠ .none)) (by decide +kernel)
    exact ⟨t, h, of_decide_eq_true hp⟩
  · obtain ⟨t, h, hp⟩ := of_answers (o := exec .getBitsCount (midState 0))
      (p := fun t => decide (t.regs.res0 ≠ (midState 0).regs.res0)) (by decide +kernel)
    exact ⟨t, h, of_decide_eq_true hp⟩
  · obtain ⟨t, h, hp⟩ := of_answers (o := exec .count1Bits (rangeState 0 1 [0, 1, 0, 0]))
      (p := fun t => decide (t.regs.res1 ≠ 7)) (by decide +kernel)
    exact ⟨t, h, of_decide_eq_true hp⟩

theorem witness_OutBytesBelowPosAreFinal :
    (withQueue [commandAction 0x05000000] (midState 0)).Inv ∧
      (∃ t, step (withQueue [commandAction 0x05000000] (midState 0)) = .next t) ∧
      (withQueue [commandAction 0x02000000] (midState 0)).Inv ∧
      ∃ t, step (withQueue [commandAction 0x02000000] (midState 0)) = .next t := by
  refine ⟨inv_of_check (by decide +kernel), ?_, inv_of_check (by decide +kernel), ?_⟩
  · exact (of_answers (p := fun t => decide (t.writer.pos = 6)) (by decide +kernel)).imp fun _ h => h.1
  · exact (of_answers (p := fun t => decide (t.writer.pos = 0)) (by decide +kernel)).imp fun _ h => h.1

/-! ## Witnesses: encoding and faults -/

theorem witness_DecodeOfEncode : (Instr.encodeQuad 255).wellFormed = true ∧ Instr.reset.wellFormed = true := by decide

/-- X8: a word with a non-zero zero field. -/
theorem illegal_word (i : Instr) : decode 0x03200001#32 ≠ .ok i := by
  rw [show decode 0x03200001#32 = .error .nonzeroZeroField by decide]
  exact fun h => nomatch h

theorem witness_IllegalWordsRaiseIllegalCommand :
    (withQueue [commandAction 0x03200001] (midState 0)).hostQueue = commandAction 0x03200001 :: [] ∧
      (∀ i, decode 0x03200001#32 ≠ .ok i) ∧ (midState 0).Ready ∧ 33 ≤ 33 ∧ 32 ≤ 32 ∧ 2 ≤ 2 ∧ 255 ≤ 255 :=
  ⟨rfl, illegal_word, midState_ready 0, by decide, by decide, by decide, by decide⟩

theorem witness_StepRunsTheDecodedCommand :
    (withQueue [commandAction 0x13010000] (midState 0)).hostQueue = commandAction 0x13010000 :: [] ∧
      decode 0x13010000#32 = .ok (.encodePair 1) ∧ (Instr.encodePair 255).wellFormed = true ∧
      (midState 0).hostQueue = [] :=
  ⟨rfl, by decide, by decide, rfl⟩

/-- One pending word with each outcome of the entry checks. -/
theorem witness_EntryChecksInOrder :
    (∀ i, decode 0x03200001#32 ≠ .ok i) ∧ decode 0x03080000#32 = .ok (.writeBits 8) ∧
      Instr.writeBits 8 ≠ .new ∧ Instr.writeBits 8 ≠ .getBitsCount ∧
      (withQueue [commandAction 0x03080000] (withStatus false .none .none (midState 0))).hostQueue =
        commandAction 0x03080000 :: [] ∧
      (withStatus false .none .none (midState 0)).status.init = false ∧
      (withStatus true .bufferExhausted .none (midState 0)).status.fault ≠ .none ∧
      (midState 0).status.init = true ∧ (midState 0).status.fault = .none :=
  ⟨illegal_word, by decide, by decide, by decide, rfl, rfl, by decide, rfl, rfl⟩

/-- A latching fault, and the range violation of a query, which does not latch. -/
theorem witness_FaultsFollowTheLatchRule :
    (∃ t, exec (.encodePair 1) (writerState emptyWriter 2 0 0 0) = .next t ∧
      t.status.last = .encodingRangeViolation ∧ ¬ IsQuery (.encodePair 1)) ∧
    ∃ t, exec (.countBits 1) (rangeState 0 4 [2, 1, 0, 0]) = .next t ∧
      t.status.last = .encodingRangeViolation ∧ IsQuery (.countBits 1) := by
  refine ⟨?_, ?_⟩
  · obtain ⟨t, h, hp⟩ := of_answers (o := exec (.encodePair 1) (writerState emptyWriter 2 0 0 0))
      (p := fun t => decide (t.status.last = .encodingRangeViolation)) (by decide +kernel)
    refine ⟨t, h, of_decide_eq_true hp, ?_⟩
    rintro (h | ⟨_, h⟩ | h) <;> cases h
  · obtain ⟨t, h, hp⟩ := of_answers (o := exec (.countBits 1) (rangeState 0 4 [2, 1, 0, 0]))
      (p := fun t => decide (t.status.last = .encodingRangeViolation)) (by decide +kernel)
    exact ⟨t, h, of_decide_eq_true hp, .inr (.inl ⟨1, rfl⟩)⟩

theorem witness_CommandsBeforeNewRaiseNotInitialised :
    Instr.byteAlign ≠ .new ∧ (withStatus false .none .none (midState 0)).status.init = false ∧ (midState 0).Ready ∧
      ∃ t, exec .byteAlign (midState 0) = .next t :=
  ⟨by decide, rfl, midState_ready 0,
    (of_answers (p := fun t => decide (t.writer.pos = 6)) (by decide +kernel)).imp fun _ h => h.1⟩

/-- A `NEW` step that clears a latched fault, and one that sets `INIT`. -/
theorem witness_OnlyNewClearsFaultAndSetsInit :
    (∃ t, step (withQueue [commandAction 0x01000000] (withStatus true .bufferExhausted .none (midState 8))) = .next t ∧
      t.status.fault = .none) ∧
    ∃ t, step (withQueue [commandAction 0x01000000] (withStatus false .none .none (midState 8))) = .next t ∧
      t.status.init = true := by
  refine ⟨?_, ?_⟩
  · obtain ⟨t, h, hp⟩ := of_answers
      (o := step (withQueue [commandAction 0x01000000] (withStatus true .bufferExhausted .none (midState 8))))
      (p := fun t => decide (t.status.fault = .none)) (by decide +kernel)
    exact ⟨t, h, of_decide_eq_true hp⟩
  · obtain ⟨t, h, hp⟩ := of_answers
      (o := step (withQueue [commandAction 0x01000000] (withStatus false .none .none (midState 8))))
      (p := fun t => decide (t.status.init = true)) (by decide +kernel)
    exact ⟨t, h, of_decide_eq_true hp⟩

/-! ## Witnesses: the writer -/

/-- Both ends of the capacity's range, and the values next to them (W51 to W54). -/
theorem witness_NewInitialisesOrFaults :
    (8 ≤ (midState 8).regs.op0.toNat ∧ (midState 8).regs.op0.toNat ≤ (midState 8).params.capLimit) ∧
      (8 ≤ (midState 0x1FFFFFFF).regs.op0.toNat ∧
        (midState 0x1FFFFFFF).regs.op0.toNat ≤ (midState 0x1FFFFFFF).params.capLimit) ∧
      (midState 7).regs.op0.toNat < 8 ∧
      (midState 0x20000000).params.capLimit < (midState 0x20000000).regs.op0.toNat ∧
      Instr.reset ≠ .new ∧ (withStatus false .none .none (midState 0)).status.init = false := by decide

theorem witness_ResetEmptiesTheStream :
    (midState 0).status.init = true ∧ (midState 0).status.fault = .none ∧
      (withStatus true .bufferExhausted .none (midState 0)).status.fault ≠ .none := by decide

theorem witness_WriteBitsMergesIntoCache :
    (midState 5).Ready ∧ (midState 5).Inv ∧ 1 ≤ 1 ∧ 19 < (midState 5).writer.free :=
  ⟨midState_ready 5, midState_inv 5, by decide, by decide⟩

theorem fullState_inv : (fullState 18 5).Inv ∧ (fullState 11 5).Inv :=
  ⟨inv_of_check (by decide +kernel), inv_of_check (by decide +kernel)⟩

/-- `n = free` and `n = 32`, without growth and with it. -/
theorem witness_WriteBitsFlushesFullWord :
    (midState 5).Ready ∧ (midState 5).Inv ∧ (midState 5).writer.free ≤ 20 ∧ 32 ≤ 32 ∧
      4 ≤ (midState 5).writer.cap - (midState 5).writer.pos ∧
      (fullState 18 5).Ready ∧ (fullState 18 5).Inv ∧ (fullState 18 5).writer.free ≤ 31 ∧
      (fullState 18 5).writer.cap - (fullState 18 5).writer.pos < 4 ∧
      (fullState 18 5).writer.cap + (fullState 18 5).writer.cap / 2 ≤ (fullState 18 5).params.capLimit :=
  ⟨midState_ready 5, midState_inv 5, by decide, by decide, by decide, ⟨rfl, rfl⟩, fullState_inv.1, by decide, by decide,
    by decide⟩

theorem witness_WriteBitsCornerCases :
    (fullState 11 5).Ready ∧ (fullState 11 5).Inv ∧ (fullState 11 5).writer.free ≤ 31 ∧ 32 < 33 ∧
      (fullState 11 5).writer.cap - (fullState 11 5).writer.pos < 4 ∧
      (fullState 11 5).params.capLimit < (fullState 11 5).writer.cap + (fullState 11 5).writer.cap / 2 :=
  ⟨⟨rfl, rfl⟩, fullState_inv.2, by decide, by decide, by decide, by decide⟩

theorem midWriter_inv : midWriter.Inv 18 := ⟨by decide, by decide, by decide, by decide, by decide, by decide, by decide⟩

theorem witness_EmitAppendsItsBits :
    midWriter.Inv 18 ∧ 32 ≤ 32 ∧ (∃ w', emit 18 midWriter 5 32 = .ok w') ∧ (midState 5).Ready ∧ (midState 5).Inv ∧
      ∃ t, exec (.writeBits 32) (midState 5) = .next t ∧ t.status.last = .none := by
  refine ⟨midWriter_inv, by decide, ⟨_, rfl⟩, midState_ready 5, midState_inv 5, ?_⟩
  obtain ⟨t, h, hp⟩ := of_answers (o := exec (.writeBits 32) (midState 5))
    (p := fun t => decide (t.status.last = .none)) (by decide +kernel)
  exact ⟨t, h, of_decide_eq_true hp⟩

theorem witness_BitCountIsStreamLength :
    (midState 0).Inv ∧ (midState 0).status.init = true ∧ (midState 0).writer.stream.length < 2 ^ 32 ∧
      (midState 0).writer.pos ≤ 2 ^ 29 - 4 ∧ (withStatus false .none .none (midState 0)).Inv ∧
      (withStatus false .none .none (midState 0)).status.init = false :=
  ⟨midState_inv 0, rfl, by decide +kernel, by decide, inv_of_check (by decide +kernel), rfl⟩

theorem witness_ByteAlignWritesPendingBytes :
    (writerState emptyWriter 0 0 0 0).Inv ∧ (writerState emptyWriter 0 0 0 0).writer.free = 32 ∧
      (midState 0).Inv ∧ (midState 0).writer.free < 32 ∧ 4 ≤ (midState 0).writer.cap - (midState 0).writer.pos ∧
      (fullState 18 0).writer.free < 32 ∧
      (fullState 18 0).writer.cap + (fullState 18 0).writer.cap / 2 ≤ (fullState 18 0).params.capLimit ∧
      (fullState 11 0).writer.cap - (fullState 11 0).writer.pos < 4 ∧
      (fullState 11 0).params.capLimit < (fullState 11 0).writer.cap + (fullState 11 0).writer.cap / 2 :=
  ⟨inv_of_check (by decide +kernel), by decide, midState_inv 0, by decide, by decide, by decide, by decide, by decide,
    by decide⟩

/-- The alignment of `midState` completes; so do the statements' other premises about a completed `BYTE_ALIGN`. -/
theorem witness_ByteAlignPadsWithZeros : (midState 0).Ready ∧ (midState 0).Inv ∧
    ∃ t, exec .byteAlign (midState 0) = .next t ∧ t.status.last = .none := by
  refine ⟨midState_ready 0, midState_inv 0, ?_⟩
  obtain ⟨t, h, hp⟩ := of_answers (o := exec .byteAlign (midState 0))
    (p := fun t => decide (t.status.last = .none)) (by decide +kernel)
  exact ⟨t, h, of_decide_eq_true hp⟩

theorem witness_BitCountIsConserved :
    (midState 0).Ready ∧ (midState 0).Inv ∧
      (∃ t, CompletesAs (writeSymbols [(0x123, 12), (7, 0), (0xFFFFFFFF, 32)]) (midState 0) t) ∧
      ∃ t, exec .reset (midState 0) = .next t ∧ t.status.last = .none := by
  refine ⟨midState_ready 0, midState_inv 0, completesAs_of_runSymbols (by decide +kernel), ?_⟩
  obtain ⟨t, h, hp⟩ := of_answers (o := exec .reset (midState 0))
    (p := fun t => decide (t.status.last = .none)) (by decide +kernel)
  exact ⟨t, h, of_decide_eq_true hp⟩

/-- W10 and its round trip: the writer after the alignment holds the field in two bytes of `OUT`. -/
theorem witness_WrittenFieldReadsBackMasked :
    (writerState emptyWriter 0xDEADBEEF 0 0 0).Ready ∧ (writerState emptyWriter 0xDEADBEEF 0 0 0).Inv ∧
      exec (.writeBits 16) (writerState emptyWriter 0xDEADBEEF 0 0 0) =
        .next (writerState ⟨[], 0, 16, 0xBEEF0000, 16⟩ 0xDEADBEEF 0 0 0) ∧
      Writer.Inv capLimitMax ⟨[(0, 0xBE), (1, 0xEF)], 2, 16, 0, 32⟩ ∧
      Writer.stream ⟨[], 0, 16, 0xBEEF0000, 16⟩ <+: Writer.stream ⟨[(0, 0xBE), (1, 0xEF)], 2, 16, 0, 32⟩ ∧
      (Writer.stream emptyWriter).length + 16 ≤ 8 * 2 :=
  ⟨⟨rfl, rfl⟩, inv_of_check (by decide +kernel), rfl,
    ⟨by decide, by decide, by decide, by decide, by decide, by decide, by decide⟩, by decide +kernel, by decide +kernel⟩

/-- W28 and W29. -/
theorem witness_EmitsSplitAndMerge :
    emptyWriter.Inv 18 ∧ 5 + 7 ≤ 32 ∧
      emit 18 emptyWriter 0x1F3 5 = .ok ⟨[], 0, 16, 0x98000000, 27⟩ ∧
      emit 18 ⟨[], 0, 16, 0x98000000, 27⟩ 0x2A 7 = .ok ⟨[], 0, 16, 0x9AA00000, 20⟩ ∧
      emit 18 emptyWriter (0x1F3 % 2 ^ 5 * 2 ^ 7 + 0x2A % 2 ^ 7) (5 + 7) = .ok ⟨[], 0, 16, 0x9AA00000, 20⟩ ∧
      fieldsBits [⟨0x1F3, 5⟩, ⟨0x2A, 7⟩] = fieldsBits [⟨0x9AA, 12⟩] ∧
      emitFields 18 emptyWriter [⟨0x1F3, 5⟩, ⟨0x2A, 7⟩] = .ok ⟨[], 0, 16, 0x9AA00000, 20⟩ ∧
      emitFields 18 emptyWriter [⟨0x9AA, 12⟩] = .ok ⟨[], 0, 16, 0x9AA00000, 20⟩ :=
  ⟨⟨by decide, by decide, by decide, by decide, by decide, by decide, by decide⟩, by decide, by decide +kernel,
    by decide +kernel, by decide +kernel, by decide, by decide +kernel, by decide +kernel⟩

/-- W1, W2 from `NEW 8`, as `emit`s and as commands. -/
theorem witness_WriterIsAFunctionOfItsStream :
    8 ≤ 8 ∧ 8 ≤ 18 ∧ (∀ f ∈ [Machine.Field.mk 0xABCDE 20, Machine.Field.mk 0x123456 24], f.width ≤ 32) ∧
      emitFields 18 ⟨[], 0, 8, 0, 32⟩ [⟨0xABCDE, 20⟩, ⟨0x123456, 24⟩] = .ok midWriter ∧
      (writerState ⟨[], 0, 8, 0, 32⟩ 0 0 0 0).Ready ∧ (writerState ⟨[], 0, 8, 0, 32⟩ 0 0 0 0).Inv ∧
      (∃ t, CompletesAs (writeSymbols [(0xABCDE, 20), (0x123456, 24)]) (writerState ⟨[], 0, 8, 0, 32⟩ 0 0 0 0) t) ∧
      (∃ t, exec .new (midState 8) = .next t ∧ t.status.last = .none) ∧
      ∃ t, exec .reset (midState 8) = .next t ∧ t.status.last = .none := by
  refine ⟨by decide, by decide, by decide, by decide +kernel, ⟨rfl, rfl⟩, inv_of_check (by decide +kernel),
    completesAs_of_runSymbols (by decide +kernel), ?_, ?_⟩
  · obtain ⟨t, h, hp⟩ := of_answers (o := exec .new (midState 8)) (p := fun t => decide (t.status.last = .none))
      (by decide +kernel)
    exact ⟨t, h, of_decide_eq_true hp⟩
  · obtain ⟨t, h, hp⟩ := of_answers (o := exec .reset (midState 8)) (p := fun t => decide (t.status.last = .none))
      (by decide +kernel)
    exact ⟨t, h, of_decide_eq_true hp⟩

theorem witness_StreamBitsStandMostSignificantFirst : midWriter.Inv 18 ∧ 31 < 8 * midWriter.pos :=
  ⟨midWriter_inv, by decide⟩

/-- W18: 37 stuffing bits, and 0 of them. -/
theorem witness_StuffingAppendsOnes : (midState 0).Ready ∧ (midState 0).Inv ∧
    (∃ t, CompletesAs (writeSymbols (stuffWrites 37)) (midState 0) t) ∧
      ∃ t, CompletesAs (writeSymbols (stuffWrites 0)) (midState 0) t :=
  ⟨midState_ready 0, midState_inv 0, completesAs_of_runSymbols (by decide +kernel),
    completesAs_of_runSymbols (by decide +kernel)⟩

/-! ## Witnesses: table selection and counting -/

theorem rangeState_ready (b e : Word) (ix : List Int) : (rangeState b e ix).Ready := ⟨rfl, rfl⟩

theorem rangeState_rom (b e : Word) (ix : List Int) : (rangeState b e ix).params.ht.WellFormed := testRom_wellFormed

/-- Two states whose coefficients differ in sign only, with different writers. -/
theorem witness_QueriesArePure :
    IsQuery .selectTable ∧ (rangeState 0 2 [3, -1]).Ready ∧ (withLimit 18 (rangeState 0 2 [-3, 1])).Ready ∧
      (rangeState 0 2 [3, -1]).regs.op0 = (withLimit 18 (rangeState 0 2 [-3, 1])).regs.op0 ∧
      (∀ k, 0 ≤ k → k < 2 → (coefficient (rangeState 0 2 [3, -1]) k).natAbs =
        (coefficient (withLimit 18 (rangeState 0 2 [-3, 1])) k).natAbs) ∧
      (∃ t, exec .selectTable (rangeState 0 2 [3, -1]) = .next t ∧ t.status.last = .none) ∧
      ∃ t, exec .selectTable (withLimit 18 (rangeState 0 2 [-3, 1])) = .next t := by
  refine ⟨.inl rfl, ⟨rfl, rfl⟩, ⟨rfl, rfl⟩, rfl, ?_, ?_, ?_⟩
  · intro k _ hk
    interval_cases k <;> decide
  · obtain ⟨t, h, hp⟩ := of_answers (o := exec .selectTable (rangeState 0 2 [3, -1]))
      (p := fun t => decide (t.status.last = .none)) (by decide +kernel)
    exact ⟨t, h, of_decide_eq_true hp⟩
  · exact (of_answers (p := fun t => decide (t.status.last = .none)) (by decide +kernel)).imp fun _ h => h.1

/-- T43 to T46 for the first clause; T41 and T24 for the second. -/
theorem witness_BadRangesRaiseInvalidIndex :
    (rangeState 4 2 []).Ready ∧ (rangeState 4 2 []).params.ht.WellFormed ∧
      (rangeState 4 2 []).regs.op1.toNat < (rangeState 4 2 []).regs.op0.toNat ∧
      576 < (rangeState 0 578 []).regs.op1.toNat ∧
      ((rangeState 575 576 []).regs.op1.toNat - (rangeState 575 576 []).regs.op0.toNat) % 2 ≠ 0 ∧ 31 ≤ 31 ∧
      (rangeState 576 576 []).regs.op0.toNat ≤ (rangeState 576 576 []).regs.op1.toNat ∧
      (rangeState 576 576 []).regs.op1.toNat ≤ 576 ∧
      ((rangeState 1 3 []).regs.op1.toNat - (rangeState 1 3 []).regs.op0.toNat) % 2 = 0 ∧
      ∃ u, exec .selectTable (rangeState 1 3 [5, 1, 9, 9]) = .next u :=
  ⟨⟨rfl, rfl⟩, testRom_wellFormed, by decide, by decide, by decide, by decide, by decide, by decide, by decide,
    (of_answers (p := fun t => decide (t.regs.res0 = 15)) (by decide +kernel)).imp fun _ h => h.1⟩

/-- T3's silent part, and the empty range of T41. -/
theorem witness_SelectTableOfZerosIsZero :
    (rangeState 1 3 [9, 0, 0]).Ready ∧
      RangeOk (rangeState 1 3 [9, 0, 0]).regs.op0.toNat (rangeState 1 3 [9, 0, 0]).regs.op1.toNat ∧
      (∀ k, 1 ≤ k → k < 3 → coefficient (rangeState 1 3 [9, 0, 0]) k = 0) ∧ RangeOk 576 576 := by
  refine ⟨⟨rfl, rfl⟩, ⟨by decide, by decide, by decide⟩, fun k h1 h2 => ?_, ⟨by decide, by decide, by decide⟩⟩
  interval_cases k <;> decide

theorem representable_of_check {s : State} {b e t : Nat}
    (h : ∀ k, k < (e - b) / 2 →
      if 15 < t then (coefficient s (b + 2 * k)).natAbs ≤ 15 + (s.params.ht.table t).linmax ∧
        (coefficient s (b + 2 * k + 1)).natAbs ≤ 15 + (s.params.ht.table t).linmax
      else (coefficient s (b + 2 * k)).natAbs < (s.params.ht.table t).xlen ∧
        (coefficient s (b + 2 * k + 1)).natAbs < (s.params.ht.table t).ylen) : RangeRepresentable s b e t := h

/-- T14: largest magnitude 5, first choice 7, candidates 7, 8, 9. -/
theorem witness_SelectTableWithoutEscape :
    (rangeState 0 4 [5, 0, 1, 1]).Ready ∧ (rangeState 0 4 [5, 0, 1, 1]).params.ht.WellFormed ∧ RangeOk 0 4 ∧
      IsMaxAbs (rangeState 0 4 [5, 0, 1, 1]) 0 4 5 ∧ 1 ≤ 5 ∧ 5 ≤ 14 ∧ IsNoEscapeChoice testRom 5 7 ∧
      ∀ t ∈ candidates 7, RangeRepresentable (rangeState 0 4 [5, 0, 1, 1]) 0 4 t := by
  refine ⟨⟨rfl, rfl⟩, testRom_wellFormed, ⟨by decide, by decide, by decide⟩, ⟨?_, 0, by decide, by decide, by decide⟩,
    by decide, by decide, ⟨by decide, by decide, by decide⟩, ?_⟩
  · intro i _ h
    interval_cases i <;> decide
  · intro t ht
    have ht' : t = 7 ∨ t = 8 ∨ t = 9 := by simpa [candidates] using ht
    rcases ht' with rfl | rfl | rfl <;> exact representable_of_check (by decide +kernel)

/-- T30 and T25: candidates 20 and 25; candidate 15, which holds the range, and 24. -/
theorem witness_SelectTableWithEscape :
    (rangeState 0 2 [31, 1]).Ready ∧ (rangeState 0 2 [31, 1]).params.ht.WellFormed ∧ RangeOk 0 2 ∧
      IsMaxAbs (rangeState 0 2 [31, 1]) 0 2 31 ∧ 15 ≤ 31 ∧ IsEscapeChoice testRom 15 23 31 20 ∧
      IsEscapeChoice testRom 24 31 31 25 ∧
      IsMaxAbs (rangeState 0 2 [15, 0]) 0 2 15 ∧ IsEscapeChoice testRom 15 23 15 15 ∧
      IsEscapeChoice testRom 24 31 15 24 ∧ RangeRepresentable (rangeState 0 2 [15, 0]) 0 2 15 := by
  refine ⟨⟨rfl, rfl⟩, testRom_wellFormed, ⟨by decide, by decide, by decide⟩, ⟨?_, 0, by decide, by decide, by decide⟩,
    by decide, ⟨by decide, by decide, by decide, by decide⟩, ⟨by decide, by decide, by decide, by decide⟩,
    ⟨?_, 0, by decide, by decide, by decide⟩, ⟨by decide, by decide, by decide, by decide⟩,
    ⟨by decide, by decide, by decide, by decide⟩, representable_of_check (by decide +kernel)⟩
  · intro i _ h
    interval_cases i <;> decide
  · intro i _ h
    interval_cases i <;> decide

/-- A well-formed ROM whose table 1 is 2 by 1 and whose tables 2 to 15 are empty. -/
def sparseRom : Rom :=
  ⟨[Table.empty, plainTable 2 1 [0, 1] [1, 1]] ++ List.replicate 14 Table.empty ++
   [1, 2, 3, 4, 6, 8, 10, 13].map testTable16 ++ [4, 5, 6, 7, 8, 9, 11, 13].map testTable24 ++
   [referenceTable32, referenceTable33]⟩

theorem sparseRom_table (t : Nat) (h16 : 16 ≤ t) (h34 : t < 34) : sparseRom.table t = testRom.table t := by
  interval_cases t <;> rfl

theorem sparseRom_wellFormed : sparseRom.WellFormed := by
  refine wellFormed_of_entries rfl rfl fun t h1 h34 => ?_
  by_cases h16 : 16 ≤ t
  · rw [sparseRom_table t h16 h34]
    exact testRom_entryOk t h1 h34
  · by_cases ht : t = 1
    · subst ht
      exact plain_entryOk (by decide) (by decide) (by decide) (by decide) (by decide)
    · rw [show sparseRom.table t = Table.empty by interval_cases t <;> first | rfl | exact absurd rfl ht]
      exact empty_entryOk (by omega)

/-- `rangeState` under the sparse ROM. -/
def sparseState (b e : Word) (ix : List Int) : State :=
  { rangeState b e ix with params := { testParams with ht := sparseRom } }

/-- T35 for a magnitude no escape table holds; under the sparse ROM, a largest magnitude of 2 for which every table of 0..14
is too small, the pair (0, 1) whose second value its first choice cannot hold, and a 15 for which table 15 is chosen and
is empty. -/
theorem witness_SelectTableReportsRangeViolation :
    (rangeState 0 2 [8207, 0]).Ready ∧ (rangeState 0 2 [8207, 0]).params.ht.WellFormed ∧ RangeOk 0 2 ∧
      IsMaxAbs (rangeState 0 2 [8207, 0]) 0 2 8207 ∧
      (∀ t, 15 ≤ t → t ≤ 23 → (testRom.table t).linmax < 8207 - 15) ∧
      sparseRom.WellFormed ∧ IsMaxAbs (sparseState 0 2 [2, 0]) 0 2 2 ∧ (∀ t, t ≤ 14 → (sparseRom.table t).xlen ≤ 2) ∧
      IsMaxAbs (sparseState 0 2 [0, 1]) 0 2 1 ∧ IsNoEscapeChoice sparseRom 1 1 ∧ 1 ∈ candidates 1 ∧
      ¬ RangeRepresentable (sparseState 0 2 [0, 1]) 0 2 1 ∧
      IsMaxAbs (sparseState 0 2 [15, 0]) 0 2 15 ∧ IsEscapeChoice sparseRom 15 23 15 15 ∧
      IsEscapeChoice sparseRom 24 31 15 24 ∧ ¬ RangeRepresentable (sparseState 0 2 [15, 0]) 0 2 15 := by
  refine ⟨⟨rfl, rfl⟩, testRom_wellFormed, ⟨by decide, by decide, by decide⟩, ⟨?_, 0, by decide, by decide, by decide⟩, ?_,
    sparseRom_wellFormed, ⟨?_, 0, by decide, by decide, by decide⟩, by decide, ⟨?_, 1, by decide, by decide, by decide⟩,
    ⟨by decide, by decide, by decide⟩, by decide, ?_, ⟨?_, 0, by decide, by decide, by decide⟩,
    ⟨by decide, by decide, by decide, by decide⟩, ⟨by decide, by decide, by decide, by decide⟩, ?_⟩
  · intro i _ h
    interval_cases i <;> decide
  · intro t h1 h2
    interval_cases t <;> decide
  · intro i _ h
    interval_cases i <;> decide
  · intro i _ h
    interval_cases i <;> decide
  · intro h
    have h0 : (1 : Nat) < 1 := (h 0 (by decide)).2
    exact absurd h0 (by decide)
  · intro i _ h
    interval_cases i <;> decide
  · intro h
    have h0 : (15 : Nat) < 0 := (h 0 (by decide)).1
    exact absurd h0 (by decide)

/-- K19, and table 0. -/
theorem witness_CountBitsSumsPairCosts :
    (rangeState 0 6 [20, -15, 14, 0, 100, 3]).Ready ∧ (rangeState 0 6 [20, -15, 14, 0, 100, 3]).params.ht.WellFormed ∧
      RangeOk 0 6 ∧ 23 ≤ 31 ∧ RangeRepresentable (rangeState 0 6 [20, -15, 14, 0, 100, 3]) 0 6 23 ∧
      rangeCost (rangeState 0 6 [20, -15, 14, 0, 100, 3]) 0 6 23 = 68 :=
  ⟨⟨rfl, rfl⟩, testRom_wellFormed, ⟨by decide, by decide, by decide⟩, by decide,
    representable_of_check (by decide +kernel), by decide +kernel⟩

/-- K2 and the index above the last table. -/
theorem witness_CountBitsFaultsInOrder :
    (rangeState 0 4 [2, 1, 0, 0]).Ready ∧ (rangeState 0 4 [2, 1, 0, 0]).params.ht.WellFormed ∧ 31 < 32 ∧ 1 ≤ 1 ∧
      RangeOk 0 4 ∧ ¬ RangeRepresentable (rangeState 0 4 [2, 1, 0, 0]) 0 4 1 := by
  refine ⟨⟨rfl, rfl⟩, testRom_wellFormed, by decide, by decide, ⟨by decide, by decide, by decide⟩, fun h => ?_⟩
  have h0 : (2 : Nat) < 2 := (h 0 (by decide)).1
  exact absurd h0 (by decide)

/-- Q13 (the last quadruple) and Q10, Q14, Q11. -/
theorem witness_Count1BitsChoosesCheaperTable :
    (rangeState 0 1 [1, 0, 0, -1]).Ready ∧ (rangeState 0 1 [1, 0, 0, -1]).params.ht.WellFormed ∧
      (∀ k, k < 1 → QuadRepresentableAt (rangeState 0 1 [1, 0, 0, -1]) (0 + 4 * k)) ∧
      (rangeState 576 0 []).regs.op0.toNat + 4 * (rangeState 576 0 []).regs.op1.toNat ≤ 576 ∧
      576 < (rangeState 573 1 []).regs.op0.toNat + 4 * (rangeState 573 1 []).regs.op1.toNat ∧
      ¬ QuadRepresentableAt (rangeState 0 1 [1, 0, 2, 0]) (0 + 4 * 0) := by
  refine ⟨⟨rfl, rfl⟩, testRom_wellFormed, fun k hk => ?_, by decide, by decide, fun h => ?_⟩
  · obtain rfl : k = 0 := by omega
    exact ⟨by decide, by decide, by decide, by decide⟩
  · have h2 : (2 : Nat) ≤ 1 := h.2.2.1
    exact absurd h2 (by decide)

theorem rangeState_inv_quads : (rangeState 0 2 [1, 0, 0, -1, 0, 1, 0, 0]).Inv := inv_of_check (by decide +kernel)

/-- A completed pair and a pair outside its table; a counted range and the commands that encode it. -/
theorem witness_PairCountEqualsEmission :
    (rangeState 0 2 [1, 0, 0, -1, 0, 1, 0, 0]).Ready ∧ (rangeState 0 2 [1, 0, 0, -1, 0, 1, 0, 0]).Inv ∧
      (∃ u, exec (.encodePair 3) (rangeState 0 2 [1, 0, 0, -1, 0, 1, 0, 0]) = .next u ∧ u.status.last = .none) ∧
      (∃ u, exec (.encodePair 1) (rangeState 0 2 [1, 0, 0, -1, 0, 1, 0, 0]) = .next u ∧
        u.status.last = .encodingRangeViolation) ∧
      (∃ u, exec (.countBits 5) { rangeState 0 2 [1, 0, 0, -1, 0, 1, 0, 0] with
        regs := { (rangeState 0 2 [1, 0, 0, -1, 0, 1, 0, 0]).regs with op0 := 2, op1 := 6 } } = .next u ∧
        u.status.last = .none) ∧
      ∃ v, CompletesAs (rangeSymbols (rangeState 0 2 [1, 0, 0, -1, 0, 1, 0, 0]) 2 6 5)
        (rangeState 0 2 [1, 0, 0, -1, 0, 1, 0, 0]) v := by
  refine ⟨⟨rfl, rfl⟩, rangeState_inv_quads, ?_, ?_, ?_, completesAs_of_runSymbols (by decide +kernel)⟩
  · obtain ⟨t, h, hp⟩ := of_answers (o := exec (.encodePair 3) (rangeState 0 2 [1, 0, 0, -1, 0, 1, 0, 0]))
      (p := fun t => decide (t.status.last = .none)) (by decide +kernel)
    exact ⟨t, h, of_decide_eq_true hp⟩
  · obtain ⟨t, h, hp⟩ := of_answers (o := exec (.encodePair 1) (rangeState 0 2 [1, 0, 0, -1, 0, 1, 0, 0]))
      (p := fun t => decide (t.status.last = .encodingRangeViolation)) (by decide +kernel)
    exact ⟨t, h, of_decide_eq_true hp⟩
  · obtain ⟨t, h, hp⟩ := of_answers (o := exec (.countBits 5) { rangeState 0 2 [1, 0, 0, -1, 0, 1, 0, 0] with
      regs := { (rangeState 0 2 [1, 0, 0, -1, 0, 1, 0, 0]).regs with op0 := 2, op1 := 6 } })
      (p := fun t => decide (t.status.last = .none)) (by decide +kernel)
    exact ⟨t, h, of_decide_eq_true hp⟩

/-- A completed quadruple, each of its faults; a counted region, whose select is 1, and the commands that encode it (Q7). -/
theorem witness_QuadCountEqualsEmission :
    (rangeState 0 2 [1, 0, 0, -1, 0, 1, 0, 0]).Ready ∧ (rangeState 0 2 [1, 0, 0, -1, 0, 1, 0, 0]).Inv ∧
      (∃ u, exec (.encodeQuad 1) (rangeState 0 1 []) = .next u ∧ u.status.last = .none) ∧
      (∃ u, exec (.encodeQuad 1) (rangeState 0 2 []) = .next u ∧ u.status.last = .encodingRangeViolation) ∧
      (∃ u, exec (.encodeQuad 2) (rangeState 0 2 []) = .next u ∧ u.status.last = .invalidHuffmanIndex) ∧
      (∃ u, exec .count1Bits (rangeState 0 2 [1, 0, 0, -1, 0, 1, 0, 0]) = .next u ∧
        (u.status.last = .none ∧ u.regs.res1.toNat = 1)) ∧
      ∃ v, CompletesAs (quadSymbols (rangeState 0 2 [1, 0, 0, -1, 0, 1, 0, 0]) 0 2 1)
        (rangeState 0 2 [1, 0, 0, -1, 0, 1, 0, 0]) v := by
  refine ⟨⟨rfl, rfl⟩, rangeState_inv_quads, ?_, ?_, ?_, ?_, completesAs_of_runSymbols (by decide +kernel)⟩
  · obtain ⟨t, h, hp⟩ := of_answers (o := exec (.encodeQuad 1) (rangeState 0 1 []))
      (p := fun t => decide (t.status.last = .none)) (by decide +kernel)
    exact ⟨t, h, of_decide_eq_true hp⟩
  · obtain ⟨t, h, hp⟩ := of_answers (o := exec (.encodeQuad 1) (rangeState 0 2 []))
      (p := fun t => decide (t.status.last = .encodingRangeViolation)) (by decide +kernel)
    exact ⟨t, h, of_decide_eq_true hp⟩
  · obtain ⟨t, h, hp⟩ := of_answers (o := exec (.encodeQuad 2) (rangeState 0 2 []))
      (p := fun t => decide (t.status.last = .invalidHuffmanIndex)) (by decide +kernel)
    exact ⟨t, h, of_decide_eq_true hp⟩
  · obtain ⟨t, h, hp⟩ := of_answers (o := exec .count1Bits (rangeState 0 2 [1, 0, 0, -1, 0, 1, 0, 0]))
      (p := fun t => decide (t.status.last = .none ∧ t.regs.res1.toNat = 1)) (by decide +kernel)
    exact ⟨t, h, of_decide_eq_true hp⟩

/-- `HT_TEST` has the reference metadata (95_test_vectors.md section 2). -/
theorem witness_FirstChoicesUnderReferenceMetadata :
    ∀ t, t < 34 → ((testRom.table t).xlen, (testRom.table t).ylen, (testRom.table t).linbits, (testRom.table t).linmax) =
      referenceMeta.getD t (0, 0, 0, 0) := by decide

/-- `IX` all zero, with a range in `OP0`, `OP1`. -/
def silentState (b e : Word) : State := rangeState b e (List.replicate 576 0)

theorem coefficientsFrom_zeros_read (n : Nat) : ∀ (i k : Nat), i ≤ k → k < i + n →
    (coefficientsFrom i (List.replicate n 0)).read k = some 0 := by
  induction n with
  | zero => intro i k h1 h2; omega
  | succ n ih =>
    intro i k h1 h2
    rw [List.replicate_succ, coefficientsFrom, Memory.read]
    split_ifs with h
    · rfl
    · exact ih (i + 1) k (by omega) (by omega)

theorem coefficientsFrom_range (l : List Int) : ∀ i, ∀ e ∈ coefficientsFrom i l, i ≤ e.1 ∧ e.1 < i + l.length := by
  induction l with
  | nil => exact fun i e h => nomatch h
  | cons v l ih =>
    intro i e h
    rcases List.mem_cons.mp h with rfl | h
    · exact ⟨le_rfl, by simp⟩
    · have := ih (i + 1) e h
      simp only [List.length_cons]
      omega

theorem coefficientsFrom_wf (l : List Int) : ∀ i, Memory.wf (coefficientsFrom i l) := by
  induction l with
  | nil => exact fun i => List.Pairwise.nil
  | cons v l ih => exact fun i => List.Pairwise.cons (fun e he => (coefficientsFrom_range l (i + 1) e he).1) (ih (i + 1))

theorem silentState_inv (b e : Word) : (silentState b e).Inv where
  limit_ge := by show 8 ≤ testParams.capLimit; decide
  limit_le := by show testParams.capLimit ≤ _; decide
  writer := fun _ => ⟨by show 1 ≤ 32; decide, by show 32 ≤ 32; decide, rfl, Nat.zero_le _, by show 8 ≤ 16; decide,
    by show 16 ≤ testParams.capLimit; decide, rfl⟩
  buf_wf := List.Pairwise.nil
  ix_wf := coefficientsFrom_wf _ 0
  ix_range := fun e he => by
    have := (coefficientsFrom_range (List.replicate 576 0) 0 e he).2
    rw [List.length_replicate] at this
    omega
  fault_legal := by show FaultCode.none ≠ _; decide
  last_legal := by show FaultCode.none ≠ _; decide

theorem witness_SilenceCostsAndEmitsNothing :
    (silentState 0 576).Ready ∧ (silentState 0 576).Inv ∧ (∀ k, k < 576 → coefficient (silentState 0 576) k = 0) ∧
      (silentState 0 576).regs.op0 = 0 ∧ RangeOk 0 (silentState 0 576).regs.op1.toNat ∧
      (silentState 0 0).regs.op1 = 0 ∧ (silentState 0 0).granule.bigValues = 0 ∧
      (silentState 0 0).granule.count1 = 0 ∧ GranuleOk (silentState 0 0).granule := by
  refine ⟨⟨rfl, rfl⟩, silentState_inv 0 576, fun k hk => ?_, rfl, ⟨by decide, by decide, by decide⟩, rfl, rfl,
    rfl, ?_⟩
  · have h : (silentState 0 576).ix.read k = some 0 := coefficientsFrom_zeros_read 576 0 k (by omega) (by omega)
    unfold coefficient coefficientWord
    rw [h]
    rfl
  · exact ⟨by decide, by decide, by decide, by decide, by decide, by decide, by decide, by decide, by decide, by decide,
      by decide⟩

/-! ## Witnesses: emission -/

theorem witness_RoomCheckIsExact :
    midWriter.Inv 18 ∧ ∀ f ∈ [Machine.Field.mk 5 32, Machine.Field.mk 7 0], f.width ≤ 32 :=
  ⟨midWriter_inv, by decide⟩

/-- A pair in table 3, one that its table cannot hold, indices at both ends, a pair that fits and one that does not. -/
theorem witness_EncodePairAppendsItsCode :
    (writerState midWriter 2 1 0 0).Ready ∧ (writerState midWriter 2 1 0 0).Inv ∧
      (writerState midWriter 2 1 0 0).params.ht.WellFormed ∧ 31 < 32 ∧ 1 ≤ 3 ∧ 3 ≤ 31 ∧
      ¬ Representable (testRom.table 1) 1 2 1 ∧ Representable (testRom.table 3) 3 2 1 ∧
      HasRoom capLimitMax midWriter (pairCost (testRom.table 3) 3 2 1) ∧
      Representable (testRom.table 23) 23 (-8206) 8206 ∧ pairCost (testRom.table 23) 23 (-8206) 8206 = 36 ∧
      (withLimit 11 (writerState fullWriter (-8206) 8206 0 0)).Inv ∧ ¬ HasRoom 11 fullWriter 36 := by
  refine ⟨⟨rfl, rfl⟩, inv_of_check (by decide +kernel), testRom_wellFormed, by decide, by decide, by decide, ?_, ?_,
    by unfold HasRoom; decide +kernel, ?_, by decide +kernel, inv_of_check (by decide +kernel),
    by unfold HasRoom; decide +kernel⟩
  · intro h
    have h0 : (2 : Nat) < 2 := h.1
    exact absurd h0 (by decide)
  · have h : (2 : Nat) < 3 ∧ (1 : Nat) < 3 := by decide
    exact h
  · have h : (8206 : Nat) ≤ 15 + 8191 ∧ (8206 : Nat) ≤ 15 + 8191 := by decide
    exact h

/-- F20: 10 bits where 2 are free and the buffer cannot grow. -/
theorem witness_EncodeQuadAppendsItsCode :
    (midState 0).Ready ∧ (midState 0).Inv ∧ (midState 0).params.ht.WellFormed ∧ 1 < 2 ∧
      ¬ QuadRepresentable 2 0 0 0 ∧ QuadRepresentable (-1) (-1) (-1) (-1) ∧
      HasRoom capLimitMax midWriter (quadCost (testRom.table 32) (-1) (-1) (-1) (-1)) ∧
      quadCost (testRom.table 32) (-1) (-1) (-1) (-1) = 10 ∧
      (withLimit 11 (writerState { fullWriter with cache := 0xCCCCCCCC, free := 2 } (-1) (-1) (-1) (-1))).Inv ∧
      ¬ HasRoom 11 { fullWriter with cache := 0xCCCCCCCC, free := 2 } 10 := by
  refine ⟨midState_ready 0, midState_inv 0, testRom_wellFormed, by decide, fun h => ?_,
    ⟨by decide, by decide, by decide, by decide⟩, by unfold HasRoom; decide +kernel, by decide +kernel,
    inv_of_check (by decide +kernel), by unfold HasRoom; decide +kernel⟩
  have h0 : (2 : Nat) ≤ 1 := h.1
  exact absurd h0 (by decide)

theorem witness_EmittedCodesDecodeUniquely :
    testRom.WellFormed ∧ 1 ≤ 25 ∧ 25 ≤ 31 ∧ Representable (testRom.table 25) 25 40 (-33) ∧
      pairLayout (testRom.table 25) 25 40 (-33) ++ [true] = pairLayout (testRom.table 25) 25 40 (-33) ++ [true] ∧
      QuadRepresentable 0 (-1) 1 0 := by
  refine ⟨testRom_wellFormed, by decide, by decide, ?_, rfl, ⟨by decide, by decide, by decide, by decide⟩⟩
  have h : (40 : Nat) ≤ 15 + 31 ∧ (33 : Nat) ≤ 15 + 31 := by decide
  exact h

/-- `silentState` with granule registers. -/
def granuleTestState (g : GranuleRegs) : State := { silentState 0 0 with granule := g }

/-- G10 (289 big values), G12 (576 + 4 coefficients), G9b (288 big values, which pass). -/
theorem witness_GranuleRegisterChecksInOrder :
    (granuleTestState ⟨289, 0, 0, 0, 578, 0, 0, 0, 0⟩).Ready ∧
      (granuleTestState ⟨289, 0, 0, 0, 578, 0, 0, 0, 0⟩).params.ht.WellFormed ∧
      288 < (granuleTestState ⟨289, 0, 0, 0, 578, 0, 0, 0, 0⟩).granule.bigValues.toNat ∧
      (granuleTestState ⟨288, 1, 0, 0, 576, 0, 0, 0, 0⟩).granule.bigValues.toNat ≤ 288 ∧
      ¬ GranuleOk ⟨288, 1, 0, 0, 576, 0, 0, 0, 0⟩ ∧ GranuleOk ⟨288, 0, 576, 576, 576, 1, 0, 0, 0⟩ ∧
      ∃ t, exec .encodeGranule granuleState = .next t := by
  refine ⟨⟨rfl, rfl⟩, testRom_wellFormed, by decide, by decide, fun h => ?_, ?_, ?_⟩
  · have h2 : 2 * 288 + 4 * 1 ≤ 576 := h.2.1
    exact absurd h2 (by decide)
  · exact ⟨by decide, by decide, by decide, by decide, by decide, by decide, by decide, by decide, by decide, by decide,
      by decide⟩
  · exact (of_answers (p := fun t => decide (t.regs.res0 = 35)) (by decide +kernel)).imp fun _ h => h.1

theorem granuleState_inv : granuleState.Inv ∧ badGranuleState.Inv :=
  ⟨inv_of_check (by decide +kernel), inv_of_check (by decide +kernel)⟩

theorem granuleState_ok : GranuleOk granuleState.granule ∧ GranuleOk badGranuleState.granule :=
  ⟨⟨by decide, by decide, by decide, by decide, by decide, by decide, by decide, by decide, by decide, by decide,
    by decide⟩,
   ⟨by decide, by decide, by decide, by decide, by decide, by decide, by decide, by decide, by decide, by decide,
    by decide⟩⟩

theorem granuleState_representable : GranuleRepresentable granuleState := by
  refine ⟨fun k hk _ => ?_, fun k hk => ?_⟩
  · have hk' : k = 0 ∨ k = 1 := by
      have : granuleState.granule.bigValues.toNat = 2 := rfl
      omega
    rcases hk' with rfl | rfl
    · have h : (40 : Nat) ≤ 15 + 31 ∧ (33 : Nat) ≤ 15 + 31 := by decide
      exact h
    · have h : (15 : Nat) < 16 ∧ (0 : Nat) < 16 := by decide
      exact h
  · obtain rfl : k = 0 := by
      have : granuleState.granule.count1.toNat = 1 := rfl
      omega
    exact ⟨by decide, by decide, by decide, by decide⟩

/-- G9a, with room and without it, and G19. -/
theorem witness_EncodeGranuleAppendsItsRegions :
    granuleState.Ready ∧ granuleState.Inv ∧ granuleState.params.ht.WellFormed ∧ GranuleOk granuleState.granule ∧
      GranuleRepresentable granuleState ∧
      HasRoom granuleState.params.capLimit granuleState.writer (granuleLayout granuleState).length ∧
      ¬ HasRoom 11 fullWriter (granuleLayout granuleState).length ∧
      badGranuleState.Ready ∧ badGranuleState.Inv ∧ GranuleOk badGranuleState.granule ∧
      ¬ GranuleRepresentable badGranuleState := by
  refine ⟨⟨rfl, rfl⟩, granuleState_inv.1, testRom_wellFormed, granuleState_ok.1, granuleState_representable,
    by unfold HasRoom; decide +kernel, by unfold HasRoom; decide +kernel, ⟨rfl, rfl⟩, granuleState_inv.2,
    granuleState_ok.2, fun h => ?_⟩
  have h2 : (2 : Nat) < 2 := (h.1 1 (by decide) (by decide)).1
  exact absurd h2 (by decide)

theorem witness_GranuleEqualsSingleCommands :
    granuleState.Ready ∧ granuleState.Inv ∧ granuleState.params.ht.WellFormed ∧ GranuleOk granuleState.granule ∧
      (∃ t, exec .encodeGranule granuleState = .next t ∧ t.status.last = .none) ∧
      (∃ u, CompletesAs (granuleSymbols granuleState) granuleState u) ∧
      ∃ t, exec .encodeGranule badGranuleState = .next t ∧ t.status.last ≠ .none := by
  refine ⟨⟨rfl, rfl⟩, granuleState_inv.1, testRom_wellFormed, granuleState_ok.1, ?_,
    completesAs_of_runSymbols (by decide +kernel), ?_⟩
  · obtain ⟨t, h, hp⟩ := of_answers (o := exec .encodeGranule granuleState)
      (p := fun t => decide (t.status.last = .none)) (by decide +kernel)
    exact ⟨t, h, of_decide_eq_true hp⟩
  · obtain ⟨t, h, hp⟩ := of_answers (o := exec .encodeGranule badGranuleState)
      (p := fun t => decide (t.status.last ≠ .none)) (by decide +kernel)
    exact ⟨t, h, of_decide_eq_true hp⟩

end Sys2Proof.Tests
end

section
/-! Proofs about state and reset (spec 10_state.md). First what one command and one step can do to the fields the
statements speak of, then the invariant, then the host's register accesses, then the statements. -/

namespace Sys2Proof.Machine

/-! ## What a command can do -/

/-- What the status of a block may do without a `NEW` (R21, R145): `INIT` stands, and so does a latched `FAULT`. -/
def Status.Keeps (st st' : Status) : Prop := st'.init = st.init ∧ (st.fault ≠ .none → st'.fault = st.fault)

theorem Status.Keeps.refl (st : Status) : st.Keeps st := ⟨rfl, fun _ => rfl⟩

theorem Status.keeps_raise (st : Status) (c : FaultCode) (l : Bool) : st.Keeps (st.raise c l) :=
  ⟨rfl, fun hf => if_neg fun h => hf h.1⟩

/-- The rule of `NEW` completes exactly as the recovery of R145, on a capacity in the bounds of R62. -/
theorem newRule_ok {s s' : State} (h : newRule s = .ok s') :
    8 ≤ s.regs.op0.toNat ∧ s.regs.op0.toNat ≤ s.params.capLimit ∧ s' = recover s.regs.op0.toNat s := by
  unfold newRule capMin at h
  split_ifs at h with hb
  cases h
  exact ⟨by omega, by omega, rfl⟩

/-- A state that a command completed from `s`, other than by `NEW` (R142): another writer, other results, `LAST` 0. -/
def State.completed (s : State) (w : Writer) (v0 v1 : Word) : State :=
  { s.after w v0 v1 with status := s.status.complete }

/-- Everything a command can do: raise a fault, be refused with the latched code, complete as `NEW`, or complete as
another command, which changes the writer and the results only (R17, R62, R141, R142). -/
theorem exec_cases {i : Instr} {s t : State} (h : exec i s = .next t) :
    (∃ c l, c ≠ .none ∧ c ≠ .inputShapeMismatch ∧ t = raiseFault c l s) ∨
    t = { s with status := s.status.refuse } ∨
    (i = .new ∧ 8 ≤ s.regs.op0.toNat ∧ s.regs.op0.toNat ≤ s.params.capLimit ∧ t = recover s.regs.op0.toNat s) ∨
    (s.status.init = true ∧ ∃ w v0 v1, t = s.completed w v0 v1 ∧
      (w = clearedWriter s.writer ∨ WriterGrows s.params.capLimit s.writer w) ∧
      (v0 = s.regs.res0 ∨ WritesRes0 i) ∧ (v1 = s.regs.res1 ∨ i = .count1Bits)) := by
  rw [exec_eq] at h
  rcases runCommand_cases h with ⟨_, _, rfl⟩ | ⟨_, _, _, rfl⟩ | ⟨_, c, hr, rfl⟩ | ⟨ha, s', hr, rfl⟩
  · exact .inl ⟨_, _, by decide, by decide, rfl⟩
  · exact .inr (.inl rfl)
  · have hc := commandRule_error hr
    exact .inl ⟨_, _, hc.ne_none, hc.ne_inputShapeMismatch, rfl⟩
  · right; right
    by_cases hi : i = .new
    · subst hi
      obtain ⟨hlow, hhigh, rfl⟩ := newRule_ok hr
      exact .inl ⟨rfl, hlow, hhigh, rfl⟩
    · obtain ⟨w, v0, v1, rfl, hw, h0, h1, _⟩ := commandRule_ok hi hr
      exact .inr ⟨ha.1 ((commandKind_needsInit i).mpr hi), w, v0, v1, rfl, hw.imp And.right And.right, h0, h1⟩

/-- A command keeps `INIT` and a latched `FAULT`, or it is a completed `NEW` (R21, R145). -/
theorem exec_status {i : Instr} {s t : State} (h : exec i s = .next t) :
    s.status.Keeps t.status ∨ (i = .new ∧ t.status = ⟨true, .none, .none⟩) := by
  rcases exec_cases h with ⟨c, l, _, _, rfl⟩ | rfl | ⟨rfl, _, _, rfl⟩ | ⟨_, w, v0, v1, rfl, _⟩
  · exact .inl (s.status.keeps_raise c l)
  · exact .inl ⟨rfl, fun _ => rfl⟩
  · exact .inr ⟨rfl, rfl⟩
  · exact .inl ⟨rfl, fun _ => rfl⟩

/-- A command leaves all registers alone, or it completes and writes the results its rule names (R17). -/
theorem exec_results {i : Instr} {s t : State} (h : exec i s = .next t) :
    t.regs = s.regs ∨
    (t.status.last = .none ∧ (t.regs.res0 = s.regs.res0 ∨ WritesRes0 i) ∧
      (t.regs.res1 = s.regs.res1 ∨ i = .count1Bits)) := by
  rcases exec_cases h with ⟨c, l, _, _, rfl⟩ | rfl | ⟨_, _, _, rfl⟩ | ⟨_, w, v0, v1, rfl, _, h0, h1⟩
  · exact .inl rfl
  · exact .inl rfl
  · exact .inl rfl
  · exact .inr ⟨rfl, h0, h1⟩

/-- A step keeps `INIT` and a latched `FAULT`, or it is the write of a `NEW` word that completes (R21, R145). -/
theorem step_status {s t : State} (h : step s = .next t) :
    s.status.Keeps t.status ∨
    ((∃ w q, s.hostQueue = commandAction w :: q ∧ decode w = .ok .new) ∧ t.status = ⟨true, .none, .none⟩) := by
  rcases step_cases h with ⟨_, rfl⟩ | ⟨w, q, e, _, _, rfl⟩ | ⟨w, q, i, hq, hd, he⟩ | ⟨a, q, _, _, ha⟩
  · exact .inl (.refl _)
  · exact .inl (s.status.keeps_raise _ _)
  · rcases exec_status he with hk | ⟨rfl, ht⟩
    · exact .inl hk
    · exact .inr ⟨⟨w, q, hq, hd⟩, ht⟩
  · have hstatus : t.status = s.status := (hostAccess_frame ha).2.1
    exact .inl (hstatus ▸ .refl _)

/-! ## The invariant -/

theorem Writer.Inv.buf_wf {lim : Nat} {w : Writer} (h : w.Inv lim) : w.buf.wf := Memory.wf_of_addresses h.buf_addresses

/-- A state that agrees on the writer, `STATUS` and the parameters meets the invariant if its `IX` does. -/
theorem State.Inv.of_frame {s t : State} (h : s.Inv) (hw : t.writer = s.writer) (hs : t.status = s.status)
    (hp : t.params = s.params) (hwf : t.ix.wf) (hrange : ∀ e ∈ t.ix, e.1 < 576) : t.Inv where
  limit_ge := hp ▸ h.limit_ge
  limit_le := hp ▸ h.limit_le
  writer := by rw [hw, hs, hp]; exact h.writer
  buf_wf := hw ▸ h.buf_wf
  ix_wf := hwf
  ix_range := hrange
  fault_legal := hs ▸ h.fault_legal
  last_legal := hs ▸ h.last_legal

theorem State.Inv.setQueue {s : State} (h : s.Inv) (q : List HostAction) : State.Inv { s with hostQueue := q } :=
  h.of_frame rfl rfl rfl h.ix_wf h.ix_range

/-- A status that does not set `INIT` and holds no code that is never produced keeps the invariant. -/
theorem State.Inv.setStatus {s : State} (h : s.Inv) {st : Status} (hi : st.init = s.status.init)
    (hf : st.fault ≠ .inputShapeMismatch) (hl : st.last ≠ .inputShapeMismatch) : State.Inv { s with status := st } :=
  { h with writer := fun hst => h.writer (hi ▸ hst), fault_legal := hf, last_legal := hl }

theorem State.Inv.raise {s : State} (h : s.Inv) {c : FaultCode} (hc : c ≠ .inputShapeMismatch) (l : Bool) :
    (raiseFault c l s).Inv := by
  refine h.setStatus rfl ?_ hc
  unfold Status.raise
  split_ifs
  · exact hc
  · exact h.fault_legal

/-- The writer after a command that completes meets R16 where the one before did. -/
theorem Writer.Inv.of_completed {lim : Nat} {w w' : Writer} (h : w.Inv lim)
    (hw : w' = clearedWriter w ∨ WriterGrows lim w w') : w'.Inv lim := by
  rcases hw with rfl | hw
  · exact h.cleared
  · exact (hw h).1

theorem State.Inv.completed {s : State} (h : s.Inv) {w : Writer} (hw : w.Inv s.params.capLimit) (v0 v1 : Word) :
    (s.completed w v0 v1).Inv where
  limit_ge := h.limit_ge
  limit_le := h.limit_le
  writer := fun _ => hw
  buf_wf := hw.buf_wf
  ix_wf := h.ix_wf
  ix_range := h.ix_range
  fault_legal := h.fault_legal
  last_legal := nofun

theorem State.Inv.recover {s : State} (h : s.Inv) {n : Nat} (h8 : 8 ≤ n) (hl : n ≤ s.params.capLimit) :
    (recover n s).Inv where
  limit_ge := h.limit_ge
  limit_le := h.limit_le
  writer := fun _ => freshWriter_inv h8 hl
  buf_wf := (freshWriter_inv h8 hl).buf_wf
  ix_wf := h.ix_wf
  ix_range := h.ix_range
  fault_legal := nofun
  last_legal := nofun

theorem exec_inv {i : Instr} {s t : State} (hs : s.Inv) (h : exec i s = .next t) : t.Inv ∧ t.params = s.params := by
  rcases exec_cases h with ⟨c, l, _, hc, rfl⟩ | rfl | ⟨_, h8, hl, rfl⟩ | ⟨hi, w, v0, v1, rfl, hw, _, _⟩
  · exact ⟨hs.raise hc l, rfl⟩
  · exact ⟨hs.setStatus rfl hs.fault_legal hs.fault_legal, rfl⟩
  · exact ⟨hs.recover h8 hl, rfl⟩
  · exact ⟨hs.completed ((hs.writer hi).of_completed hw) v0 v1, rfl⟩

theorem hostAccess_inv {a : HostAction} {s t : State} (hs : s.Inv) (h : hostAccess a s = .next t) :
    t.Inv ∧ t.params = s.params := by
  obtain ⟨hw, hst, hp, _⟩ := hostAccess_frame h
  refine ⟨?_, hp⟩
  rcases hostAccess_ix h with hix | ⟨i, v, hi, hix⟩
  · exact hs.of_frame hw hst hp (hix ▸ hs.ix_wf) (hix ▸ hs.ix_range)
  · refine hs.of_frame hw hst hp (hix ▸ Memory.wf_write hs.ix_wf i v) fun e he => ?_
    rw [hix] at he
    rcases Memory.mem_write he with rfl | he
    · exact hi
    · exact hs.ix_range e he

/-! ## The host's register accesses -/

/-- The host's write of a register in the map, other than `CMD`, is that register's write (R23, R165). -/
theorem step_writeRegister (s : State) (v : Word) (q : List HostAction) {off : Nat} (h0 : off ≠ 0) (h4 : off % 4 = 0)
    (hm : off < mapEnd) : step { s with hostQueue := .write .word off v :: q } =
      .next ((registerAt off).writeValue v { s with hostQueue := q }) := by
  have hc : commandWord (.write .word off v) = none := by
    obtain ⟨n, rfl⟩ := Nat.exists_eq_succ_of_ne_zero h0
    rfl
  rw [step_access rfl hc]
  unfold hostAccess
  simp only [registerAccess_next_iff.mpr ⟨rfl, h4, hm, rfl⟩]

theorem HostReg.readValue_setQueue (r : HostReg) (s : State) (q : List HostAction) :
    r.readValue { s with hostQueue := q } = r.readValue s := by
  cases r <;> rfl

theorem readValue_ix_of_written {s : State} {i : Nat} {v : Word} (h : s.ix.read i = some v) :
    (HostReg.ix i).readValue s = v := by
  change (s.ix.read i).getD (Config.unwrittenCoefficient i) = v
  rw [h, Option.getD_some]

/-- The host's read of a register in the map answers the register's value and changes nothing else (R23, R165). -/
theorem step_readRegister (s : State) (q : List HostAction) {off : Nat} (h4 : off % 4 = 0) (hm : off < mapEnd) :
    step { s with hostQueue := .read .word off :: q } =
      .next { s with hostQueue := q, readData := (registerAt off).readValue s } := by
  rw [step_access (a := .read .word off) rfl rfl]
  unfold hostAccess
  simp only [registerAccess_next_iff.mpr ⟨rfl, h4, hm, rfl⟩, HostReg.readValue_setQueue]

theorem registerAt_ixWindow (i : Nat) : registerAt (0x1000 + 4 * i) = .ix i := by
  unfold registerAt ixBase
  rw [if_pos (by omega)]
  congr 1
  omega

theorem registerAt_reserved {off : Nat} (hlow : 0x54 ≤ off) (hhigh : off < ixBase) : registerAt off = .reserved := by
  unfold registerAt
  rw [if_neg (by omega)]
  split
  case h_22 => rfl
  all_goals omega

theorem faultCode_number_toNat (c : FaultCode) : c.number.toNat = codeNumber c := by cases c <;> rfl

/-- `STATUS` as the host reads it has its fields where R21 puts them. -/
theorem status_word_eq (st : Status) : st.word = BitVec.ofNat 32 (statusNumber st) := by
  have hf := st.fault.number.isLt
  have hl := st.last.number.isLt
  apply BitVec.eq_of_toNat_eq
  unfold Status.word statusNumber
  rw [BitVec.toNat_append, BitVec.toNat_append, ← Nat.shiftLeft_add_eq_or_of_lt hf,
    ← Nat.shiftLeft_add_eq_or_of_lt hl, ← faultCode_number_toNat, ← faultCode_number_toNat, BitVec.toNat_ofNat]
  cases st.init <;> simp [Nat.shiftLeft_eq] <;> omega

/-- The registers below the `IX` window, by offset (R23), answer the values of `registerViews` (R21 to R24). -/
theorem registerViews_eq (s : State) :
    registerViews s = (List.range 21).map fun k => (4 * k, (registerAt (4 * k)).readValue s) := by
  unfold registerViews
  rw [← status_word_eq]
  rfl

/-! ## Decoding an encoded command -/

theorem encodingFields (i : Instr) : Laws.EncodingFields.Statement i :=
  match i with
  | .new => Laws.EncodingFields.new
  | .reset => Laws.EncodingFields.reset
  | .writeBits n => Laws.EncodingFields.writeBits n
  | .getBitsCount => Laws.EncodingFields.getBitsCount
  | .byteAlign => Laws.EncodingFields.byteAlign
  | .selectTable => Laws.EncodingFields.selectTable
  | .countBits t => Laws.EncodingFields.countBits t
  | .count1Bits => Laws.EncodingFields.count1Bits
  | .encodePair t => Laws.EncodingFields.encodePair t
  | .encodeQuad sel => Laws.EncodingFields.encodeQuad sel
  | .encodeGranule => Laws.EncodingFields.encodeGranule

/-- The opcode map read back (R47): a command's own opcode and immediate select the command. -/
theorem decodeOpcode_of_instr (i : Instr) : decodeOpcode i.opcode i.immediate = .ok i := by cases i <;> rfl

theorem decode_encode {i : Instr} (h : i.wellFormed = true) : decode (encode i) = .ok i := by
  obtain ⟨hop, himm, hzero⟩ := encodingFields i h
  unfold decode
  rw [if_neg (not_not.mpr hzero), hop, himm, decodeOpcode_of_instr]

theorem tableWord_toNat (w : Word) : tableWord 32 w.toNat = w := by
  unfold tableWord
  rw [Nat.mod_eq_of_lt w.isLt, BitVec.ofNat_toNat, BitVec.setWidth_eq]

/-- A step with a write of a legal word to `CMD` pending runs its command (R22, R142). -/
theorem step_legalWord {s : State} {w : Word} {i : Instr} {q : List HostAction}
    (hq : s.hostQueue = commandAction w :: q) (hd : decode w = .ok i) : step s = exec i { s with hostQueue := q } := by
  rw [step_command hq]
  unfold runWord
  rw [hd]

/-! ## The statements -/

/-- Settles O4: the four things a step can be, each of which keeps the invariant. -/
theorem stepKeepsStateInvariant : Obligations.StepKeepsStateInvariant := by
  intro s t hs h
  rcases step_cases h with ⟨_, rfl⟩ | ⟨w, q, e, _, _, rfl⟩ | ⟨w, q, i, _, _, he⟩ | ⟨a, q, _, _, ha⟩
  · exact ⟨hs, rfl⟩
  · exact ⟨(hs.setQueue q).raise (by decide) true, rfl⟩
  · exact (exec_inv (hs.setQueue q) he :)
  · exact (hostAccess_inv (hs.setQueue q) ha :)

/-- Settles O10: no outcome of a command reaches an input, since a rule changes the writer, the results and `STATUS`. -/
theorem commandsNeverWriteInputs : Obligations.CommandsNeverWriteInputs := by
  intro i s t h
  rcases exec_cases h with ⟨c, l, _, _, rfl⟩ | rfl | ⟨_, _, _, rfl⟩ | ⟨_, w, v0, v1, rfl, _⟩ <;>
    exact ⟨rfl, rfl, rfl, rfl, rfl, rfl, rfl, rfl, rfl, rfl⟩

/-- Settles O11: only a rule that completes with `LAST` 0 can write a result. -/
theorem resultsWrittenOnlyOnSuccess : Obligations.ResultsWrittenOnlyOnSuccess := by
  intro i s t h
  rcases exec_results h with hr | ⟨hl, h0, h1⟩
  · rw [hr]
    exact ⟨fun _ => ⟨rfl, rfl⟩, fun hne => absurd rfl hne, fun hne => absurd rfl hne⟩
  · exact ⟨fun hne => absurd hl hne, h0.resolve_left, h1.resolve_left⟩

/-- Settles O22: a step that does not keep `INIT` and a latched `FAULT` is a completed `NEW`. -/
theorem onlyNewClearsFaultAndSetsInit : Obligations.OnlyNewClearsFaultAndSetsInit := by
  intro s t h
  rcases step_status h with ⟨hinit, hfault⟩ | ⟨⟨w, q, hq, hd⟩, ht⟩
  · refine ⟨fun hs => hinit.trans hs, ?_⟩
    rintro (⟨hlatched, hne⟩ | hne)
    · exact absurd (hfault hlatched) hne
    · exact absurd hinit hne
  · exact ⟨fun _ => by rw [ht], fun _ => ⟨w, q, hq, hd, ht⟩⟩

/-- Settles O1: the parameters at reset carry their proof. -/
theorem powerOnState : Obligations.PowerOnState := ⟨rfl, fun _ => rfl, Config.machine.ok⟩

/-- Settles O3: at power-on `INIT` is 0 and both memories are empty. -/
theorem powerOnMeetsStateInvariant : Obligations.PowerOnMeetsStateInvariant where
  limit_ge := Config.machine.ok.2.1
  limit_le := Config.machine.ok.2.2
  writer := fun h => Bool.noConfusion h
  buf_wf := .nil
  ix_wf := .nil
  ix_range := fun _ h => nomatch h
  fault_legal := by decide
  last_legal := by decide

/-- Settles O5: each offset reaches one register, whose write sets that register only. -/
theorem hostWritesSetOneRegister : Obligations.HostWritesSetOneRegister := by
  intro s v q
  have register (off : Nat) (h : off ≠ 0 ∧ off % 4 = 0 ∧ off < mapEnd) := step_writeRegister s v q h.1 h.2.1 h.2.2
  refine ⟨register 0x08 (by decide), register 0x0C (by decide), register 0x10 (by decide), register 0x14 (by decide),
    register 0x30 (by decide), register 0x34 (by decide), register 0x38 (by decide), register 0x3C (by decide),
    register 0x40 (by decide), register 0x44 (by decide), register 0x48 (by decide), register 0x4C (by decide),
    register 0x50 (by decide), fun i hi => ?ix, fun k hlow hhigh => ?reserved⟩
  case ix =>
    refine ⟨s.ix.write i v, ?_, s.ix.read_write_same i v, fun j hj => s.ix.read_write_other v hj⟩
    dsimp only
    rw [register (0x1000 + 4 * i) (by unfold mapEnd; omega), registerAt_ixWindow]
    rfl
  case reserved =>
    dsimp only
    rw [register (4 * k) (by unfold mapEnd; omega), registerAt_reserved hlow (by unfold ixBase; omega)]
    rfl

/-- Settles O6: a read answers the value of the register at its offset, which `registerViews` names. -/
theorem hostReadsAnswerRegisters : Obligations.HostReadsAnswerRegisters := by
  intro s q
  refine ⟨?_, ?_, ?_⟩
  · rw [registerViews_eq]
    intro r hr
    obtain ⟨k, hk, rfl⟩ := List.mem_map.mp hr
    have hk := List.mem_range.mp hk
    exact step_readRegister s q (by omega) (by unfold mapEnd; omega)
  · intro k hlow hhigh
    rw [step_readRegister s q (by omega) (by unfold mapEnd; omega), registerAt_reserved hlow (by unfold ixBase; omega)]
    rfl
  · intro i v hi hv
    rw [step_readRegister s q (by omega) (by unfold mapEnd; omega), registerAt_ixWindow]
    rw [readValue_ix_of_written hv]

/-- Settles O17: a pending word runs as the command it decodes to, and an encoded command decodes to itself. -/
theorem stepRunsTheDecodedCommand : Obligations.StepRunsTheDecodedCommand := by
  intro s
  refine ⟨fun w i q hq hd => step_legalWord hq hd, fun i hi => ?_, fun hq => ?_⟩
  · exact step_legalWord (s := s.withFetchWord 32 (encode i).toNat) rfl
      ((tableWord_toNat (encode i)).symm ▸ decode_encode hi)
  · unfold step fetchAction
    rw [hq]

end Sys2Proof.Machine
end

section
/-! Proofs about the memory spaces (spec 20_memory.md). First the written bytes of `OUT` and where their bits stand in
the stream, then the host's reads of `OUT`, then the accesses outside the map, then the statements. -/

namespace Sys2Proof.Machine

/-! ## The written bytes of `OUT` -/

/-- Every byte below `pos` has been written (R11, R16 (e)). -/
theorem Writer.Inv.exists_read {lim : Nat} {w : Writer} (h : w.Inv lim) {k : Nat} (hk : k < w.pos) :
    ∃ b, w.buf.read k = some b := by
  rw [← Option.isSome_iff_exists, Memory.read_isSome_iff, h.buf_addresses]
  exact List.mem_range.mpr hk

/-- A stream bit that has left the cache stands in its byte of `OUT`, most significant bit first (R35, R61). -/
theorem stream_getElem?_of_read {w : Writer} {k : Nat} {b : Byte} (hk : k < 8 * w.pos)
    (hb : w.buf.read (k / 8) = some b) : w.stream[k]? = some (b.toNat.testBit (7 - k % 8)) := by
  unfold Writer.stream
  rw [List.getElem?_append_left (by rwa [bytesBits_length]), bytesBits_getElem?, if_pos hk, Nat.zero_add, hb,
    Option.getD_some]

/-- The eight stream bits from `8k` on are the bits of `OUT[k]` (R61). -/
theorem stream_byte_of_read {w : Writer} {k : Nat} {b : Byte} (hk : k < w.pos) (hb : w.buf.read k = some b) :
    (w.stream.drop (8 * k)).take 8 = bitsN b.toNat 8 := by
  apply List.ext_getElem?
  intro i
  rw [bitsN_getElem?]
  by_cases hi : i < 8
  · have hbyte : (8 * k + i) / 8 = k := by omega
    rw [List.getElem?_take_of_lt hi, List.getElem?_drop, if_pos hi,
      stream_getElem?_of_read (by omega) (hbyte.symm ▸ hb), show 7 - (8 * k + i) % 8 = 8 - 1 - i by omega]
  · rw [List.getElem?_take_eq_none (by omega), if_neg hi]

/-! ## The host's reads of `OUT` -/

theorem step_readOut (s : State) (k : Nat) (q : List HostAction) :
    step { s with hostQueue := .readOut k :: q } = .next (readOut k { s with hostQueue := q }) :=
  step_access (a := .readOut k) rfl rfl

theorem readOut_of_written {s : State} {k : Nat} {b : Byte} (hk : k < s.writer.pos)
    (hb : s.writer.buf.read k = some b) : readOut k s = { s with readData := b.zeroExtend 32 } := by
  unfold readOut outByte
  rw [if_pos hk, hb]

/-- At or above `pos` the byte answered is a fresh free value (R31, 93 U5). -/
theorem readOut_of_pos_le {s : State} {k : Nat} (hk : s.writer.pos ≤ k) : readOut k s =
    { s with readData := (Config.unspecifiedOutByte s.freeReads).zeroExtend 32, freeReads := s.freeReads + 1 } := by
  unfold readOut outByte
  rw [if_neg (Nat.not_lt.mpr hk)]

/-! ## Accesses outside the map -/

theorem registerAccess_refused {size : AccessSize} {off : Nat} (h : size ≠ .word ∨ off % 4 ≠ 0) :
    registerAccess size off = .refused .narrowOrMisalignedAccess := if_pos h

theorem registerAccess_fault {off : Nat} (h4 : off % 4 = 0) (hm : mapEnd ≤ off) :
    registerAccess .word off = .fault .offsetNotInMap := by
  unfold registerAccess
  rw [if_neg (not_or.mpr ⟨not_not.mpr rfl, not_not.mpr h4⟩), if_pos hm]

/-- A narrow write, or one at another offset than 0, is no write of `CMD` (R22). -/
theorem commandWord_write_eq_none {size : AccessSize} {off : Nat} (v : Word) (h : size ≠ .word ∨ off ≠ 0) :
    commandWord (.write size off v) = none := by
  cases hc : commandWord (.write size off v) with
  | none => rfl
  | some w =>
    obtain ⟨hsize, hoff, _⟩ := HostAction.write.inj (commandWord_eq_some hc)
    exact absurd h (not_or.mpr ⟨not_not.mpr hsize, not_not.mpr hoff⟩)

/-- A pending register access other than a write of `CMD` is carried out as such, be it a write or a read (R165). -/
theorem step_registerAccess (s : State) (v : Word) (q : List HostAction) {size : AccessSize} {off : Nat}
    (h : size ≠ .word ∨ off ≠ 0) :
    step { s with hostQueue := .write size off v :: q } = hostAccess (.write size off v) { s with hostQueue := q } ∧
      step { s with hostQueue := .read size off :: q } = hostAccess (.read size off) { s with hostQueue := q } :=
  ⟨step_access rfl (commandWord_write_eq_none v h), step_access (a := .read size off) rfl rfl⟩

/-! ## The statements -/

/-- Settles O8: below `pos` the byte answered is the written one, whose bits the stream holds at `8k`. -/
theorem outReadsAnswerTheStream : Obligations.OutReadsAnswerTheStream := by
  intro s k q hs hinit
  rw [step_readOut]
  constructor
  · intro hk
    obtain ⟨b, hb⟩ := (hs.writer hinit).exists_read hk
    exact ⟨b, congrArg _ (readOut_of_written hk hb), stream_byte_of_read hk hb⟩
  · intro hk
    exact ⟨_, congrArg _ (readOut_of_pos_le hk)⟩

/-- Settles O36: a stream bit below `8*pos` lies in a written byte. -/
theorem streamBitsStandMostSignificantFirst : Obligations.StreamBitsStandMostSignificantFirst := by
  intro lim w k hw hk
  obtain ⟨b, hb⟩ := hw.exists_read (show k / 8 < w.pos by omega)
  exact ⟨b, hb, stream_getElem?_of_read hk hb⟩

/-- Settles O7: of the three host accesses, the register read and the read of `OUT` each set the host's fields only. -/
theorem readsHaveNoSideEffect : Obligations.ReadsHaveNoSideEffect := by
  rintro s t a q (⟨size, off, rfl⟩ | ⟨k, rfl⟩) h
  · rw [step_access (a := .read size off) rfl rfl] at h
    rcases hostAccess_cases h with ⟨_, _, _, _, hwrite, _⟩ | ⟨_, _, _, _, _, rfl⟩ | ⟨_, hout, _⟩
    · exact nomatch hwrite
    · rfl
    · exact nomatch hout
  · rw [step_readOut] at h
    cases h
    exact readOut_eq k _

/-- Settles O9: neither kind of access reaches a register, and none of them is a write of `CMD`. -/
theorem accessesOutsideTheMapStop : Obligations.AccessesOutsideTheMapStop := by
  intro s size off v q
  constructor
  · intro h
    obtain ⟨hwrite, hread⟩ := step_registerAccess s v q (h.imp_right fun hmod => show off ≠ 0 by omega)
    rw [hwrite, hread]
    simp only [hostAccess, registerAccess_refused h, and_self]
  · intro h4 hm
    have hoff : off ≠ 0 := by omega
    obtain ⟨hwrite, hread⟩ := step_registerAccess (size := .word) s v q (.inr hoff)
    rw [hwrite, hread]
    simp only [hostAccess, registerAccess_fault h4 hm, and_self]

end Sys2Proof.Machine
end

section
/-! Proofs about the encoding (spec 30_encoding.md). First the three fields of a command word, then which word decodes to
which command, then the faults in place of a command, then the statements. -/

namespace Sys2Proof.Machine

/-! ## The fields of a command word -/

/-- A command word is its three fields and nothing else (R45). -/
theorem word_eq_iff_fields {w v : Word} :
    w = v ↔ opcodeField w = opcodeField v ∧ immediateField w = immediateField v ∧ zeroField w = zeroField v := by
  have split (u : Word) : opcodeField u ++ (immediateField u ++ zeroField u) = u := by
    unfold opcodeField immediateField zeroField
    rw [BitVec.extractLsb'_append_extractLsb'_eq_extractLsb' (start₂ := 16) (start₁ := 0) rfl,
      BitVec.extractLsb'_append_extractLsb'_eq_extractLsb' (start₂ := 24) (start₁ := 0) rfl, BitVec.extractLsb'_eq_self]
  constructor
  · rintro rfl
    exact ⟨rfl, rfl, rfl⟩
  · rintro ⟨hop, himm, hzero⟩
    rw [← split w, hop, himm, hzero, split v]

/-- The mask of a row with an operand (R47) leaves out the field `a` and nothing else. -/
theorem and_operandMask_eq_iff {w v : Word} : w &&& 0xFF00FFFF#32 = v ↔
    opcodeField w = opcodeField v ∧ immediateField v = 0 ∧ zeroField w = zeroField v := by
  have hop : opcodeField (w &&& 0xFF00FFFF#32) = opcodeField w :=
    BitVec.extractLsb'_and.trans BitVec.and_allOnes
  have himm : immediateField (w &&& 0xFF00FFFF#32) = 0 := BitVec.extractLsb'_and.trans BitVec.and_zero
  have hzero : zeroField (w &&& 0xFF00FFFF#32) = zeroField w := BitVec.extractLsb'_and.trans BitVec.and_allOnes
  rw [word_eq_iff_fields, hop, himm, hzero, eq_comm (a := 0)]

theorem opcodeField_toNat (w : Word) : (opcodeField w).toNat = w.toNat / 2 ^ 24 := by
  unfold opcodeField
  rw [BitVec.extractLsb'_toNat, Nat.shiftRight_eq_div_pow]
  omega

theorem immediateField_toNat (w : Word) : (immediateField w).toNat = w.toNat / 2 ^ 16 % 256 := by
  unfold immediateField
  rw [BitVec.extractLsb'_toNat, Nat.shiftRight_eq_div_pow]

theorem zeroField_eq_zero_iff (w : Word) : zeroField w = 0 ↔ w.toNat % 2 ^ 16 = 0 := by
  rw [← BitVec.toNat_inj]
  unfold zeroField
  rw [BitVec.extractLsb'_toNat]
  rfl

/-! ## Which word decodes to which command -/

theorem decodePlain_eq_ok_iff {a : Nat} {i j : Instr} : decodePlain a j = .ok i ↔ a = 0 ∧ j = i := by
  unfold decodePlain
  split_ifs with h
  · exact ⟨fun hj => ⟨h, Except.ok.inj hj⟩, fun hj => congrArg _ hj.2⟩
  · exact ⟨nofun, fun hj => absurd hj.1 h⟩

/-- The opcode map (R47): an opcode and a value of `a` select the command they are the opcode and the immediate of. -/
theorem decodeOpcode_eq_ok_iff {op a : Nat} {i : Instr} :
    decodeOpcode op a = .ok i ↔ op = i.opcode ∧ a = i.immediate := by
  constructor
  · intro h
    unfold decodeOpcode at h
    split at h
    case h_12 => cases h
    case h_3 | h_7 | h_9 | h_10 => cases h; exact ⟨rfl, rfl⟩
    all_goals
      obtain ⟨rfl, rfl⟩ := decodePlain_eq_ok_iff.mp h
      exact ⟨rfl, rfl⟩
  · rintro ⟨rfl, rfl⟩
    exact decodeOpcode_of_instr i

/-- A word spells a command exactly when its fields are the command's opcode, the command's immediate and zero (R45, R47). -/
theorem decode_eq_ok_iff {w : Word} {i : Instr} : decode w = .ok i ↔
    (opcodeField w).toNat = i.opcode ∧ (immediateField w).toNat = i.immediate ∧ zeroField w = 0 := by
  unfold decode
  split_ifs with hz
  · exact ⟨nofun, fun h => absurd h.2.2 hz⟩
  · rw [decodeOpcode_eq_ok_iff]
    exact ⟨fun ⟨hop, himm⟩ => ⟨hop, himm, not_not.mp hz⟩, fun ⟨hop, himm, _⟩ => ⟨hop, himm⟩⟩

/-- The only word that spells a well-formed command is the command's own (R48). -/
theorem decode_eq_ok_iff_eq_encode {w : Word} {i : Instr} (h : i.wellFormed = true) :
    decode w = .ok i ↔ w = encode i := by
  obtain ⟨hop, himm, hzero⟩ := encodingFields i h
  rw [decode_eq_ok_iff, word_eq_iff_fields, hzero, ← hop, ← himm, BitVec.toNat_inj, BitVec.toNat_inj]

/-- A row of the opcode map without an operand: every bit of the word is fixed (R47). -/
theorem decode_plainRow {i : Instr} {pattern : Word} (hi : i.wellFormed = true) (hp : encode i = pattern) (w : Word) :
    decode w = .ok i ↔ w &&& 0xFFFFFFFF#32 = pattern := by
  rw [decode_eq_ok_iff_eq_encode hi, hp]
  exact Eq.congr_left BitVec.and_allOnes.symm

/-- A row of the opcode map with an operand: the opcode and the zero field are fixed, `a` is the operand (R47). -/
theorem decode_operandRow {c : Nat → Instr} {op : Nat} {pattern : Word} (hc : ∀ n, (c n).opcode = op)
    (ha : ∀ n, (c n).immediate = n) (hop : (opcodeField pattern).toNat = op) (himm : immediateField pattern = 0)
    (hzero : zeroField pattern = 0) (w : Word) (n : Nat) :
    decode w = .ok (c n) ↔ w &&& 0xFF00FFFF#32 = pattern ∧ n = w.toNat / 65536 % 256 := by
  rw [decode_eq_ok_iff, and_operandMask_eq_iff, hc, ha, ← hop, BitVec.toNat_inj, hzero, immediateField_toNat]
  constructor
  · rintro ⟨hopcode, hn, hz⟩
    exact ⟨⟨hopcode, himm, hz⟩, hn.symm⟩
  · rintro ⟨⟨hopcode, _, hz⟩, hn⟩
    exact ⟨hopcode, hn.symm, hz⟩

/-- The opcodes of the opcode map (R47). -/
abbrev mapOpcodes : List Nat := [0x01, 0x02, 0x03, 0x04, 0x05, 0x10, 0x11, 0x12, 0x13, 0x14, 0x15]

/-- The opcodes of the rows whose `a` is an operand (R47). -/
abbrev operandOpcodes : List Nat := [0x03, 0x11, 0x13, 0x14]

/-- The pairs of an opcode and a value of `a` that the opcode map gives a command (R47, R49 (a), (c)). -/
theorem exists_instr_iff (op a : Nat) : (∃ i : Instr, op = i.opcode ∧ a = i.immediate) ↔
    op ∈ mapOpcodes ∧ (op ∈ operandOpcodes ∨ a = 0) := by
  constructor
  · rintro ⟨i, rfl, rfl⟩
    cases i <;> simp [Instr.opcode, Instr.immediate]
  · rintro ⟨hop, ha⟩
    by_cases hoperand : op ∈ operandOpcodes
    · fin_cases hoperand
      exacts [⟨.writeBits a, rfl, rfl⟩, ⟨.countBits a, rfl, rfl⟩, ⟨.encodePair a, rfl, rfl⟩, ⟨.encodeQuad a, rfl, rfl⟩]
    · obtain rfl := ha.resolve_left hoperand
      fin_cases hop
      exacts [⟨.new, rfl, rfl⟩, ⟨.reset, rfl, rfl⟩, ⟨.writeBits 0, rfl, rfl⟩, ⟨.getBitsCount, rfl, rfl⟩,
        ⟨.byteAlign, rfl, rfl⟩, ⟨.selectTable, rfl, rfl⟩, ⟨.countBits 0, rfl, rfl⟩, ⟨.count1Bits, rfl, rfl⟩,
        ⟨.encodePair 0, rfl, rfl⟩, ⟨.encodeQuad 0, rfl, rfl⟩, ⟨.encodeGranule, rfl, rfl⟩]

/-- The three ways a word can be illegal (R49). -/
theorem illegal_iff (w : Word) : (∀ i, decode w ≠ .ok i) ↔
    (w.toNat / 2 ^ 24 ∉ mapOpcodes ∨ w.toNat % 2 ^ 16 ≠ 0 ∨
      (w.toNat / 2 ^ 24 ∉ operandOpcodes ∧ w.toNat / 2 ^ 16 % 256 ≠ 0)) := by
  have legal : (∃ i, decode w = .ok i) ↔
      (∃ i : Instr, w.toNat / 2 ^ 24 = i.opcode ∧ w.toNat / 2 ^ 16 % 256 = i.immediate) ∧ w.toNat % 2 ^ 16 = 0 := by
    simp only [decode_eq_ok_iff, opcodeField_toNat, immediateField_toNat, zeroField_eq_zero_iff, ← and_assoc,
      exists_and_right]
  rw [← not_exists, legal, exists_instr_iff]
  tauto

/-! ## The faults in place of a command -/

/-- A fault that latches is the statements' `withFault` (R141). -/
theorem raiseFault_latching (c : FaultCode) (s : State) : raiseFault c true s = s.withFault c := by
  unfold raiseFault Status.raise State.withFault
  simp only [and_true]

/-- A step with a write of an illegal word to `CMD` pending raises `IllegalCommand` and nothing else (R49, R142). -/
theorem step_illegalWord {s : State} {w : Word} {q : List HostAction} (hq : s.hostQueue = commandAction w :: q)
    (hd : ∀ i, decode w ≠ .ok i) : step s = .next ({ s with hostQueue := q }.withFault .illegalCommand) := by
  rw [step_command hq, ← raiseFault_latching]
  unfold runWord
  cases h : decode w with
  | ok i => exact absurd h (hd i)
  | error e => rfl

/-- A command whose rule faults on a ready state, with a code that latches whatever the command. -/
theorem exec_ready_error {s : State} (hs : s.Ready) {i : Instr} {c : FaultCode} (hr : commandRule i s = .error c)
    (hc : c ≠ .encodingRangeViolation) : exec i s = .next (s.withFault c) := by
  rw [exec_eq]
  exact runCommand_ready_error hs hr ((commandKind_latches i c).mpr fun h => hc h.1)

/-! ## The statements -/

/-- Settles O13: the fields of an encoded command, read back through the opcode map. -/
theorem decodeOfEncode : Obligations.DecodeOfEncode := fun _ h => decode_encode h

/-- Settles O16: each of the six words is the encoding of its command. -/
theorem sampleWordsDecode : Obligations.SampleWordsDecode :=
  ⟨decode_encode (i := .new) rfl, decode_encode (i := .writeBits 32) rfl, decode_encode (i := .countBits 17) rfl,
    decode_encode (i := .encodePair 1) rfl, decode_encode (i := .encodeQuad 1) rfl, decode_encode (i := .encodeGranule) rfl⟩

/-- Settles O14: the seven rows without an operand and the four with one. -/
theorem decodeMatchesOpcodeMap : Obligations.DecodeMatchesOpcodeMap := fun w =>
  ⟨decode_plainRow rfl rfl w, decode_plainRow rfl rfl w,
    decode_operandRow (c := .writeBits) (fun _ => rfl) (fun _ => rfl) rfl rfl rfl w,
    decode_plainRow rfl rfl w, decode_plainRow rfl rfl w, decode_plainRow rfl rfl w,
    decode_operandRow (c := .countBits) (fun _ => rfl) (fun _ => rfl) rfl rfl rfl w,
    decode_plainRow rfl rfl w,
    decode_operandRow (c := .encodePair) (fun _ => rfl) (fun _ => rfl) rfl rfl rfl w,
    decode_operandRow (c := .encodeQuad) (fun _ => rfl) (fun _ => rfl) rfl rfl rfl w,
    decode_plainRow rfl rfl w⟩

/-- Settles O15: the three parts of R49. The bound on an out-of-range immediate is the first check of each rule. -/
theorem illegalWordsRaiseIllegalCommand : Obligations.IllegalWordsRaiseIllegalCommand := by
  refine ⟨illegal_iff, fun s w q hq hd => step_illegalWord hq hd, fun s a hs _ => ⟨?_, ?_, ?_⟩⟩
  · intro h
    exact exec_ready_error hs (i := .writeBits a) (if_pos h) nofun
  · intro h
    exact ⟨exec_ready_error hs (i := .countBits a) (if_pos h) nofun,
      exec_ready_error hs (i := .encodePair a) (if_pos h) nofun⟩
  · intro h
    exact exec_ready_error hs (i := .encodeQuad a) (if_pos h) nofun

end Sys2Proof.Machine
end

section
/-! Proofs about the bitstream writer (spec 40_bitstream_writer.md), part 1: what the writer's primitives append. First the
stream of a writer and that the invariants of R16 make it determine the writer, then the append law of `emit` and of
`BYTE_ALIGN`. -/

namespace Sys2Proof.Machine

/-! ## Bit strings of zeros -/

/-- A number whose low `n` bits are zero ends in `n` zero bits. -/
theorem bitsN_of_mod_eq_zero {v n : Nat} (h : v % 2 ^ n = 0) : bitsN v n = List.replicate n false := by
  have hzero : bitsN v n = bitsN 0 n := (bitsN_eq_iff v 0 n).mpr (h.trans (Nat.zero_mod _).symm)
  rw [hzero]
  apply List.ext_getElem?
  intro k
  rw [bitsN_getElem?, List.getElem?_replicate, Nat.zero_testBit]

/-! ## The parts of a stream -/

/-- The first `pos` bytes of the stream are those of `OUT` (R61). -/
theorem Writer.take_stream (w : Writer) : w.stream.take (8 * w.pos) = bytesBits w.buf 0 w.pos :=
  List.take_left' (bytesBits_length _ _ _)

/-- After them come the valid bits of the cache (R61). -/
theorem Writer.drop_stream (w : Writer) :
    w.stream.drop (8 * w.pos) = bitsN (w.cache.toNat / 2 ^ w.free) (32 - w.free) := by
  rw [← Nat.shiftRight_eq_div_pow]
  exact List.drop_left' (bytesBits_length _ _ _)

theorem Writer.stream_eq (w : Writer) :
    w.stream = bytesBits w.buf 0 w.pos ++ bitsN (w.cache.toNat / 2 ^ w.free) (32 - w.free) := by
  rw [← w.take_stream, ← w.drop_stream, List.take_append_drop]

/-- The cache is its valid bits, shifted up (R14, R16 (b)). -/
theorem Writer.Inv.valid_bits {lim : Nat} {w : Writer} (h : w.Inv lim) :
    w.cache.toNat / 2 ^ w.free * 2 ^ w.free = w.cache.toNat :=
  Nat.div_mul_cancel (Nat.dvd_of_mod_eq_zero h.cache_clear)

/-- The leading bits of the cache, from the valid ones up: the valid bits, then zeros (R14, R16 (b)). -/
theorem Writer.Inv.leading_bits {lim : Nat} {w : Writer} (h : w.Inv lim) {z : Nat} (hz : z ≤ w.free) :
    bitsN (w.cache.toNat / 2 ^ (w.free - z)) (32 - w.free + z) =
      bitsN (w.cache.toNat / 2 ^ w.free) (32 - w.free) ++ List.replicate z false := by
  have hpow : 2 ^ (w.free - z) * 2 ^ z = 2 ^ w.free := by rw [← Nat.pow_add, Nat.sub_add_cancel hz]
  rw [bitsN_add, Nat.div_div_eq_div_mul, hpow]
  congr 1
  apply bitsN_of_mod_eq_zero
  rw [← Nat.mod_mul_right_div_self, hpow, h.cache_clear, Nat.zero_div]

/-- The cache word: the stream's bits after the last byte of `OUT`, left-justified (R14, R16 (b)). -/
theorem Writer.Inv.cache_bits {lim : Nat} {w : Writer} (h : w.Inv lim) :
    bitsN w.cache.toNat 32 = w.stream.drop (8 * w.pos) ++ List.replicate w.free false := by
  rw [w.drop_stream, ← h.leading_bits le_rfl, Nat.sub_self, Nat.pow_zero, Nat.div_one, Nat.sub_add_cancel h.free_le]

/-! ## The stream determines the writer -/

theorem Memory.read_eq_none_iff {width : Nat} (m : Memory width) (k : Nat) :
    m.read k = none ↔ k ∉ m.map Prod.fst := by
  rw [← Option.not_isSome_iff_eq_none, Memory.read_isSome_iff]

theorem Memory.read_cons_of_ne {width : Nat} (m : Memory width) {a k : Nat} (u : BitVec width) (h : k ≠ a) :
    Memory.read ((a, u) :: m) k = m.read k := if_neg h

/-- An address below all those listed holds no value. -/
theorem Memory.read_eq_none_of_lt {width : Nat} {m : Memory width} {a : Nat} (h : ∀ e ∈ m, a < e.1) :
    m.read a = none := by
  rw [Memory.read_eq_none_iff, List.mem_map]
  rintro ⟨e, he, rfl⟩
  exact lt_irrefl _ (h e he)

/-- Two memories in canonical form with the same addresses and the same values are equal. -/
theorem Memory.ext_read {width : Nat} : ∀ {m m' : Memory width}, m.wf → m'.wf → m.map Prod.fst = m'.map Prod.fst →
    (∀ k, m.read k = m'.read k) → m = m'
  | [], [], _, _, _, _ => rfl
  | [], _ :: _, _, _, ha, _ => nomatch ha
  | _ :: _, [], _, _, ha, _ => nomatch ha
  | (a, u) :: m, (a', u') :: m', hw, hw', ha, hr => by
    obtain ⟨hhead, haddr⟩ := List.cons.inj ha
    obtain rfl : a = a' := hhead
    obtain ⟨hlt, hm⟩ := List.pairwise_cons.mp hw
    obtain ⟨hlt', hm'⟩ := List.pairwise_cons.mp hw'
    obtain rfl : u = u' := by simpa [Memory.read] using hr a
    have htail : ∀ k, Memory.read m k = Memory.read m' k := by
      intro k
      by_cases hk : k = a
      · rw [hk, Memory.read_eq_none_of_lt hlt, Memory.read_eq_none_of_lt hlt']
      · rw [← Memory.read_cons_of_ne m u hk, hr k, Memory.read_cons_of_ne m' u hk]
    rw [Memory.ext_read hm hm' haddr htail]

/-- Outside the bytes `0 .. pos − 1` nothing has been written (R11). -/
theorem Writer.Inv.read_eq_none {lim : Nat} {w : Writer} (h : w.Inv lim) {k : Nat} (hk : w.pos ≤ k) :
    w.buf.read k = none := by
  rw [Memory.read_eq_none_iff, h.buf_addresses, List.mem_range]
  exact Nat.not_lt.mpr hk

/-- The bytes of `OUT` follow from the stream and the cursor. -/
theorem Writer.Inv.buf_eq_of_stream {lim : Nat} {w w' : Writer} (h : w.Inv lim) (h' : w'.Inv lim)
    (hs : w.stream = w'.stream) (hp : w.pos = w'.pos) : w.buf = w'.buf := by
  refine Memory.ext_read h.buf_wf h'.buf_wf (by rw [h.buf_addresses, h'.buf_addresses, hp]) fun k => ?_
  by_cases hk : k < w.pos
  · have hk' : k < w'.pos := hp ▸ hk
    obtain ⟨b, hb⟩ := h.exists_read hk
    obtain ⟨b', hb'⟩ := h'.exists_read hk'
    have hbits : bitsN b.toNat 8 = bitsN b'.toNat 8 := by
      rw [← stream_byte_of_read hk hb, ← stream_byte_of_read hk' hb', hs]
    have hmod := (bitsN_eq_iff _ _ _).mp hbits
    rw [Nat.mod_eq_of_lt b.isLt, Nat.mod_eq_of_lt b'.isLt] at hmod
    rw [hb, hb', BitVec.eq_of_toNat_eq hmod]
  · rw [h.read_eq_none (Nat.le_of_not_lt hk), h'.read_eq_none (hp ▸ Nat.le_of_not_lt hk)]

/-- Under the invariants the stream, the cursor and the capacity determine the writer (R61, R75). -/
theorem Writer.Inv.eq_of_stream {lim : Nat} {w w' : Writer} (h : w.Inv lim) (h' : w'.Inv lim)
    (hs : w.stream = w'.stream) (hp : w.pos = w'.pos) (hc : w.cap = w'.cap) : w = w' := by
  have hbuf := h.buf_eq_of_stream h' hs hp
  have hfree : w.free = w'.free := by
    have hlen := congrArg List.length hs
    rw [stream_length, stream_length] at hlen
    have := h.free_le
    have := h'.free_le
    omega
  have hcache : w.cache = w'.cache := by
    have hbits : bitsN w.cache.toNat 32 = bitsN w'.cache.toNat 32 := by
      rw [h.cache_bits, h'.cache_bits, hs, hp, hfree]
    have hmod := (bitsN_eq_iff _ _ _).mp hbits
    rw [Nat.mod_eq_of_lt w.cache.isLt, Nat.mod_eq_of_lt w'.cache.isLt] at hmod
    exact BitVec.eq_of_toNat_eq hmod
  obtain ⟨_, _, _, _, _⟩ := w
  obtain ⟨_, _, _, _, _⟩ := w'
  cases hbuf; cases hp; cases hc; cases hcache; cases hfree
  rfl

/-! ## Growth over several words -/

/-- The growth of `m + n` word flushes is that of `m` and then that of `n` (R63). -/
theorem capAfterFlushes_add (pos cap m : Nat) : ∀ n,
    capAfterFlushes pos cap (m + n) = capAfterFlushes (pos + 4 * m) (capAfterFlushes pos cap m) n
  | 0 => rfl
  | n + 1 => by
    rw [← Nat.add_assoc, capAfterFlushes, capAfterFlushes, capAfterFlushes_add pos cap m n,
      show pos + 4 * m + 4 * n = pos + 4 * (m + n) by omega]

/-- A room check that passes does the growth of one word flush (R63). -/
theorem roomStep_eq_capAfterFlushes {lim pos cap c : Nat} (h : roomStep lim pos cap = .ok c) :
    c = capAfterFlushes pos cap 1 := by
  change c = if cap - pos < 4 then cap + cap / 2 else cap
  rcases roomStep_ok h with ⟨rfl, hroom⟩ | ⟨hfull, rfl, _⟩
  · rw [if_neg (by omega)]
  · rw [if_pos hfull]

/-! ## Appending -/

/-- A run of bytes stored at the cursor appends the word's leading bits to those of `OUT` (R34, R61). -/
theorem bytesBits_writeBytes_end (buf : Memory 8) (pos : Nat) {n : Nat} (h4 : n ≤ 4) (w : Word) :
    bytesBits (writeBytes buf pos n w) 0 (pos + n) =
      bytesBits buf 0 pos ++ bitsN (w.toNat / 2 ^ (32 - 8 * n)) (8 * n) := by
  rw [bytesBits_add, Nat.zero_add, writeBytes_bits n h4]
  congr 1
  exact bytesBits_congr fun i _ hi => writeBytes_read_other n buf pos w (by omega)

/-- R70 for the first branch of `emit`. -/
theorem mergeBits_stream {lim n : Nat} {w : Writer} (h : w.Inv lim) (value : Nat) (hn : n < w.free) :
    (mergeBits w (lowBits value n) n).stream = w.stream ++ bitsN value n := by
  have hle := h.free_le
  have hcache : (w.cache.toNat + value % 2 ^ n * 2 ^ (w.free - n)) / 2 ^ (w.free - n) =
      w.cache.toNat / 2 ^ w.free * 2 ^ n + value % 2 ^ n := by
    have hpow : 2 ^ n * 2 ^ (w.free - n) = 2 ^ w.free := by rw [← Nat.pow_add, Nat.add_sub_cancel' hn.le]
    have hsum : w.cache.toNat + value % 2 ^ n * 2 ^ (w.free - n) =
        (w.cache.toNat / 2 ^ w.free * 2 ^ n + value % 2 ^ n) * 2 ^ (w.free - n) := by
      rw [Nat.add_mul, Nat.mul_assoc, hpow, h.valid_bits]
    rw [hsum, Nat.mul_div_cancel _ (by positivity)]
  rw [Writer.stream_eq, w.stream_eq, mergeBits_cache_toNat h.cache_clear hle hn.le, mergeBits_free, mergeBits_buf,
    mergeBits_pos, hcache, show 32 - (w.free - n) = 32 - w.free + n by omega,
    bitsN_mul_add _ _ _ _ (Nat.mod_lt _ (by positivity)), bitsN_mod, List.append_assoc]

/-- R70 for the second branch of `emit`: the full word holds the cache's bits and the field's first `free` bits, the new
cache the rest of the field. -/
theorem flushBits_stream {lim n : Nat} {w : Writer} (h : w.Inv lim) (value : Nat) (hn : w.free ≤ n) (h32 : n ≤ 32) :
    (flushBits w (lowBits value n) n).stream = w.stream ++ bitsN value n := by
  obtain ⟨r, rfl⟩ := Nat.exists_eq_add_of_le hn
  have hr : w.free + r - w.free = r := Nat.add_sub_cancel_left ..
  have hle := h.free_le
  have hword : bitsN (w.cache.toNat + value % 2 ^ (w.free + r) / 2 ^ r) 32 =
      bitsN (w.cache.toNat / 2 ^ w.free) (32 - w.free) ++ bitsN (value / 2 ^ r) w.free := by
    have hfield : value % 2 ^ (w.free + r) / 2 ^ r = value / 2 ^ r % 2 ^ w.free := by
      rw [Nat.add_comm, Nat.pow_add, Nat.mod_mul_right_div_self]
    rw [← bitsN_mod (value / 2 ^ r), ← bitsN_mul_add _ _ _ _ (Nat.mod_lt _ (by positivity)), h.valid_bits,
      Nat.sub_add_cancel hle, hfield]
  have hrest : bitsN ((flushBits w (lowBits value (w.free + r)) (w.free + r)).cache.toNat / 2 ^ (32 - r))
      (32 - (32 - r)) = bitsN value r := by
    rw [flushBits_cache_toNat hn h.free_pos h32, hr, Nat.mul_div_cancel _ (by positivity),
      Nat.sub_sub_self (by omega), bitsN_mod]
  have hout : bytesBits (flushBits w (lowBits value (w.free + r)) (w.free + r)).buf 0 (w.pos + 4) =
      bytesBits w.buf 0 w.pos ++ bitsN (w.cache.toNat + value % 2 ^ (w.free + r) / 2 ^ r) 32 := by
    refine (bytesBits_writeBytes_end w.buf w.pos le_rfl _).trans ?_
    rw [flushWord_toNat h.cache_clear hn h32, hr, Nat.sub_self, Nat.pow_zero, Nat.div_one]
  rw [Writer.stream_eq, w.stream_eq, flushBits_pos, flushBits_free, hr, hout, hrest, hword, bitsN_add value w.free r]
  simp only [List.append_assoc]

/-- R72 for the writes of `BYTE_ALIGN`: the pending bits, then zeros up to a whole number of bytes. -/
theorem flushPending_stream {lim : Nat} {w : Writer} (h : w.Inv lim) :
    (flushPending w).stream =
      w.stream ++ List.replicate (8 * pendingBytes w - (32 - w.free)) false := by
  have hpos := h.free_pos
  have hle := h.free_le
  have hp : pendingBytes w = (32 - w.free + 7) / 8 := rfl
  have hlead := h.leading_bits (z := 8 * pendingBytes w - (32 - w.free)) (by omega)
  rw [show w.free - (8 * pendingBytes w - (32 - w.free)) = 32 - 8 * pendingBytes w by omega,
    show 32 - w.free + (8 * pendingBytes w - (32 - w.free)) = 8 * pendingBytes w by omega] at hlead
  have hout : bytesBits (flushPending w).buf 0 (w.pos + pendingBytes w) =
      bytesBits w.buf 0 w.pos ++ bitsN (w.cache.toNat / 2 ^ (32 - 8 * pendingBytes w)) (8 * pendingBytes w) :=
    bytesBits_writeBytes_end w.buf w.pos (pendingBytes_le h) w.cache
  rw [Writer.stream_eq, w.stream_eq, flushPending_pos, flushPending_free, hout, hlead]
  simp [bitsN]

theorem Appends.refl {lim : Nat} {w : Writer} (h : w.Inv lim) : Appends lim w [] w := by
  have hpos := h.free_pos
  have hwords : wordsCompleted w 0 = 0 := by unfold wordsCompleted; omega
  exact ⟨h, (List.append_nil _).symm, by rw [List.length_nil, hwords]; rfl, by rw [List.length_nil, hwords]; rfl⟩

/-- Appending a string and then another is appending the two together (R70, R74). -/
theorem Appends.trans {lim : Nat} {w u v : Writer} {a b : List Bool} (h : Appends lim w a u) (h' : Appends lim u b v) :
    Appends lim w (a ++ b) v := by
  have hle := h.inv.free_le
  have hlen := congrArg List.length h.stream
  rw [List.length_append, stream_length, stream_length, h.pos] at hlen
  have hwords : wordsCompleted w (a ++ b).length = wordsCompleted w a.length + wordsCompleted u b.length := by
    rw [List.length_append]
    unfold wordsCompleted at hlen ⊢
    omega
  refine ⟨h'.inv, by rw [h'.stream, h.stream, List.append_assoc], ?_, ?_⟩
  · rw [h'.pos, h.pos, hwords]
    omega
  · rw [h'.cap, h.cap, h.pos, hwords, capAfterFlushes_add]

/-- The writer and the string appended determine the writer after (R74, R75). -/
theorem Appends.unique {lim : Nat} {w u v : Writer} {bits : List Bool} (h : Appends lim w bits u)
    (h' : Appends lim w bits v) : u = v :=
  h.inv.eq_of_stream h'.inv (h.stream.trans h'.stream.symm) (h.pos.trans h'.pos.symm) (h.cap.trans h'.cap.symm)

/-- R70: an `emit` that completes appends its field. -/
theorem emit_appends {lim value n : Nat} {w w' : Writer} (h : w.Inv lim) (h32 : n ≤ 32)
    (he : emit lim w value n = .ok w') : Appends lim w (bitsN value n) w' := by
  have hle := h.free_le
  have hinv := emit_inv h h32 he
  rcases emit_ok he with ⟨rfl, rfl⟩ | ⟨_, hn, rfl⟩ | ⟨_, hn, c, hr, rfl⟩
  · exact .refl h
  · have hwords : wordsCompleted w n = 0 := by unfold wordsCompleted; omega
    refine ⟨hinv, mergeBits_stream h value hn, ?_, ?_⟩ <;> rw [bitsN_length, hwords] <;> rfl
  · have hpos := h.free_pos
    have hwords : wordsCompleted w n = 1 := by unfold wordsCompleted; omega
    refine ⟨hinv, (flushBits_stream (h.grown hr) value hn h32 :), ?_, ?_⟩ <;> rw [bitsN_length, hwords]
    · rfl
    · exact roomStep_eq_capAfterFlushes hr

/-- R70 over a list of fields. -/
theorem emitFields_appends {lim : Nat} {fs : List Field} : ∀ {w w' : Writer}, w.Inv lim → (∀ f ∈ fs, f.width ≤ 32) →
    emitFields lim w fs = .ok w' → Appends lim w (fieldsBits fs) w' := by
  induction fs with
  | nil => rintro w w' h _ ⟨⟩; exact .refl h
  | cons f fs ih =>
    intro w w' h hwidth he
    obtain ⟨hf, hfs⟩ := List.forall_mem_cons.mp hwidth
    obtain ⟨u, hu, hrest⟩ := emitFields_cons he
    have hfirst := emit_appends h hf hu
    rw [fieldsBits_cons]
    exact hfirst.trans (ih hfirst.inv hfs hrest)

/-- R75: what is appended to an empty writer of capacity `c` determines each part of the writer after. -/
theorem Appends.holdsStream {lim c : Nat} {bits : List Bool} {w : Writer} (h : Appends lim ⟨[], 0, c, 0, 32⟩ bits w) :
    HoldsStream c bits w := by
  have hstream : w.stream = bits := h.stream
  have hwords : wordsCompleted ⟨[], 0, c, 0, 32⟩ bits.length = bits.length / 32 := by
    unfold wordsCompleted; rw [Nat.sub_self, Nat.zero_add]
  have hpos : w.pos = 4 * (bits.length / 32) := by rw [h.pos, hwords, Nat.zero_add]
  refine ⟨hstream, hpos, ?_, ?_, ?_, by rw [h.cap, hwords]⟩
  · rw [← w.take_stream, hstream]
  · have hlen := congrArg List.length hstream
    rw [stream_length] at hlen
    have := h.inv.free_le
    omega
  · rw [h.inv.cache_bits, hstream]

end Sys2Proof.Machine
end

section
/-! Proofs about the bitstream writer (spec 40_bitstream_writer.md), part 2: the five commands. First what the entry
checks answer and what a command that completes has done, then the commands' rules, then a run of writes, then the
statements. -/

namespace Sys2Proof.Machine

/-! ## Entry checks and completion -/

/-- R139: `NotInitialised`, for every command but `NEW`. -/
theorem exec_notInitialised {i : Instr} {s : State} (hi : i ≠ .new) (h : s.status.init = false) :
    exec i s = .next (s.withFault .notInitialised) := by
  rw [exec_eq, runCommand_notInitialised ((commandKind_needsInit i).mpr hi) h, raiseFault_latching]

/-- R142: the refusal while a fault is latched, for every command but `NEW` and `GET_BITS_COUNT`. -/
theorem exec_refused {i : Instr} {s : State} (hi : i ≠ .new ∧ i ≠ .getBitsCount) (h : s.status.init = true)
    (hf : s.status.fault ≠ .none) : exec i s = .next (s.withLast s.status.fault) := by
  rw [exec_eq]
  exact runCommand_refused ((commandKind_refusedOnFault i).mpr hi) h hf

/-- A command that reports no fault was accepted, and its rule completed (R142). -/
theorem exec_completed {i : Instr} {s t : State} (h : exec i s = .next t) (hl : t.status.last = .none) :
    (commandKind i).Accepts s ∧ ∃ s', commandRule i s = .ok s' ∧ t = { s' with status := s'.status.complete } := by
  rw [exec_eq] at h
  exact runCommand_completed h hl fun c hr => (commandRule_error hr).ne_none

/-- A command that completes on a ready state leaves a ready one. -/
theorem State.Ready.of_completed {i : Instr} {s t : State} (hs : s.Ready) (h : exec i s = .next t)
    (hl : t.status.last = .none) : t.Ready := by
  obtain ⟨hinit, hfault⟩ := hs
  rcases exec_cases h with ⟨c, l, hc, _, rfl⟩ | rfl | ⟨_, _, _, rfl⟩ | ⟨_, w, v0, v1, rfl, _⟩
  · exact absurd hl hc
  · exact ⟨hinit, hfault⟩
  · exact ⟨rfl, rfl⟩
  · exact ⟨hinit, hfault⟩

theorem State.withLast_self {s : State} {c : FaultCode} (h : s.status.last = c) : s.withLast c = s := by
  subst h
  rfl

/-- A ready state whose command's rule only sets the writer: that, and `LAST` 0. -/
theorem exec_setWriter {i : Instr} {s : State} {w : Writer} (hs : s.Ready)
    (hr : commandRule i s = .ok (s.setWriter w)) :
    exec i s = .next (State.withLast { s with writer := w } .none) := by
  rw [exec_eq]
  exact runCommand_ready_ok hs hr rfl

/-! ## `NEW`, `RESET` and `GET_BITS_COUNT` -/

theorem new_completed {s t : State} (h : exec .new s = .next t) (hl : t.status.last = .none) :
    t.writer = ⟨[], 0, s.regs.op0.toNat, 0, 32⟩ := by
  obtain ⟨_, s', hr, rfl⟩ := exec_completed h hl
  obtain ⟨_, _, rfl⟩ := newRule_ok hr
  rfl

theorem reset_completed {s t : State} (h : exec .reset s = .next t) (hl : t.status.last = .none) :
    t.writer = ⟨[], 0, s.writer.cap, 0, 32⟩ := by
  obtain ⟨_, s', hr, rfl⟩ := exec_completed h hl
  cases hr
  rfl

/-- `RES0` holds the bit count where it fits (R66). -/
theorem bitCountWord_toNat {w : Writer} (h : w.stream.length < 2 ^ 32) :
    (bitCountWord w).toNat = w.stream.length := by
  have hcount : bitCount w = w.stream.length := (stream_length w).symm
  unfold bitCountWord
  rw [hcount, if_pos h, BitVec.toNat_ofNat, Nat.mod_eq_of_lt h]

/-- On an initialised block `GET_BITS_COUNT` completes, whatever `FAULT` holds (R66, R142). -/
theorem exec_getBitsCount {s : State} (h : s.status.init = true) : exec .getBitsCount s =
    .next (State.withLast { s with regs := { s.regs with res0 := bitCountWord s.writer } } .none) := by
  have hr : getBitsCountRule s = .ok (s.setRes0 (bitCountWord s.writer)) := rfl
  exact runCommand_ok (k := .bitCount) ⟨fun _ => h, nofun⟩ hr

/-! ## `WRITE_BITS` -/

/-- With room, or growth that is permitted, a room check passes (R63). -/
theorem roomStep_of_room_or_growth {lim pos cap : Nat} (h : 4 ≤ cap - pos ∨ cap + cap / 2 ≤ lim) :
    roomStep lim pos cap = .ok (if cap - pos < 4 then cap + cap / 2 else cap) := by
  split_ifs with hfull
  · exact roomStep_of_growth hfull (by omega)
  · exact roomStep_of_room (by omega)

/-- Up to 32 bits the rule of `WRITE_BITS` is `emit` (R65). -/
theorem writeBitsRule_eq (s : State) {n : Nat} (h32 : n ≤ 32) :
    writeBitsRule n s = (emit s.params.capLimit s.writer s.regs.op0.toNat n).map s.setWriter :=
  if_neg (Nat.not_lt.mpr h32)

theorem exec_writeBits_of_emit {s : State} {n : Nat} {w : Writer} (hs : s.Ready) (h32 : n ≤ 32)
    (he : emit s.params.capLimit s.writer s.regs.op0.toNat n = .ok w) :
    exec (.writeBits n) s = .next (State.withLast { s with writer := w } .none) :=
  exec_setWriter hs ((writeBitsRule_eq s h32).trans (by rw [he]; rfl))

/-- A `WRITE_BITS` that completes is an `emit` of at most 32 bits (R65). -/
theorem writeBits_completed {s t : State} {n : Nat} (h : exec (.writeBits n) s = .next t)
    (hl : t.status.last = .none) :
    n ≤ 32 ∧ emit s.params.capLimit s.writer s.regs.op0.toNat n = .ok t.writer := by
  obtain ⟨_, s', hr, rfl⟩ := exec_completed h hl
  change writeBitsRule n s = .ok s' at hr
  unfold writeBitsRule maxWrite at hr
  split_ifs at hr with h32
  obtain ⟨w, hw, rfl⟩ := map_ok hr
  exact ⟨Nat.not_lt.mp h32, hw⟩

/-- R70 for the command: a `WRITE_BITS` that completes appends the low bits of `OP0`. -/
theorem writeBits_appends {s t : State} {n : Nat} (hs : s.Ready) (hi : s.Inv) (h : exec (.writeBits n) s = .next t)
    (hl : t.status.last = .none) : Appends s.params.capLimit s.writer (bitsN s.regs.op0.toNat n) t.writer := by
  obtain ⟨h32, he⟩ := writeBits_completed h hl
  exact emit_appends (hi.writer hs.1) h32 he

/-! ## `BYTE_ALIGN` -/

/-- A cache without valid bits is zero (R16 (b)). -/
theorem Writer.Inv.cache_eq_zero {lim : Nat} {w : Writer} (h : w.Inv lim) (hf : w.free = 32) : w.cache = 0 := by
  have hclear := h.cache_clear
  rw [hf, Nat.mod_eq_of_lt w.cache.isLt] at hclear
  exact BitVec.eq_of_toNat_eq hclear

/-- With an empty cache `BYTE_ALIGN` changes nothing (R67, R16 (b)). -/
theorem alignWriter_of_empty {lim : Nat} {w : Writer} (h : w.Inv lim) (hf : w.free = 32) :
    alignWriter lim w = .ok w := by
  have hcache := h.cache_eq_zero hf
  unfold alignWriter
  rw [if_pos ((pendingBytes_eq_zero h).mpr hf)]
  obtain ⟨buf, pos, cap, cache, free⟩ := w
  cases hf; cases hcache
  rfl

theorem alignWriter_of_pending {lim c : Nat} {w : Writer} (h : w.Inv lim) (hf : w.free < 32)
    (hr : roomStep lim w.pos w.cap = .ok c) : alignWriter lim w = .ok (flushPending { w with cap := c }) := by
  unfold alignWriter
  rw [if_neg (mt (pendingBytes_eq_zero h).mp hf.ne), ensureRoom_of_step hr]
  rfl

theorem alignWriter_of_exhausted {lim : Nat} {w : Writer} {e : FaultCode} (h : w.Inv lim) (hf : w.free < 32)
    (hr : roomStep lim w.pos w.cap = .error e) : alignWriter lim w = .error e := by
  unfold alignWriter
  rw [if_neg (mt (pendingBytes_eq_zero h).mp hf.ne), ensureRoom_of_error hr]
  rfl

/-- R72 on the writer: `BYTE_ALIGN` empties the cache and pads the stream to the next multiple of 8 with zeros. -/
theorem alignWriter_pads {lim : Nat} {w w' : Writer} (h : w.Inv lim) (ha : alignWriter lim w = .ok w') :
    w'.stream = w.stream ++ List.replicate ((8 - w.stream.length % 8) % 8) false ∧ w'.cache = 0 ∧ w'.free = 32 := by
  have hpos := h.free_pos
  have hle := h.free_le
  rcases alignWriter_ok ha with ⟨h0, _⟩ | ⟨_, c, hr, rfl⟩
  · have hf := (pendingBytes_eq_zero h).mp h0
    obtain rfl : w' = w := Except.ok.inj (ha.symm.trans (alignWriter_of_empty h hf))
    have hpad : (8 - w'.stream.length % 8) % 8 = 0 := by rw [stream_length]; omega
    rw [hpad]
    exact ⟨(List.append_nil _).symm, h.cache_eq_zero hf, hf⟩
  · have hpad : 8 * pendingBytes w - (32 - w.free) = (8 - w.stream.length % 8) % 8 := by
      rw [stream_length]
      change 8 * ((32 - w.free + 7) / 8) - (32 - w.free) = _
      omega
    rw [← hpad]
    exact ⟨(flushPending_stream (h.grown hr) :), rfl, rfl⟩

theorem exec_byteAlign_of_align {s : State} {w : Writer} (hs : s.Ready)
    (ha : alignWriter s.params.capLimit s.writer = .ok w) :
    exec .byteAlign s = .next (State.withLast { s with writer := w } .none) := by
  have hr : byteAlignRule s = .ok (s.setWriter w) := by unfold byteAlignRule; rw [ha]; rfl
  exact exec_setWriter (i := .byteAlign) hs hr

theorem byteAlign_completed {s t : State} (h : exec .byteAlign s = .next t) (hl : t.status.last = .none) :
    alignWriter s.params.capLimit s.writer = .ok t.writer := by
  obtain ⟨_, s', hr, rfl⟩ := exec_completed h hl
  obtain ⟨w, hw, rfl⟩ := map_ok hr
  exact hw

/-! ## A run of writes -/

/-- The state with a symbol's operands in `OP0..OP3` (R129). -/
def State.withOperands (s : State) (y : Symbol) : State :=
  { s with regs := { s.regs with op0 := y.op0, op1 := y.op1, op2 := y.op2, op3 := y.op3 } }

/-- A run of symbols issues the first and goes on from the state it leaves (R129). -/
theorem completesAs_cons {y : Symbol} {ys : List Symbol} {s t : State} :
    CompletesAs (y :: ys) s t ↔
      ∃ u, exec y.instr (s.withOperands y) = .next u ∧ u.status.last = .none ∧ CompletesAs ys u t := Iff.rfl

theorem State.Ready.withOperands {s : State} (h : s.Ready) (y : Symbol) : (s.withOperands y).Ready := h

theorem State.Inv.withOperands {s : State} (h : s.Inv) (y : Symbol) : (s.withOperands y).Inv :=
  h.of_frame rfl rfl rfl h.ix_wf h.ix_range

/-- The bit string a run of `WRITE_BITS` appends (R71). -/
abbrev writesBits (writes : List (Word × Nat)) : List Bool := (writes.map fun e => bitsN e.1.toNat e.2).flatten

theorem writesBits_length (writes : List (Word × Nat)) : (writesBits writes).length = (writes.map Prod.snd).sum := by
  rw [List.length_flatten, List.map_map]
  congr 1
  exact List.map_congr_left fun e _ => bitsN_length _ _

/-- A run of `WRITE_BITS` that complete appends their fields, and leaves the block ready (R70, R71). -/
theorem completesAs_writes_appends {writes : List (Word × Nat)} : ∀ {s t : State}, s.Ready → s.Inv →
    CompletesAs (writeSymbols writes) s t →
    t.Ready ∧ Appends s.params.capLimit s.writer (writesBits writes) t.writer := by
  induction writes with
  | nil => rintro s t hs hi rfl; exact ⟨hs, .refl (hi.writer hs.1)⟩
  | cons e es ih =>
    intro s t hs hi h
    obtain ⟨u, hu, hl, hrest⟩ := completesAs_cons.mp h
    have hready := hs.withOperands ⟨.writeBits e.2, e.1, 0, 0, 0⟩
    have hinv := hi.withOperands ⟨.writeBits e.2, e.1, 0, 0, 0⟩
    obtain ⟨hui, hparams⟩ := exec_inv hinv hu
    obtain ⟨ht, happ⟩ := ih (hready.of_completed hu hl) hui hrest
    rw [hparams] at happ
    exact ⟨ht, (writeBits_appends hready hinv hu hl).trans happ⟩

/-! ## The statements -/

/-- Settles O23: `NEW` is always accepted, and its rule checks the capacity; no other command clears a fault. -/
theorem newInitialisesOrFaults : Obligations.NewInitialisesOrFaults := by
  intro s
  have haccepts : CommandKind.initialise.Accepts s := ⟨nofun, nofun⟩
  refine ⟨fun ⟨hlow, hhigh⟩ => ?_, fun h => ?_, fun i hi => ⟨exec_notInitialised hi, fun t ht hfault => ?_⟩⟩
  · have hr : newRule s = .ok (recover s.regs.op0.toNat s) := if_neg (by unfold capMin; omega)
    exact runCommand_ok haccepts hr
  · have hr : newRule s = .error .illegalCommand := if_pos h
    rw [← raiseFault_latching]
    exact runCommand_error haccepts hr
  · rcases exec_status ht with ⟨_, hkept⟩ | ⟨hnew, _⟩
    · exact hkept hfault
    · exact absurd hnew hi

/-- Settles O24: the rule of `RESET` always completes; a latched fault refuses the command first. -/
theorem resetEmptiesTheStream : Obligations.ResetEmptiesTheStream := fun _ hinit =>
  ⟨fun hfault => exec_setWriter (i := .reset) ⟨hinit, hfault⟩ rfl, exec_refused ⟨nofun, nofun⟩ hinit⟩

/-- Settles O25: the first branch of `emit`. -/
theorem writeBitsMergesIntoCache : Obligations.WriteBitsMergesIntoCache := by
  intro s n hs hi h1 hn
  have hw := hi.writer hs.1
  have hle := hw.free_le
  exact ⟨_, mergeBits_cache_toNat hw.cache_clear hle hn.le,
    exec_writeBits_of_emit hs (by omega) (emit_merge h1 hn)⟩

/-- Settles O26: the second branch of `emit`, after a room check that passes. -/
theorem writeBitsFlushesFullWord : Obligations.WriteBitsFlushesFullWord := by
  intro s n hs hi hn h32 hroom
  have hw := hi.writer hs.1
  have hpos := hw.free_pos
  have hr := roomStep_of_room_or_growth hroom
  refine ⟨_, exec_writeBits_of_emit hs h32 (emit_flush (by omega) hn hr), rfl, rfl, rfl,
    (flushBits_cache_toNat hn hpos h32 :), fun j hj => ?_, fun k hk => writeBytes_read_other 4 _ _ _ hk⟩
  rw [← flushWord_toNat hw.cache_clear hn h32]
  exact writeBytes_read_at 4 _ _ _ hj le_rfl

/-- Settles O27: no bits, too many bits, and a room check that fails. -/
theorem writeBitsCornerCases : Obligations.WriteBitsCornerCases := by
  intro s n hs hi
  refine ⟨?_, fun h => exec_ready_error hs (i := .writeBits n) (if_pos h) nofun, fun hn h32 hfull hlim => ?_⟩
  · rintro rfl
    exact exec_writeBits_of_emit hs (Nat.zero_le _) (emit_zero _ _ _)
  · have hpos := (hi.writer hs.1).free_pos
    have he := emit_exhausted (value := s.regs.op0.toNat) (by omega) hn (roomStep_of_exhausted hfull hlim)
    exact exec_ready_error hs (i := .writeBits n) ((writeBitsRule_eq s h32).trans (by rw [he]; rfl)) nofun

/-- Settles O28: the stream part of what `emit` appends. -/
theorem emitAppendsItsBits : Obligations.EmitAppendsItsBits :=
  ⟨fun _ _ _ _ _ hw h32 he => (emit_appends hw h32 he).stream,
    fun _ _ _ hs hi h hl => (writeBits_appends hs hi h hl).stream⟩

/-- Settles O29: the count is the stream's length, and `pos` is bounded. -/
theorem bitCountIsStreamLength : Obligations.BitCountIsStreamLength := by
  intro s hi
  refine ⟨exec_notInitialised nofun, fun h => ⟨stream_length _, _, bitCountWord_toNat, exec_getBitsCount h⟩,
    fun h hpos => ?_⟩
  have hfree := (hi.writer h).free_pos
  rw [stream_length]
  omega

/-- Settles O30: the three outcomes of `BYTE_ALIGN`, the bytes by the law of `MemWrite`. -/
theorem byteAlignWritesPendingBytes : Obligations.ByteAlignWritesPendingBytes := by
  intro s hs hi
  have hw := hi.writer hs.1
  refine ⟨fun hf => ?_, fun hf hroom => ?_, fun hf hfull hlim => ?_⟩
  · exact exec_byteAlign_of_align hs (alignWriter_of_empty hw hf)
  · have hr := roomStep_of_room_or_growth hroom
    exact ⟨_, exec_byteAlign_of_align hs (alignWriter_of_pending hw hf hr), rfl, rfl, rfl, rfl,
      fun j hj => writeBytes_read_at _ _ _ _ hj (pendingBytes_le (hw.grown hr)),
      fun k hk => writeBytes_read_other _ _ _ _ hk⟩
  · have ha := alignWriter_of_exhausted hw hf (roomStep_of_exhausted hfull hlim)
    have hrule : byteAlignRule s = .error .bufferExhausted := by unfold byteAlignRule; rw [ha]; rfl
    exact exec_ready_error hs (i := .byteAlign) hrule nofun

/-- Settles O31: the padding law, and that an aligned writer has an empty cache. -/
theorem byteAlignPadsWithZeros : Obligations.ByteAlignPadsWithZeros := by
  intro s t hs hi h hl
  have ht := hs.of_completed h hl
  obtain ⟨hti, _⟩ := exec_inv hi h
  obtain ⟨hstream, hcache, hfree⟩ := alignWriter_pads (hi.writer hs.1) (byteAlign_completed h hl)
  refine ⟨hstream, ?_, hcache, hfree, ?_⟩
  · rw [stream_length, hfree]
    omega
  · have hagain := exec_byteAlign_of_align ht (alignWriter_of_empty (hti.writer ht.1) hfree)
    exact hagain.trans (congrArg _ (State.withLast_self hl))

/-- Settles O32: a run of writes appends its fields; `NEW` and `RESET` empty the stream; the padding is below 8 bits. -/
theorem bitCountIsConserved : Obligations.BitCountIsConserved := by
  refine ⟨fun s t writes hs hi h => ?_, ?_, fun s t hs hi h hl => ?_⟩
  · obtain ⟨ht, happ⟩ := completesAs_writes_appends hs hi h
    have hlen : t.writer.stream.length = s.writer.stream.length + (writes.map Prod.snd).sum := by
      rw [happ.stream, List.length_append, writesBits_length]
    exact ⟨happ.stream, hlen, _, exec_getBitsCount ht.1, fun hlt => (bitCountWord_toNat (hlen ▸ hlt)).trans hlen⟩
  · rintro i s t (rfl | rfl) h hl
    · rw [new_completed h hl]; rfl
    · rw [reset_completed h hl]; rfl
  · obtain ⟨hstream, _⟩ := alignWriter_pads (hi.writer hs.1) (byteAlign_completed h hl)
    rw [hstream, List.length_append, List.length_replicate]
    omega

/-- Settles O33: the field follows the old stream, and a stream bit below `8*pos` stands in its byte of `OUT`. -/
theorem writtenFieldReadsBackMasked : Obligations.WrittenFieldReadsBackMasked := by
  intro s t n hs hi h hl
  have hstream := (writeBits_appends hs hi h hl).stream
  refine ⟨?_, fun u hu ⟨rest, hrest⟩ hlen j hj => ?_⟩
  · rw [hstream, List.drop_left, List.take_of_length_le (bitsN_length _ _).le]
  · obtain ⟨b, hb⟩ := hu.exists_read (show (s.writer.stream.length + j) / 8 < u.pos by omega)
    have hbit : u.stream[s.writer.stream.length + j]? = some (s.regs.op0.toNat.testBit (n - 1 - j)) := by
      rw [← hrest, hstream, List.append_assoc, List.getElem?_append_right (Nat.le_add_right _ _),
        Nat.add_sub_cancel_left, List.getElem?_append_left (by rwa [bitsN_length]), bitsN_getElem?, if_pos hj]
    rw [stream_getElem?_of_read (by omega) hb] at hbit
    refine ⟨b, hb, ?_⟩
    rw [Option.some.inj hbit, Nat.testBit_mod_two_pow, decide_eq_true (show n - 1 - j < n by omega), Bool.true_and]

/-- Settles O34: both runs append the same bit string, which determines the writer. -/
theorem emitsSplitAndMerge : Obligations.EmitsSplitAndMerge := by
  constructor
  · intro lim a m b n w u v v' hw hmn hm hn hmerged
    have hfirst := emit_appends hw (by omega) hm
    have hsplit := hfirst.trans (emit_appends hfirst.inv (by omega) hn)
    have hwhole := emit_appends hw hmn hmerged
    rw [bitsN_mul_add _ _ _ _ (Nat.mod_lt _ (by positivity)), bitsN_mod, bitsN_mod] at hwhole
    exact hsplit.unique hwhole
  · intro lim w u v fs gs hw hfs hgs heq hu hv
    have hfirst := emitFields_appends hw hfs hu
    rw [heq] at hfirst
    exact hfirst.unique (emitFields_appends hw hgs hv)

/-- Settles O35: what a run appends to the empty writer determines every part of the writer. -/
theorem writerIsAFunctionOfItsStream : Obligations.WriterIsAFunctionOfItsStream := by
  refine ⟨fun s t => new_completed, fun s t => reset_completed, fun lim c fs w h8 hl hfs he => ?_,
    fun c writes s t hs hi hw h => ?_⟩
  · exact (emitFields_appends (freshWriter_inv h8 hl) hfs he).holdsStream
  · obtain ⟨_, happ⟩ := completesAs_writes_appends hs hi h
    rw [hw] at happ
    exact happ.holdsStream

end Sys2Proof.Machine
end

section
/-! Proofs about the tables as parameters (spec 41_huffman_tables.md): the two answers of power-on, then the statement. -/

namespace Sys2Proof.Machine

/-! ## Power-on -/

theorem powerOn_of_wellFormed {p : Params} (h : p.WellFormed) : powerOn p = .next { State.reset with params := p } :=
  if_pos (p.check_iff.mpr h)

theorem powerOn_of_not_wellFormed {p : Params} (h : ¬ p.WellFormed) : powerOn p = .refused .illFormedConfiguration :=
  if_neg (mt p.check_iff.mp h)

/-! ## The statements -/

/-- Settles O2: the check that power-on runs decides well-formedness. -/
theorem powerOnRefusesIllFormedRom : Obligations.PowerOnRefusesIllFormedRom :=
  fun _ => ⟨powerOn_of_wellFormed, powerOn_of_not_wellFormed⟩

end Sys2Proof.Machine
end

section
/-! Proofs about table selection and bit counting (spec 42_huffman_count_select.md), part 1: the three queries. First what a
query answers in each outcome of its rule, then that its rule reads magnitudes only, then how much a range can cost, then
the choice of a table, then the first choices under the reference metadata, then the statements. -/

namespace Sys2Proof.Machine

/-! ## The answers of a command on a ready state -/

/-- A ready state whose command's rule only sets `RES0`: that, and `LAST` 0. -/
theorem exec_setRes0 {i : Instr} {s : State} {v : Word} (hs : s.Ready) (hr : commandRule i s = .ok (s.setRes0 v)) :
    exec i s = .next (State.withLast { s with regs := { s.regs with res0 := v } } .none) := by
  rw [exec_eq]
  exact runCommand_ready_ok hs hr rfl

/-- A query that reports a range violation on a ready state: `LAST` only (R141). -/
theorem exec_query_violation {i : Instr} {s : State} (hs : s.Ready) (hi : IsQuery i)
    (hr : commandRule i s = .error .encodingRangeViolation) : exec i s = .next (s.withLast .encodingRangeViolation) := by
  rw [exec_eq, (commandKind_query_iff i).mpr hi]
  exact runCommand_ready_retry hs hr

/-- On a ready state `LAST` names exactly the fault of the command's own rule (R141, R142). -/
theorem exec_last_iff {i : Instr} {s u : State} {c : FaultCode} (hs : s.Ready) (h : exec i s = .next u) (hc : c ≠ .none) :
    u.status.last = c ↔ commandRule i s = .error c := by
  rw [exec_eq] at h
  cases hr : commandRule i s with
  | error e =>
    rw [runCommand_error (hs.accepts _) hr] at h
    cases h
    rw [Except.error.injEq]
    rfl
  | ok s' =>
    rw [runCommand_ok (hs.accepts _) hr] at h
    cases h
    exact ⟨fun hn => absurd hn.symm hc, nofun⟩

/-! ## The rules of the queries, by range -/

theorem selectTableRule_of_range {s : State} (h : RangeOk s.regs.op0.toNat s.regs.op1.toNat) :
    selectTableRule s = (chooseTable s.params (coefficient s) s.regs.op0.toNat s.regs.op1.toNat).map fun t =>
      s.setRes0 (BitVec.ofNat 32 t) := by
  unfold selectTableRule
  rw [(checkRange_eq _ _).1 h]

theorem selectTableRule_of_badRange {s : State} (h : ¬ RangeOk s.regs.op0.toNat s.regs.op1.toNat) :
    selectTableRule s = .error .invalidHuffmanIndex := by
  unfold selectTableRule
  rw [(checkRange_eq _ _).2 h]

theorem countBitsRule_of_range {s : State} {t : Nat} (ht : t ≤ 31) (h : RangeOk s.regs.op0.toNat s.regs.op1.toNat) :
    countBitsRule t s = (countRange s.params.ht (coefficient s) s.regs.op0.toNat s.regs.op1.toNat t).map fun bits =>
      s.setRes0 (BitVec.ofNat 32 bits) := by
  unfold countBitsRule
  rw [if_neg (Nat.not_lt.mpr ht), (checkRange_eq _ _).1 h]

theorem countBitsRule_of_badRange {s : State} {t : Nat} (ht : t ≤ 31)
    (h : ¬ RangeOk s.regs.op0.toNat s.regs.op1.toNat) : countBitsRule t s = .error .invalidHuffmanIndex := by
  unfold countBitsRule
  rw [if_neg (Nat.not_lt.mpr ht), (checkRange_eq _ _).2 h]

theorem count1BitsRule_of_region {s : State} (h : s.regs.op0.toNat + 4 * s.regs.op1.toNat ≤ 576) :
    count1BitsRule s = (count1Sums s.params.ht (coefficient s) s.regs.op0.toNat s.regs.op1.toNat).map fun sums =>
      s.setRes (BitVec.ofNat 32 (count1Choice s.params.count1Tie sums).1)
        (BitVec.ofNat 32 (count1Choice s.params.count1Tie sums).2) :=
  if_neg (Nat.not_lt.mpr h)

/-! ## A query reads magnitudes only -/

/-- Two coefficient sequences of the same magnitudes on `[b, e)` (R95). -/
def SameMagnitudes (ix ix' : Nat → Int) (b e : Nat) : Prop := ∀ k, b ≤ k → k < e → (ix k).natAbs = (ix' k).natAbs

theorem maxAbs_congr {ix ix' : Nat → Int} : ∀ {n b : Nat}, SameMagnitudes ix ix' b (b + n) →
    maxAbs ix b n = maxAbs ix' b n := by
  intro n
  induction n with
  | zero => intro b _; rfl
  | succ n ih =>
    intro b h
    have hfirst := h b le_rfl (by omega)
    have hrest := ih (b := b + 1) fun k hlow hhigh => h k (by omega) (by omega)
    unfold maxAbs magnitude
    rw [hfirst, hrest]

theorem countPairs_congr (h : Table) (t : Nat) {ix ix' : Nat → Int} : ∀ {n i : Nat},
    SameMagnitudes ix ix' i (i + 2 * n) → countPairs h t ix i n = countPairs h t ix' i n := by
  intro n
  induction n with
  | zero => intro i _; rfl
  | succ n ih =>
    intro i hm
    have hx := hm i le_rfl (by omega)
    have hy := hm (i + 1) (by omega) (by omega)
    have hrest := ih (i := i + 2) fun k hlow hhigh => hm k (by omega) (by omega)
    unfold countPairs magnitude
    rw [hx, hy, hrest]

theorem countRange_congr (ht : Rom) {ix ix' : Nat → Int} {b e : Nat} (h : SameMagnitudes ix ix' b e) :
    countRange ht ix b e = countRange ht ix' b e := by
  funext t
  have hpairs := countPairs_congr (ht.table t) t (n := (e - b) / 2) (i := b)
    fun k hlow hhigh => h k hlow (by omega)
  unfold countRange
  rw [hpairs]

/-- The choice of a table reads the ROM, the two tie rules and the magnitudes of the range (R95). -/
theorem chooseTable_congr {p p' : Params} (hht : p.ht = p'.ht) (hnoesc : p.tieNoesc = p'.tieNoesc)
    (hesc : p.tieEsc = p'.tieEsc) {ix ix' : Nat → Int} {b e : Nat} (h : SameMagnitudes ix ix' b e) :
    chooseTable p ix b e = chooseTable p' ix' b e := by
  have hmax : maxAbs ix b (e - b) = maxAbs ix' b (e - b) :=
    maxAbs_congr fun k hlow hhigh => h k hlow (by omega)
  unfold chooseTable selectNoesc selectEsc
  rw [hmax, hht, hnoesc, hesc, countRange_congr p'.ht h]

theorem nonzeroBit_eq_nonzeroMag (n : Int) : nonzeroBit n = nonzeroMag n.natAbs := by
  rw [nonzeroBit_eq, nonzeroMag_natAbs]

theorem quadBits_congr (h : Table) {v w x y v' w' x' y' : Int} (hv : v.natAbs = v'.natAbs) (hw : w.natAbs = w'.natAbs)
    (hx : x.natAbs = x'.natAbs) (hy : y.natAbs = y'.natAbs) : quadBits h v w x y = quadBits h v' w' x' y' := by
  unfold quadBits quadIndex quadInRange quadPattern quadSigns magnitude
  simp only [nonzeroBit_eq_nonzeroMag, hv, hw, hx, hy]

theorem count1Sums_congr (ht : Rom) {ix ix' : Nat → Int} : ∀ {n i : Nat}, SameMagnitudes ix ix' i (i + 4 * n) →
    count1Sums ht ix i n = count1Sums ht ix' i n := by
  intro n
  induction n with
  | zero => intro i _; rfl
  | succ n ih =>
    intro i hm
    have hquad (h : Table) := quadBits_congr h (hm i le_rfl (by omega)) (hm (i + 1) (by omega) (by omega))
      (hm (i + 2) (by omega) (by omega)) (hm (i + 3) (by omega) (by omega))
    have hrest := ih (i := i + 4) fun k hlow hhigh => hm k (by omega) (by omega)
    unfold count1Sums
    rw [hquad, hquad, hrest]

/-- Two states agree on all that the query `i` may read (R95). -/
structure QueryInputsAgree (i : Instr) (s1 s2 : State) : Prop where
  op0 : s1.regs.op0 = s2.regs.op0
  op1 : s1.regs.op1 = s2.regs.op1
  ht : s1.params.ht = s2.params.ht
  tieNoesc : s1.params.tieNoesc = s2.params.tieNoesc
  tieEsc : s1.params.tieEsc = s2.params.tieEsc
  count1Tie : s1.params.count1Tie = s2.params.count1Tie
  magnitudes : SameMagnitudes (coefficient s1) (coefficient s2) s1.regs.op0.toNat
    (if i = .count1Bits then s1.regs.op0.toNat + 4 * s1.regs.op1.toNat else s1.regs.op1.toNat)

/-- On states that agree on a query's inputs its rule has the same outcome, and writes the same results. -/
theorem queryRule_congr {i : Instr} {s1 s2 : State} (hi : IsQuery i) (h : QueryInputsAgree i s1 s2) :
    commandRule i s2 = (commandRule i s1).map fun u =>
      s2.setRes u.regs.res0 (if i = .count1Bits then u.regs.res1 else s2.regs.res1) := by
  have hmag := h.magnitudes
  rcases hi with rfl | ⟨t, rfl⟩ | rfl
  · rw [if_neg nofun] at hmag
    change selectTableRule s2 = (selectTableRule s1).map _
    unfold selectTableRule
    rw [← h.op0, ← h.op1, ← chooseTable_congr h.ht h.tieNoesc h.tieEsc hmag]
    cases checkRange s1.regs.op0.toNat s1.regs.op1.toNat with
    | error c => rfl
    | ok _ => cases chooseTable s1.params (coefficient s1) s1.regs.op0.toNat s1.regs.op1.toNat <;> rfl
  · rw [if_neg nofun] at hmag
    change countBitsRule t s2 = (countBitsRule t s1).map _
    unfold countBitsRule
    rw [← h.op0, ← h.op1, ← h.ht, ← countRange_congr s1.params.ht hmag]
    by_cases ht : 31 < t
    · rw [if_pos ht, if_pos ht]; rfl
    · rw [if_neg ht, if_neg ht]
      cases checkRange s1.regs.op0.toNat s1.regs.op1.toNat with
      | error c => rfl
      | ok _ => cases countRange s1.params.ht (coefficient s1) s1.regs.op0.toNat s1.regs.op1.toNat t <;> rfl
  · rw [if_pos rfl] at hmag
    change count1BitsRule s2 = (count1BitsRule s1).map _
    unfold count1BitsRule
    rw [← h.op0, ← h.op1, ← h.ht, ← h.count1Tie, ← count1Sums_congr s1.params.ht hmag]
    by_cases hpast : granuleSize < s1.regs.op0.toNat + 4 * s1.regs.op1.toNat
    · rw [if_pos hpast, if_pos hpast]; rfl
    · rw [if_neg hpast, if_neg hpast]
      cases count1Sums s1.params.ht (coefficient s1) s1.regs.op0.toNat s1.regs.op1.toNat <;> rfl

/-- Two ready states that raise the same fault have the same `STATUS`: only `LAST` told them apart. -/
theorem State.Ready.raise_eq {s1 s2 : State} (h1 : s1.Ready) (h2 : s2.Ready) (c : FaultCode) (l : Bool) :
    s1.status.raise c l = s2.status.raise c l := by
  cases l with
  | true => rw [h1.raise, h2.raise]
  | false => rw [h1.raise_unlatched, h2.raise_unlatched]

theorem State.Ready.raise_fault {s : State} (h : s.Ready) (c : FaultCode) (l : Bool) :
    (s.status.raise c l).fault = .none ∨ (s.status.raise c l).fault = c := by
  cases l with
  | true => rw [h.raise]; exact .inr rfl
  | false => rw [h.raise_unlatched]; exact .inl rfl

/-! ## How much a range can cost -/

/-- A pair costs at most 64 bits: two fields of at most 32 (R84, R102). -/
theorem pairCost_le {ht : Rom} (hw : ht.WellFormed) {t : Nat} (h32 : t < 32) (x y : Int) :
    pairCost (ht.table t) t x y ≤ 64 := by
  obtain ⟨hlow, hhigh, hext⟩ := wellFormed_widths hw (t := t) (by omega) (pairIndex (ht.table t) t x.natAbs y.natAbs)
  rw [pairCost_eq, extensionBits_eq, extensionBits_eq]
  split_ifs <;> omega

theorem rangeCost_le {s : State} (hw : s.params.ht.WellFormed) {b e t : Nat} (h32 : t < 32) (h : RangeOk b e) :
    rangeCost s b e t ≤ 288 * 64 := by
  obtain ⟨_, h576, _⟩ := h
  unfold rangeCost
  split_ifs
  · exact Nat.zero_le _
  · refine (List.sum_le_card_nsmul _ 64 ?_).trans ?_
    · intro cost hcost
      obtain ⟨k, _, rfl⟩ := List.mem_map.mp hcost
      exact pairCost_le hw h32 _ _
    · rw [List.length_map, List.length_range, smul_eq_mul]
      omega

/-- A quadruple costs at most 36 bits: a code and four signs (R84, R105). -/
theorem quadCost_le {ht : Rom} (hw : ht.WellFormed) {sel : Nat} (h1 : sel ≤ 1) (v w x y : Int) :
    quadCost (ht.table (32 + sel)) v w x y ≤ 36 := by
  obtain ⟨_, hcode, _⟩ := wellFormed_widths hw (t := 32 + sel) (by omega) (quadPattern v w x y)
  rw [quadCost_eq]
  unfold quadSigns
  simp only [nonzeroBit_eq]
  split_ifs <;> omega

theorem quadsCost_lt {s : State} (hw : s.params.ht.WellFormed) {b n sel : Nat} (h1 : sel ≤ 1) (h : b + 4 * n ≤ 576) :
    quadsCost s b n sel < 2 ^ 32 := by
  have hsum : quadsCost s b n sel ≤ n * 36 := by
    unfold quadsCost
    refine (List.sum_le_card_nsmul _ 36 ?_).trans ?_
    · intro cost hcost
      obtain ⟨k, _, rfl⟩ := List.mem_map.mp hcost
      exact quadCost_le hw h1 _ _ _ _
    · rw [List.length_map, List.length_range, smul_eq_mul]
  omega

/-! ## The count1 tables -/

/-- The sums of `COUNT1_BITS` over a region whose quadruples are representable (R106). -/
theorem count1Sums_ok {s : State} (hw : s.params.ht.WellFormed) {b n : Nat}
    (h : ∀ k, k < n → QuadRepresentableAt s (b + 4 * k)) :
    count1Sums s.params.ht (coefficient s) b n = .ok (quadsCost s b n 0, quadsCost s b n 1) :=
  (count1Sums_eq hw (coefficient s) n b).1 h

theorem count1Sums_violation {s : State} (hw : s.params.ht.WellFormed) {b n : Nat}
    (h : ¬ ∀ k, k < n → QuadRepresentableAt s (b + 4 * k)) :
    count1Sums s.params.ht (coefficient s) b n = .error .encodingRangeViolation :=
  (count1Sums_eq hw (coefficient s) n b).2 h

theorem count1Choice_fst (tie : Fin 2) (sums : Nat × Nat) : (count1Choice tie sums).1 = min sums.1 sums.2 := by
  unfold count1Choice
  split_ifs <;> dsimp only <;> omega

theorem count1Choice_snd (tie : Fin 2) (sums : Nat × Nat) : (count1Choice tie sums).2 =
    if sums.1 < sums.2 then 0 else if sums.2 < sums.1 then 1 else tie.val := by
  unfold count1Choice
  split_ifs <;> rfl

/-! ## The choice of a table -/

/-- The count over a range on a well-formed ROM completes or reports a range violation (R100, R102). -/
theorem countRange_ok_or_violation {s : State} (hw : s.params.ht.WellFormed) {t : Nat} (h32 : t < 32) (b e : Nat) :
    countRange s.params.ht (coefficient s) b e t = .ok (rangeCost s b e t) ∨
      countRange s.params.ht (coefficient s) b e t = .error .encodingRangeViolation := by
  obtain ⟨hok, hviolation⟩ := countRange_eq hw h32 b e
  by_cases h : t = 0 ∨ RangeRepresentable s b e t
  · exact .inl (hok h)
  · exact .inr (hviolation (fun h0 => h (.inl h0)) fun hr => h (.inr hr))

theorem countRange_error_wellFormed {s : State} (hw : s.params.ht.WellFormed) {t b e : Nat} {c : FaultCode}
    (h32 : t < 32) (h : countRange s.params.ht (coefficient s) b e t = .error c) : c = .encodingRangeViolation := by
  rcases countRange_ok_or_violation hw h32 b e with hr | hr <;> rw [hr] at h <;> cases h
  rfl

theorem leastTable_lt {first count t : Nat} {test : Nat → Bool} (h : leastTable first count test = some t) :
    t < first + count :=
  (List.mem_range'_1.mp (List.mem_of_find?_eq_some h)).2

/-- A running comparison that faults does so in one of the alternatives (R98). -/
theorem keepBest_error_mem {tie : TieNoesc} {cost : Nat → Except FaultCode Nat} {c : FaultCode} {alts : List Nat} :
    ∀ {choice sum : Nat}, keepBest tie cost choice sum alts = .error c → ∃ a ∈ alts, cost a = .error c := by
  induction alts with
  | nil => intro choice sum h; cases h
  | cons a alts ih =>
    intro choice sum h
    unfold keepBest at h
    cases ha : cost a with
    | error e =>
      rw [ha] at h
      cases h
      exact ⟨a, List.mem_cons_self, ha⟩
    | ok v =>
      rw [ha] at h
      have hrest : ∃ b ∈ alts, cost b = .error c := by
        dsimp only at h
        split_ifs at h
        · exact ih h
        · exact ih h
      obtain ⟨b, hb, hbc⟩ := hrest
      exact ⟨b, List.mem_cons_of_mem _ hb, hbc⟩

/-- On a well-formed ROM the choice of a table reports nothing but range violations (R98 to R100). -/
theorem chooseTable_error_wellFormed {s : State} (hw : s.params.ht.WellFormed) {b e : Nat} {c : FaultCode}
    (h : chooseTable s.params (coefficient s) b e = .error c) : c = .encodingRangeViolation := by
  unfold chooseTable at h
  split_ifs at h
  · unfold selectNoesc at h
    split at h
    case h_1 => cases h; rfl
    case h_2 choice hchoice =>
      have hlt : choice < 15 := by simpa using leastTable_lt hchoice
      split at h
      case h_1 hcount => cases h; exact countRange_error_wellFormed hw (by omega) hcount
      case h_2 =>
        obtain ⟨a, ha, hac⟩ := keepBest_error_mem h
        have hmem : a ∈ candidates choice := candidates_eq choice ▸ List.mem_cons_of_mem _ ha
        have := candidates_lt hlt hmem
        exact countRange_error_wellFormed hw (by omega) hac
  · unfold selectEsc at h
    split at h
    case h_1 c0 c1 hc0 hc1 =>
      have hlt0 := leastTable_lt hc0
      have hlt1 := leastTable_lt hc1
      split at h
      case h_1 hcount => cases h; exact countRange_error_wellFormed hw (by omega) hcount
      case h_2 => exact countRange_error_wellFormed hw (by omega) (map_error h)
    case h_2 => cases h; rfl

/-- Zeros, or no coefficients at all, select table 0 (R97, R101). -/
theorem chooseTable_of_zeros {p : Params} {ix : Nat → Int} {b e : Nat} (h : ∀ k, b ≤ k → k < e → ix k = 0) :
    chooseTable p ix b e = .ok 0 := by
  have hmax : maxAbs ix b (e - b) = 0 := by
    rcases Nat.eq_zero_or_pos (e - b) with h0 | hpos
    · rw [h0]; rfl
    · obtain ⟨i, hlow, hhigh, hi⟩ := maxAbs_attained ix (e - b) b hpos
      rw [← hi, h i hlow (by omega)]; rfl
  exact if_pos hmax

theorem chooseTable_of_max_le_14 {s : State} {b e m : Nat} (hmax : IsMaxAbs s b e m) (h1 : 1 ≤ m) (h14 : m ≤ 14) :
    chooseTable s.params (coefficient s) b e = selectNoesc s.params (coefficient s) b e m := by
  unfold chooseTable escapeThreshold
  rw [maxAbs_eq hmax, if_neg (by omega), if_pos (by omega)]

theorem chooseTable_of_15_le_max {s : State} {b e m : Nat} (hmax : IsMaxAbs s b e m) (h15 : 15 ≤ m) :
    chooseTable s.params (coefficient s) b e = selectEsc s.params (coefficient s) b e m := by
  unfold chooseTable escapeThreshold
  rw [maxAbs_eq hmax, if_neg (by omega), if_neg (by omega)]

theorem noescChoice_eq_some {ht : Rom} {m choice : Nat} (h : IsNoEscapeChoice ht m choice) :
    noescChoice ht m = some choice := by
  obtain ⟨hle, hfits, hleast⟩ := h
  exact leastTable_eq_some (Nat.zero_le _) (by omega) (decide_eq_true hfits)
    fun u _ hu => decide_eq_false (Nat.not_lt.mpr (hleast u hu))

theorem noescChoice_eq_none {ht : Rom} {m : Nat} (h : ∀ t, t ≤ 14 → (ht.table t).xlen ≤ m) : noescChoice ht m = none :=
  leastTable_eq_none fun u _ hu => decide_eq_false (Nat.not_lt.mpr (h u (by omega)))

theorem escChoice_eq_some {ht : Rom} {first count last m t : Nat} (hlast : first + count = last + 1)
    (h : IsEscapeChoice ht first last m t) : escChoice ht first count m = some t := by
  obtain ⟨hlow, hhigh, hfits, hleast⟩ := h
  exact leastTable_eq_some hlow (by omega) (decide_eq_true hfits)
    fun u hu1 hu2 => decide_eq_false (Nat.not_le.mpr (hleast u hu1 hu2))

theorem escChoice_eq_none {ht : Rom} {first count last m : Nat} (hlast : first + count = last + 1)
    (h : ∀ t, first ≤ t → t ≤ last → (ht.table t).linmax < m - 15) : escChoice ht first count m = none :=
  leastTable_eq_none fun u hu1 hu2 => decide_eq_false (Nat.not_le.mpr (h u hu1 (by omega)))

/-- An escape table whose `linmax` carries the largest magnitude represents every pair of the range (R87, R99). -/
theorem rangeRepresentable_of_linmax {s : State} {b e m t : Nat} (hmax : IsMaxAbs s b e m) (ht : 15 < t)
    (hm : m - 15 ≤ (s.params.ht.table t).linmax) : RangeRepresentable s b e t := by
  intro k hk
  have hx := hmax.1 (b + 2 * k) (by omega) (by omega)
  have hy := hmax.1 (b + 2 * k + 1) (by omega) (by omega)
  unfold Representable
  rw [if_pos ht]
  omega

/-- A first choice is never table 0, which is empty (R82), so no candidate is. -/
theorem candidates_ne_zero {ht : Rom} (hw : ht.WellFormed) {m choice t : Nat} (h : IsNoEscapeChoice ht m choice)
    (htc : t ∈ candidates choice) : t ≠ 0 := by
  have hxlen : (ht.table 0).xlen = 0 := hw.1.2.1.1
  have hchoice : 0 < choice := by
    rcases Nat.eq_zero_or_pos choice with rfl | hpos
    · exact absurd h.2.1 (by omega)
    · exact hpos
  have hrising := candidates_rising choice
  rw [candidates_eq] at htc hrising
  rcases List.mem_cons.mp htc with rfl | hmem
  · exact hchoice.ne'
  · exact (hchoice.trans (List.rel_of_pairwise_cons hrising hmem)).ne'

/-- R98 where every candidate represents the range. -/
theorem selectNoesc_ok {s : State} (hw : s.params.ht.WellFormed) {b e m choice : Nat}
    (hc : IsNoEscapeChoice s.params.ht m choice) (hrep : ∀ t ∈ candidates choice, RangeRepresentable s b e t) :
    ∃ r, selectNoesc s.params (coefficient s) b e m = .ok r ∧
      IsCheapest s.params.tieNoesc (rangeCost s b e) (candidates choice) r := by
  have hcost : ∀ t ∈ candidates choice, countRange s.params.ht (coefficient s) b e t = .ok (rangeCost s b e t) := by
    intro t ht
    have hlt := candidates_lt (Nat.lt_succ_of_le hc.1) ht
    exact (countRange_eq hw (by omega) b e).1 (.inr (hrep t ht))
  have hrising := candidates_rising choice
  rw [candidates_eq] at hcost hrising ⊢
  obtain ⟨r, hr, hbest⟩ := keepBest_eq (tie := s.params.tieNoesc) (alternatives choice) choice
    (fun a ha => hcost a (List.mem_cons_of_mem _ ha)) hrising
  refine ⟨r, ?_, hbest⟩
  unfold selectNoesc
  rw [noescChoice_eq_some hc]
  simp only [hcost choice List.mem_cons_self, hr]

/-- R98 where a candidate does not represent the range. -/
theorem selectNoesc_violation {s : State} (hw : s.params.ht.WellFormed) {b e m choice : Nat}
    (hc : IsNoEscapeChoice s.params.ht m choice) (h : ∃ t ∈ candidates choice, ¬ RangeRepresentable s b e t) :
    selectNoesc s.params (coefficient s) b e m = .error .encodingRangeViolation := by
  have hlt : ∀ t ∈ candidates choice, t < 32 := fun t ht =>
    (candidates_lt (Nat.lt_succ_of_le hc.1) ht).trans (by norm_num)
  have hcases : ∀ t ∈ candidates choice, (∃ v, countRange s.params.ht (coefficient s) b e t = .ok v) ∨
      countRange s.params.ht (coefficient s) b e t = .error .encodingRangeViolation :=
    fun t ht => (countRange_ok_or_violation hw (hlt t ht) b e).imp_left fun hok => ⟨_, hok⟩
  obtain ⟨t, ht, hrep⟩ := h
  have hfails := (countRange_eq hw (hlt t ht) b e).2 (candidates_ne_zero hw hc ht) hrep
  rw [candidates_eq] at hcases ht
  unfold selectNoesc
  rw [noescChoice_eq_some hc]
  rcases hcases choice List.mem_cons_self with ⟨v, hv⟩ | hv
  · simp only [hv]
    have hmem : t ∈ alternatives choice := by
      rcases List.mem_cons.mp ht with rfl | hmem
      · rw [hv] at hfails; cases hfails
      · exact hmem
    exact keepBest_error _ _ _ (fun a ha => hcases a (List.mem_cons_of_mem _ ha)) ⟨t, hmem, hfails⟩
  · simp only [hv]

theorem selectNoesc_of_noChoice {p : Params} {ix : Nat → Int} {b e m : Nat} (h : noescChoice p.ht m = none) :
    selectNoesc p ix b e m = .error .encodingRangeViolation := by
  unfold selectNoesc
  rw [h]

/-- R99 where both candidates exist and represent the range. -/
theorem selectEsc_ok {s : State} {b e m c0 c1 : Nat} (h0 : escChoice s.params.ht 15 9 m = some c0)
    (h1 : escChoice s.params.ht 24 8 m = some c1)
    (hcost0 : countRange s.params.ht (coefficient s) b e c0 = .ok (rangeCost s b e c0))
    (hcost1 : countRange s.params.ht (coefficient s) b e c1 = .ok (rangeCost s b e c1)) :
    selectEsc s.params (coefficient s) b e m =
      .ok (cheaperEscape s.params.tieEsc c0 c1 (rangeCost s b e c0) (rangeCost s b e c1)) := by
  unfold selectEsc
  rw [h0, h1]
  simp only [hcost0, hcost1]
  rfl

theorem selectEsc_of_noChoice {p : Params} {ix : Nat → Int} {b e m : Nat}
    (h : escChoice p.ht 15 9 m = none ∨ escChoice p.ht 24 8 m = none) :
    selectEsc p ix b e m = .error .encodingRangeViolation := by
  unfold selectEsc
  rcases h with h | h <;> rw [h]
  cases escChoice p.ht 15 9 m <;> rfl

theorem selectEsc_of_first_error {p : Params} {ix : Nat → Int} {b e m c0 c1 : Nat} {c : FaultCode}
    (h0 : escChoice p.ht 15 9 m = some c0) (h1 : escChoice p.ht 24 8 m = some c1)
    (hcost : countRange p.ht ix b e c0 = .error c) : selectEsc p ix b e m = .error c := by
  unfold selectEsc
  rw [h0, h1]
  simp only [hcost]

/-! ## The commands, by what they count -/

theorem exec_selectTable_of_choice {s : State} {t : Nat} (hs : s.Ready) (hr : RangeOk s.regs.op0.toNat s.regs.op1.toNat)
    (h : chooseTable s.params (coefficient s) s.regs.op0.toNat s.regs.op1.toNat = .ok t) :
    exec .selectTable s =
      .next (State.withLast { s with regs := { s.regs with res0 := BitVec.ofNat 32 t } } .none) :=
  exec_setRes0 hs (i := .selectTable) ((selectTableRule_of_range hr).trans (by rw [h]; rfl))

theorem exec_selectTable_of_violation {s : State} (hs : s.Ready) (hr : RangeOk s.regs.op0.toNat s.regs.op1.toNat)
    (h : chooseTable s.params (coefficient s) s.regs.op0.toNat s.regs.op1.toNat = .error .encodingRangeViolation) :
    exec .selectTable s = .next (s.withLast .encodingRangeViolation) :=
  exec_query_violation hs (.inl rfl) ((selectTableRule_of_range hr).trans (by rw [h]; rfl))

theorem exec_countBits_of_count {s : State} {t bits : Nat} (hs : s.Ready) (ht : t ≤ 31)
    (hr : RangeOk s.regs.op0.toNat s.regs.op1.toNat)
    (h : countRange s.params.ht (coefficient s) s.regs.op0.toNat s.regs.op1.toNat t = .ok bits) :
    exec (.countBits t) s =
      .next (State.withLast { s with regs := { s.regs with res0 := BitVec.ofNat 32 bits } } .none) :=
  exec_setRes0 hs (i := .countBits t) ((countBitsRule_of_range ht hr).trans (by rw [h]; rfl))

theorem exec_count1Bits_of_sums {s : State} {sums : Nat × Nat} (hs : s.Ready)
    (hr : s.regs.op0.toNat + 4 * s.regs.op1.toNat ≤ 576)
    (h : count1Sums s.params.ht (coefficient s) s.regs.op0.toNat s.regs.op1.toNat = .ok sums) :
    exec .count1Bits s = .next (State.withLast { s with regs := { s.regs with
      res0 := BitVec.ofNat 32 (count1Choice s.params.count1Tie sums).1
      res1 := BitVec.ofNat 32 (count1Choice s.params.count1Tie sums).2 } } .none) := by
  have hrule := count1BitsRule_of_region hr
  rw [h] at hrule
  rw [exec_eq]
  exact runCommand_ready_ok hs hrule rfl

/-- Emitting no fields needs no room and changes nothing (R120). -/
theorem emitChecked_nil {lim : Nat} {w : Writer} (h : w.Inv lim) : emitChecked lim w (totalWidth []) [] = .ok w := by
  have hfree := h.free_pos
  have hwords : (32 - w.free + 0) / 32 = 0 := by omega
  have hroom : roomCheck lim w (totalWidth []) = .ok () := by
    unfold roomCheck totalWidth cacheBits
    rw [hwords]
    rfl
  unfold emitChecked
  rw [hroom]
  rfl

/-- A granule of no pairs and no quadruples has no fields: the writer stands and the length is 0 (R109, R126). -/
theorem encodeGranuleRule_of_empty {s : State} (hw : s.writer.Inv s.params.capLimit) (hg : GranuleOk s.granule)
    (hbig : s.granule.bigValues = 0) (hcount : s.granule.count1 = 0) : encodeGranuleRule s = .ok (s.setRes0 0) := by
  have hfields : granuleFields s.params.ht s.granule (coefficient s) = .ok [] := by
    unfold granuleFields
    rw [hbig, hcount]
    rfl
  unfold encodeGranuleRule
  rw [(granuleCheck_ok_iff _).mpr hg, hfields]
  exact congrArg (Except.map fun w => (s.setWriter w).setRes0 0) (emitChecked_nil hw)

/-! ## First choices under the reference metadata -/

/-- A ROM with the metadata of R88. -/
abbrev HasReferenceMeta (ht : Rom) : Prop :=
  ∀ t, t < 34 → ((ht.table t).xlen, (ht.table t).ylen, (ht.table t).linbits, (ht.table t).linmax) =
    referenceMeta.getD t (0, 0, 0, 0)

abbrev referenceXlen (t : Nat) : Nat := (referenceMeta.getD t (0, 0, 0, 0)).1

abbrev referenceLinmax (t : Nat) : Nat := (referenceMeta.getD t (0, 0, 0, 0)).2.2.2

theorem HasReferenceMeta.xlen {ht : Rom} (h : HasReferenceMeta ht) {t : Nat} (h34 : t < 34) :
    (ht.table t).xlen = referenceXlen t :=
  congrArg Prod.fst (h t h34)

theorem HasReferenceMeta.linmax {ht : Rom} (h : HasReferenceMeta ht) {t : Nat} (h34 : t < 34) :
    (ht.table t).linmax = referenceLinmax t :=
  congrArg (fun q => q.2.2.2) (h t h34)

/-- A row of R108 below 15: table `t` is the first whose `xlen` exceeds each of the magnitudes `lo .. hi`, checked at the
two bounds. -/
abbrev IsNoEscapeRow (lo hi t : Nat) : Prop :=
  t ≤ 14 ∧ hi < referenceXlen t ∧ ∀ u, u < t → referenceXlen u ≤ lo

/-- A row of R108 from 15 up: table `t` is the first of `first .. last` whose `linmax` carries each of `lo .. hi`. -/
abbrev IsEscapeRow (first last lo hi t : Nat) : Prop :=
  first ≤ t ∧ t ≤ last ∧ hi - 15 ≤ referenceLinmax t ∧ ∀ u, u < t → first ≤ u → referenceLinmax u < lo - 15

theorem IsNoEscapeRow.choice {ht : Rom} (h : HasReferenceMeta ht) {lo hi t m : Nat} (hrow : IsNoEscapeRow lo hi t)
    (hlo : lo ≤ m) (hhi : m ≤ hi) : IsNoEscapeChoice ht m t := by
  obtain ⟨h14, hfits, hleast⟩ := hrow
  refine ⟨h14, ?_, fun u hu => ?_⟩
  · rw [h.xlen (by omega)]
    omega
  · rw [h.xlen (by omega)]
    exact (hleast u hu).trans hlo

theorem IsEscapeRow.choice {ht : Rom} (h : HasReferenceMeta ht) {first last lo hi t m : Nat} (hlast : last < 34)
    (hrow : IsEscapeRow first last lo hi t) (hlo : lo ≤ m) (hhi : m ≤ hi) : IsEscapeChoice ht first last m t := by
  obtain ⟨hfirst, hle, hfits, hleast⟩ := hrow
  refine ⟨hfirst, hle, ?_, fun u hu1 hu2 => ?_⟩
  · rw [h.linmax (by omega)]
    omega
  · rw [h.linmax (by omega)]
    have := hleast u hu2 hu1
    omega

/-! ## The statements -/

/-- Settles O38: the rule of a query transports between states that agree on its inputs. -/
theorem queriesArePure : Obligations.QueriesArePure := by
  intro i s1 s2 t1 t2 hi hs1 hs2 h0 h1 hht hnoesc hesc hcount1 hmag ht1 ht2
  have hrule := queryRule_congr hi ⟨h0, h1, hht, hnoesc, hesc, hcount1, hmag⟩
  rw [exec_eq] at ht1 ht2
  cases hr : commandRule i s1 with
  | error c =>
    rw [hr] at hrule
    rw [runCommand_error (hs1.accepts _) hr] at ht1
    rw [runCommand_error (hs2.accepts _) hrule] at ht2
    cases ht1
    cases ht2
    exact ⟨hs1.raise_eq hs2 _ _, fun hl => absurd hl (commandRule_error hr).ne_none, hs1.1, hs1.raise_fault _ _, rfl⟩
  | ok u =>
    rw [hr] at hrule
    have hnew : i ≠ .new := by rintro rfl; simp [IsQuery] at hi
    obtain ⟨w, v0, v1, rfl, _, _, _, hwriter⟩ := commandRule_ok hnew hr
    obtain rfl := hwriter (.inl hi)
    rw [runCommand_ok (hs1.accepts _) hr] at ht1
    rw [runCommand_ok (hs2.accepts _) hrule] at ht2
    cases ht1
    cases ht2
    exact ⟨hs1.complete.trans hs2.complete.symm, fun _ => ⟨rfl, fun hc => (if_pos hc).symm⟩, hs1.1, .inl hs1.2, rfl⟩

/-- Settles O39: a bad range fails the range check; past it, only range violations are left. -/
theorem badRangesRaiseInvalidIndex : Obligations.BadRangesRaiseInvalidIndex := by
  refine fun s hs hw => ⟨fun hbad => ?_, fun h1 h2 h3 => ?_⟩
  · have hrange : ¬ RangeOk s.regs.op0.toNat s.regs.op1.toNat := by unfold RangeOk; omega
    exact ⟨exec_ready_error hs (i := .selectTable) (selectTableRule_of_badRange hrange) nofun,
      fun t ht => exec_ready_error hs (i := .countBits t) (countBitsRule_of_badRange ht hrange) nofun⟩
  · have hrange : RangeOk s.regs.op0.toNat s.regs.op1.toNat := ⟨h1, h2, h3⟩
    refine ⟨fun u hu hl => ?_, fun t u ht hu hl => ?_⟩
    · have hr := (selectTableRule_of_range hrange).symm.trans ((exec_last_iff (c := .invalidHuffmanIndex) hs hu nofun).mp hl)
      cases chooseTable_error_wellFormed hw (map_error hr)
    · have hr := (countBitsRule_of_range ht hrange).symm.trans ((exec_last_iff (c := .invalidHuffmanIndex) hs hu nofun).mp hl)
      cases countRange_error_wellFormed hw (by omega) (map_error hr)

/-- Settles O40: the largest magnitude of zeros is 0. -/
theorem selectTableOfZerosIsZero : Obligations.SelectTableOfZerosIsZero :=
  fun _ hs hrange hzero => exec_selectTable_of_choice hs hrange (chooseTable_of_zeros hzero)

/-- Settles O41: the running comparison over the candidates, each of which counts. -/
theorem selectTableWithoutEscape : Obligations.SelectTableWithoutEscape := by
  intro s m choice hs hw hrange hmax h1 h14 hchoice hrep
  obtain ⟨r, hr, hbest⟩ := selectNoesc_ok hw hchoice hrep
  have hlt := candidates_lt (Nat.lt_succ_of_le hchoice.1) hbest.1
  exact ⟨r, hbest, by omega,
    exec_selectTable_of_choice hs hrange ((chooseTable_of_max_le_14 hmax h1 h14).trans hr)⟩

/-- Settles O42: an escape table whose `linmax` suffices represents the range, and table 15 does so by hypothesis. -/
theorem selectTableWithEscape : Obligations.SelectTableWithEscape := by
  intro s m c0 c1 hs hw hrange hmax h15 hc0 hc1 hrep
  obtain ⟨hlow0, hhigh0, hfits0, _⟩ := id hc0
  obtain ⟨hlow1, hhigh1, hfits1, _⟩ := id hc1
  have hrep0 : RangeRepresentable s s.regs.op0.toNat s.regs.op1.toNat c0 := by
    rcases hlow0.eq_or_lt with rfl | hlt
    · exact hrep rfl
    · exact rangeRepresentable_of_linmax hmax hlt hfits0
  have hrep1 := rangeRepresentable_of_linmax hmax (by omega) hfits1
  have hok := selectEsc_ok (escChoice_eq_some rfl hc0) (escChoice_eq_some rfl hc1)
    ((countRange_eq hw (by omega) _ _).1 (.inr hrep0)) ((countRange_eq hw (by omega) _ _).1 (.inr hrep1))
  exact exec_selectTable_of_choice hs hrange ((chooseTable_of_15_le_max hmax h15).trans hok)

/-- Settles O43: no table for the largest magnitude, or a counted table that cannot hold a pair. -/
theorem selectTableReportsRangeViolation : Obligations.SelectTableReportsRangeViolation := by
  intro s m hs hw hrange hmax
  refine ⟨fun h1 h14 hnone => ?_, fun choice h1 h14 hchoice hfails => ?_, fun h15 hnone => ?_,
    fun c1 h15 hc0 hc1 hfails => ?_⟩
  · exact exec_selectTable_of_violation hs hrange
      ((chooseTable_of_max_le_14 hmax h1 h14).trans (selectNoesc_of_noChoice (noescChoice_eq_none hnone)))
  · exact exec_selectTable_of_violation hs hrange
      ((chooseTable_of_max_le_14 hmax h1 h14).trans (selectNoesc_violation hw hchoice hfails))
  · have hesc := selectEsc_of_noChoice (p := s.params) (ix := coefficient s) (b := s.regs.op0.toNat)
      (e := s.regs.op1.toNat) (hnone.imp (escChoice_eq_none rfl) (escChoice_eq_none rfl))
    exact exec_selectTable_of_violation hs hrange ((chooseTable_of_15_le_max hmax h15).trans hesc)
  · have hcount := (countRange_eq hw (t := 15) (by omega) _ _).2 nofun hfails
    exact exec_selectTable_of_violation hs hrange ((chooseTable_of_15_le_max hmax h15).trans
      (selectEsc_of_first_error (escChoice_eq_some rfl hc0) (escChoice_eq_some rfl hc1) hcount))

/-- Settles O44: the count over the pairs, which fits a word. -/
theorem countBitsSumsPairCosts : Obligations.CountBitsSumsPairCosts := by
  intro s t hs hw ht hrange hrep
  have hle := rangeCost_le hw (t := t) (by omega) hrange
  have hv : (BitVec.ofNat 32 (rangeCost s s.regs.op0.toNat s.regs.op1.toNat t)).toNat =
      rangeCost s s.regs.op0.toNat s.regs.op1.toNat t := by
    rw [BitVec.toNat_ofNat, Nat.mod_eq_of_lt (by omega)]
  exact ⟨_, hv, hv.trans_le hle, exec_countBits_of_count hs ht hrange ((countRange_eq hw (by omega) _ _).1 hrep)⟩

/-- Settles O45: the index check comes before the range check, and the count comes last. -/
theorem countBitsFaultsInOrder : Obligations.CountBitsFaultsInOrder := by
  refine fun s t hs hw => ⟨fun ht => ?_, fun h1 ht hrange hfails => ?_⟩
  · exact exec_ready_error hs (i := .countBits t) (if_pos ht) nofun
  · have hcount := (countRange_eq hw (by omega) _ _).2 (by omega) hfails
    exact exec_query_violation hs (.inr (.inl ⟨t, rfl⟩))
      ((countBitsRule_of_range ht hrange).trans (by rw [hcount]; rfl))

/-- Settles O46: the two sums and their comparison, then the two faults. -/
theorem count1BitsChoosesCheaperTable : Obligations.Count1BitsChoosesCheaperTable := by
  refine fun s hs hw => ⟨fun hregion hrep => ?_, fun hpast => ?_, fun hregion ⟨k, hk, hfails⟩ => ?_⟩
  · have hlt := quadsCost_lt hw (sel := 0) (by omega) hregion
    refine ⟨BitVec.ofNat 32 (min (quadsCost s s.regs.op0.toNat s.regs.op1.toNat 0)
      (quadsCost s s.regs.op0.toNat s.regs.op1.toNat 1)), ?_,
      (exec_count1Bits_of_sums hs hregion (count1Sums_ok hw hrep)).trans ?_⟩
    · rw [BitVec.toNat_ofNat, Nat.mod_eq_of_lt (by omega)]
    · rw [count1Choice_fst, count1Choice_snd]
      split_ifs <;> rfl
  · exact exec_ready_error hs (i := .count1Bits) (if_pos hpast) nofun
  · have hsums := count1Sums_violation hw fun hall => hfails (hall k hk)
    exact exec_query_violation hs (.inr (.inr rfl)) ((count1BitsRule_of_region hregion).trans (by rw [hsums]; rfl))

/-- Settles O50: nothing to choose, to count or to emit. -/
theorem silenceCostsAndEmitsNothing : Obligations.SilenceCostsAndEmitsNothing := by
  refine fun s hs hi hzero => ⟨fun h0 hrange => ?_, fun hrange => ?_, fun h0 h1 => ?_, fun hbig hcount hok => ?_⟩
  · have hop0 : s.regs.op0.toNat = 0 := by rw [h0]; rfl
    rw [← hop0] at hrange
    exact exec_selectTable_of_choice hs hrange
      (chooseTable_of_zeros fun k _ hk => hzero k (hk.trans_le hrange.2.1))
  · exact exec_countBits_of_count hs (Nat.zero_le _) hrange rfl
  · have hop0 : s.regs.op0.toNat = 0 := by rw [h0]; rfl
    have hop1 : s.regs.op1.toNat = 0 := by rw [h1]; rfl
    exact exec_count1Bits_of_sums (sums := (0, 0)) hs (by omega) (by rw [hop1]; rfl)
  · exact exec_setRes0 hs (i := .encodeGranule) (encodeGranuleRule_of_empty (hi.writer hs.1) hok hbig hcount)

/-- Settles O49: each row at its two bounds, since the least table depends on the metadata alone. -/
theorem firstChoicesUnderReferenceMetadata : Obligations.FirstChoicesUnderReferenceMetadata := by
  intro ht (hmeta : HasReferenceMeta ht)
  refine ⟨fun row hrow => ?_, fun row hrow => ?_, fun m hm => ?_⟩
  · obtain ⟨hfirst, hcandidates⟩ : IsNoEscapeRow row.1 row.2.1 (row.2.2.headD 0) ∧
        candidates (row.2.2.headD 0) = row.2.2 := by
      revert row
      decide
    exact fun m hlo hhi => ⟨_, noescChoice_eq_some (hfirst.choice hmeta hlo hhi), hcandidates⟩
  · obtain ⟨hfirst, hsecond⟩ : IsEscapeRow 15 23 row.1 row.2.1 row.2.2.1 ∧
        IsEscapeRow 24 31 row.1 row.2.1 row.2.2.2 := by
      revert row
      decide
    exact fun m hlo hhi => ⟨escChoice_eq_some rfl (hfirst.choice hmeta (by norm_num) hlo hhi),
      escChoice_eq_some rfl (hsecond.choice hmeta (by norm_num) hlo hhi)⟩
  · have hlinmax : ∀ t, t < 34 → referenceLinmax t ≤ 8191 := by decide
    have hsmall : ∀ t, t < 34 → (ht.table t).linmax < m - 15 := by
      intro t h34
      rw [hmeta.linmax h34]
      have := hlinmax t h34
      omega
    exact ⟨escChoice_eq_none (last := 23) rfl fun t _ h => hsmall t (by omega),
      escChoice_eq_none (last := 31) rfl fun t _ h => hsmall t (by omega)⟩

end Sys2Proof.Machine
end

section
/-! Proofs about table selection and bit counting (spec 42_huffman_count_select.md), part 2: count equals emission. First
what the rules of `ENCODE_PAIR` and `ENCODE_QUAD` are on a well-formed ROM and how much a completed one appends, then what a
completed count holds, then a run of symbols, then the statements. -/

namespace Sys2Proof.Machine

/-! ## One pair -/

/-- The end of an emission command, where it completes, appends the widths of its fields (R115, R121). -/
theorem emitChecked_stream_length {lim bits : Nat} {w w' : Writer} {fs : List Field} (hw : w.Inv lim)
    (h : emitChecked lim w bits fs = .ok w') : w'.stream.length = w.stream.length + totalWidth fs := by
  obtain ⟨hwidth, _, hemit⟩ := emitChecked_ok h
  rw [(emitFields_appends hw hwidth hemit).stream, List.length_append, fieldsBits_length]

/-- `pair_bits` completes with the cost of the pair only (R100). -/
theorem pairBits_eq_ok {ht : Rom} (hw : ht.WellFormed) {t : Nat} (h32 : t < 32) {x y : Int} {bits : Nat}
    (h : pairBits (ht.table t) t (magnitude x) (magnitude y) = .ok bits) :
    Representable (ht.table t) t x y ∧ bits = pairCost (ht.table t) t x y := by
  obtain ⟨hok, hviolation⟩ := pairBits_eq hw h32 x y
  by_cases hrep : Representable (ht.table t) t x y
  · rw [hok hrep] at h
    cases h
    exact ⟨hrep, rfl⟩
  · rw [hviolation hrep] at h
    cases h

/-- From table 1 to 31 the rule of `ENCODE_PAIR` emits the pair's fields where `pair_bits` completes (R116). -/
theorem encodePairRule_of_bits {t bits : Nat} {s : State} (h1 : 1 ≤ t) (h31 : t ≤ 31)
    (h : pairBits (s.params.ht.table t) t (magnitude (signed s.regs.op0)) (magnitude (signed s.regs.op1)) = .ok bits) :
    encodePairRule t s = (emitChecked s.params.capLimit s.writer bits
      (pairFields (s.params.ht.table t) t (signed s.regs.op0) (signed s.regs.op1))).map s.setWriter := by
  unfold encodePairRule
  rw [if_neg (by omega), if_neg (by omega), h]

/-- From table 1 to 31 a fault of `pair_bits` is a fault of `ENCODE_PAIR` (R116). -/
theorem encodePairRule_of_error {t : Nat} {s : State} {c : FaultCode} (h1 : 1 ≤ t) (h31 : t ≤ 31)
    (h : pairBits (s.params.ht.table t) t (magnitude (signed s.regs.op0)) (magnitude (signed s.regs.op1)) = .error c) :
    encodePairRule t s = .error c := by
  unfold encodePairRule
  rw [if_neg (by omega), if_neg (by omega), h]

/-- All that a completed `ENCODE_PAIR` has done (R116, R117). -/
theorem encodePair_completed {t : Nat} {s u : State} (h : exec (.encodePair t) s = .next u) (hl : u.status.last = .none) :
    (t = 0 ∧ u.writer = s.writer) ∨
    (1 ≤ t ∧ t ≤ 31 ∧ ∃ bits,
      pairBits (s.params.ht.table t) t (magnitude (signed s.regs.op0)) (magnitude (signed s.regs.op1)) = .ok bits ∧
      emitChecked s.params.capLimit s.writer bits
        (pairFields (s.params.ht.table t) t (signed s.regs.op0) (signed s.regs.op1)) = .ok u.writer) := by
  obtain ⟨_, s', hr, rfl⟩ := exec_completed h hl
  change encodePairRule t s = .ok s' at hr
  rcases Nat.eq_zero_or_pos t with rfl | h1
  · cases hr
    exact .inl ⟨rfl, rfl⟩
  · by_cases h31 : 31 < t
    · unfold encodePairRule at hr
      rw [if_pos h31] at hr
      cases hr
    · cases hp : pairBits (s.params.ht.table t) t (magnitude (signed s.regs.op0)) (magnitude (signed s.regs.op1)) with
      | error c =>
        rw [encodePairRule_of_error h1 (by omega) hp] at hr
        cases hr
      | ok bits =>
        rw [encodePairRule_of_bits h1 (by omega) hp] at hr
        obtain ⟨w, hemit, rfl⟩ := map_ok hr
        exact .inr ⟨h1, by omega, bits, rfl, hemit⟩

/-- R103: a completed `ENCODE_PAIR` appends the cost of its pair, nothing in table 0. -/
theorem encodePair_stream_length {t : Nat} {s u : State} (hs : s.Ready) (hi : s.Inv)
    (h : exec (.encodePair t) s = .next u) (hl : u.status.last = .none) :
    u.writer.stream.length = s.writer.stream.length +
      if t = 0 then 0 else pairCost (s.params.ht.table t) t (signed s.regs.op0) (signed s.regs.op1) := by
  rcases encodePair_completed h hl with ⟨rfl, hwriter⟩ | ⟨h1, _, bits, _, hemit⟩
  · rw [hwriter, if_pos rfl, Nat.add_zero]
  · rw [emitChecked_stream_length (hi.writer hs.1) hemit, pairFields_totalWidth, if_neg (by omega)]

/-- `ENCODE_PAIR` raises the range and index faults of `pair_bits` and no others; the emission raises other codes. -/
theorem encodePairRule_error_iff {t : Nat} {s : State} {c : FaultCode} (h1 : 1 ≤ t) (h31 : t ≤ 31)
    (hc : c = .encodingRangeViolation ∨ c = .invalidHuffmanIndex) :
    encodePairRule t s = .error c ↔
      pairBits (s.params.ht.table t) t (magnitude (signed s.regs.op0)) (magnitude (signed s.regs.op1)) = .error c := by
  cases hp : pairBits (s.params.ht.table t) t (magnitude (signed s.regs.op0)) (magnitude (signed s.regs.op1)) with
  | error e => rw [encodePairRule_of_error h1 h31 hp, Except.error.injEq, Except.error.injEq]
  | ok bits =>
    rw [encodePairRule_of_bits h1 h31 hp]
    refine ⟨fun h => ?_, nofun⟩
    rcases emitChecked_error (map_error h) with rfl | rfl <;> simp at hc

/-! ## One quadruple -/

theorem encodeQuadRule_of_violation {sel : Nat} {s : State} (hw : s.params.ht.WellFormed) (h1 : sel ≤ 1)
    (h : ¬ QuadRepresentable (signed s.regs.op0) (signed s.regs.op1) (signed s.regs.op2) (signed s.regs.op3)) :
    encodeQuadRule sel s = .error .encodingRangeViolation := by
  unfold encodeQuadRule
  rw [if_neg (by omega), (quadFields_eq hw h1 _ _ _ _).2 h]

/-- On a well-formed ROM the rule of `ENCODE_QUAD` emits the two fields of a representable quadruple (R122, R123). -/
theorem encodeQuadRule_of_representable {sel : Nat} {s : State} (hw : s.params.ht.WellFormed) (h1 : sel ≤ 1)
    (h : QuadRepresentable (signed s.regs.op0) (signed s.regs.op1) (signed s.regs.op2) (signed s.regs.op3)) :
    encodeQuadRule sel s =
      (emitChecked s.params.capLimit s.writer
        (quadCost (s.params.ht.table (32 + sel)) (signed s.regs.op0) (signed s.regs.op1) (signed s.regs.op2)
          (signed s.regs.op3))
        (quadFieldList (s.params.ht.table (32 + sel)) (signed s.regs.op0) (signed s.regs.op1) (signed s.regs.op2)
          (signed s.regs.op3))).map s.setWriter := by
  unfold encodeQuadRule
  rw [if_neg (by omega), (quadFields_eq hw h1 _ _ _ _).1 h, ← quadFieldList_totalWidth]

/-- R107: a completed `ENCODE_QUAD` had a legal select and a representable quadruple, and appends its cost. -/
theorem encodeQuad_completed {sel : Nat} {s u : State} (hs : s.Ready) (hi : s.Inv) (hw : s.params.ht.WellFormed)
    (h : exec (.encodeQuad sel) s = .next u) (hl : u.status.last = .none) :
    sel ≤ 1 ∧ QuadRepresentable (signed s.regs.op0) (signed s.regs.op1) (signed s.regs.op2) (signed s.regs.op3) ∧
      u.writer.stream.length = s.writer.stream.length + quadCost (s.params.ht.table (32 + sel)) (signed s.regs.op0)
        (signed s.regs.op1) (signed s.regs.op2) (signed s.regs.op3) := by
  obtain ⟨_, s', hr, rfl⟩ := exec_completed h hl
  change encodeQuadRule sel s = .ok s' at hr
  have h1 : sel ≤ 1 := by
    by_contra hbad
    unfold encodeQuadRule at hr
    rw [if_pos (by omega)] at hr
    cases hr
  have hrep : QuadRepresentable (signed s.regs.op0) (signed s.regs.op1) (signed s.regs.op2) (signed s.regs.op3) := by
    by_contra hbad
    rw [encodeQuadRule_of_violation hw h1 hbad] at hr
    cases hr
  rw [encodeQuadRule_of_representable hw h1 hrep] at hr
  obtain ⟨w, hemit, rfl⟩ := map_ok hr
  have hlen := emitChecked_stream_length (hi.writer hs.1) hemit
  rw [quadFieldList_totalWidth] at hlen
  exact ⟨h1, hrep, hlen⟩

/-- `ENCODE_QUAD` raises `InvalidHuffmanIndex` for its select only (R122). -/
theorem encodeQuadRule_index_iff {sel : Nat} {s : State} (hw : s.params.ht.WellFormed) :
    encodeQuadRule sel s = .error .invalidHuffmanIndex ↔ 1 < sel := by
  refine ⟨fun h => ?_, fun h => if_pos h⟩
  by_contra h1
  by_cases hrep : QuadRepresentable (signed s.regs.op0) (signed s.regs.op1) (signed s.regs.op2) (signed s.regs.op3)
  · rw [encodeQuadRule_of_representable hw (by omega) hrep] at h
    rcases emitChecked_error (map_error h) with hc | hc <;> cases hc
  · rw [encodeQuadRule_of_violation hw (by omega) hrep] at h
    cases h

/-- `ENCODE_QUAD` raises `EncodingRangeViolation` exactly when `quad_index` does (R104, R122). -/
theorem encodeQuadRule_violation_iff {sel : Nat} {s : State} (hw : s.params.ht.WellFormed) :
    encodeQuadRule sel s = .error .encodingRangeViolation ↔ sel ≤ 1 ∧
      quadIndex (s.params.ht.table (32 + sel)) (signed s.regs.op0) (signed s.regs.op1) (signed s.regs.op2)
        (signed s.regs.op3) = .error .encodingRangeViolation := by
  by_cases h1 : sel ≤ 1
  · obtain ⟨hok, hviolation⟩ :=
      quadIndex_eq hw h1 (signed s.regs.op0) (signed s.regs.op1) (signed s.regs.op2) (signed s.regs.op3)
    by_cases hrep : QuadRepresentable (signed s.regs.op0) (signed s.regs.op1) (signed s.regs.op2) (signed s.regs.op3)
    · rw [encodeQuadRule_of_representable hw h1 hrep, hok hrep]
      refine ⟨fun h => ?_, fun h => nomatch h.2⟩
      rcases emitChecked_error (map_error h) with hc | hc <;> cases hc
    · rw [encodeQuadRule_of_violation hw h1 hrep, hviolation hrep]
      exact ⟨fun _ => ⟨h1, rfl⟩, fun _ => rfl⟩
  · rw [(encodeQuadRule_index_iff hw).mpr (by omega)]
    exact ⟨nofun, fun h => absurd h.1 h1⟩

/-! ## Completed counts -/

/-- A completed `COUNT_BITS` holds the cost of a legal range in `RES0` (R102). -/
theorem countBits_completed {t : Nat} {s u : State} (hw : s.params.ht.WellFormed)
    (h : exec (.countBits t) s = .next u) (hl : u.status.last = .none) :
    u.regs.res0.toNat = rangeCost s s.regs.op0.toNat s.regs.op1.toNat t := by
  obtain ⟨_, s', hr, rfl⟩ := exec_completed h hl
  change countBitsRule t s = .ok s' at hr
  have ht : t ≤ 31 := by
    by_contra hbad
    unfold countBitsRule at hr
    rw [if_pos (by omega)] at hr
    cases hr
  have hrange : RangeOk s.regs.op0.toNat s.regs.op1.toNat := by
    by_contra hbad
    rw [countBitsRule_of_badRange ht hbad] at hr
    cases hr
  rw [countBitsRule_of_range ht hrange] at hr
  obtain ⟨bits, hcount, rfl⟩ := map_ok hr
  rcases countRange_ok_or_violation hw (Nat.lt_succ_of_le ht) s.regs.op0.toNat s.regs.op1.toNat with hok | hviolation
  · obtain rfl := Except.ok.inj (hcount.symm.trans hok)
    have hle := rangeCost_le hw (Nat.lt_succ_of_le ht) hrange
    change (BitVec.ofNat 32 _).toNat = _
    rw [BitVec.toNat_ofNat, Nat.mod_eq_of_lt (by omega)]
  · rw [hviolation] at hcount
    cases hcount

/-- The sum that `COUNT1_BITS` answers is the one of the table it answers (R106). -/
theorem count1Choice_cost (tie : Fin 2) (cost : Nat → Nat) :
    (count1Choice tie (cost 0, cost 1)).2 ≤ 1 ∧
      (count1Choice tie (cost 0, cost 1)).1 = cost (count1Choice tie (cost 0, cost 1)).2 := by
  unfold count1Choice
  split_ifs with h0 h1
  · exact ⟨Nat.zero_le _, rfl⟩
  · exact ⟨le_rfl, rfl⟩
  · have heq : cost 0 = cost 1 := Nat.le_antisymm (Nat.not_lt.mp h1) (Nat.not_lt.mp h0)
    refine ⟨Nat.le_of_lt_succ tie.isLt, ?_⟩
    match tie with
    | 0 => rfl
    | 1 => exact heq

/-- A completed `COUNT1_BITS` holds a select in `RES1` and the cost of the region with it in `RES0` (R106). -/
theorem count1Bits_completed {s u : State} (hw : s.params.ht.WellFormed)
    (h : exec .count1Bits s = .next u) (hl : u.status.last = .none) :
    u.regs.res0.toNat = quadsCost s s.regs.op0.toNat s.regs.op1.toNat u.regs.res1.toNat := by
  obtain ⟨_, s', hr, rfl⟩ := exec_completed h hl
  change count1BitsRule s = .ok s' at hr
  have hregion : s.regs.op0.toNat + 4 * s.regs.op1.toNat ≤ 576 := by
    by_contra hbad
    unfold count1BitsRule granuleSize at hr
    rw [if_pos (by omega)] at hr
    cases hr
  rw [count1BitsRule_of_region hregion] at hr
  obtain ⟨sums, hsums, rfl⟩ := map_ok hr
  have hrep : ∀ k, k < s.regs.op1.toNat → QuadRepresentableAt s (s.regs.op0.toNat + 4 * k) := by
    by_contra hbad
    rw [count1Sums_violation hw hbad] at hsums
    cases hsums
  obtain rfl := Except.ok.inj (hsums.symm.trans (count1Sums_ok hw hrep))
  obtain ⟨hsel, hcost⟩ :=
    count1Choice_cost s.params.count1Tie (quadsCost s s.regs.op0.toNat s.regs.op1.toNat)
  have hlt := quadsCost_lt hw hsel hregion
  change (BitVec.ofNat 32 _).toNat = quadsCost s _ _ (BitVec.ofNat 32 _).toNat
  rw [BitVec.toNat_ofNat, BitVec.toNat_ofNat, Nat.mod_eq_of_lt (hcost ▸ hlt), Nat.mod_eq_of_lt (by omega), hcost]

/-! ## A run of symbols -/

/-- Under the parameters `p` the symbol, wherever it completes, appends `n` bits. -/
def Symbol.AppendsBits (p : Params) (y : Symbol) (n : Nat) : Prop :=
  ∀ s u : State, s.Ready → s.Inv → s.params = p → exec y.instr (s.withOperands y) = .next u →
    u.status.last = .none → u.writer.stream.length = s.writer.stream.length + n

/-- A run of symbols that complete appends the sum of what each appends (R103, R107). -/
theorem completesAs_stream_length {α : Type} {p : Params} {symbol : α → Symbol} {cost : α → Nat}
    (hstep : ∀ a, (symbol a).AppendsBits p (cost a)) {l : List α} : ∀ {s t : State}, s.Ready → s.Inv → s.params = p →
    CompletesAs (l.map symbol) s t → t.writer.stream.length = s.writer.stream.length + (l.map cost).sum := by
  induction l with
  | nil => rintro s t _ _ _ rfl; rfl
  | cons a l ih =>
    intro s t hs hi hp h
    obtain ⟨u, hu, hl, hrest⟩ := completesAs_cons.mp h
    obtain ⟨hui, hparams⟩ := exec_inv (hi.withOperands (symbol a)) hu
    have hready := (hs.withOperands (symbol a)).of_completed hu hl
    rw [ih hready hui (hparams.trans hp) hrest, hstep a s u hs hi hp hu hl, List.map_cons, List.sum_cons, Nat.add_assoc]

theorem encodePair_appendsBits (p : Params) (t : Nat) (x y o2 o3 : Word) :
    Symbol.AppendsBits p ⟨.encodePair t, x, y, o2, o3⟩
      (if t = 0 then 0 else pairCost (p.ht.table t) t (signed x) (signed y)) := by
  rintro s u hs hi rfl hu hl
  exact encodePair_stream_length (hs.withOperands ⟨.encodePair t, x, y, o2, o3⟩) (hi.withOperands _) hu hl

theorem encodeQuad_appendsBits {p : Params} (hw : p.ht.WellFormed) (sel : Nat) (v w x y : Word) :
    Symbol.AppendsBits p ⟨.encodeQuad sel, v, w, x, y⟩
      (quadCost (p.ht.table (32 + sel)) (signed v) (signed w) (signed x) (signed y)) := by
  rintro s u hs hi rfl hu hl
  exact (encodeQuad_completed (hs.withOperands ⟨.encodeQuad sel, v, w, x, y⟩) (hi.withOperands _) hw hu hl).2.2

theorem rangeCost_eq_sum (s : State) (b e t : Nat) : rangeCost s b e t =
    ((List.range ((e - b) / 2)).map fun k => if t = 0 then 0 else
      pairCost (s.params.ht.table t) t (coefficient s (b + 2 * k)) (coefficient s (b + 2 * k + 1))).sum := by
  unfold rangeCost
  by_cases h0 : t = 0
  · simp [h0]
  · simp only [h0, if_false]

/-- Encoding the pairs of a range appends what the range costs (R103). -/
theorem completesAs_rangeSymbols {s v : State} (hs : s.Ready) (hi : s.Inv) {b e t : Nat}
    (h : CompletesAs (rangeSymbols s b e t) s v) :
    v.writer.stream.length = s.writer.stream.length + rangeCost s b e t := by
  rw [rangeCost_eq_sum]
  exact completesAs_stream_length (fun k => encodePair_appendsBits s.params t (coefficientWord s.ix (b + 2 * k))
    (coefficientWord s.ix (b + 2 * k + 1)) s.regs.op2 s.regs.op3) hs hi rfl h

/-- Encoding the quadruples of a region with a select appends what the region costs with it (R107). -/
theorem completesAs_quadSymbols {s v : State} (hs : s.Ready) (hi : s.Inv) (hw : s.params.ht.WellFormed) {b n sel : Nat}
    (h : CompletesAs (quadSymbols s b n sel) s v) :
    v.writer.stream.length = s.writer.stream.length + quadsCost s b n sel :=
  completesAs_stream_length (fun k => encodeQuad_appendsBits hw sel (coefficientWord s.ix (b + 4 * k))
    (coefficientWord s.ix (b + 4 * k + 1)) (coefficientWord s.ix (b + 4 * k + 2)) (coefficientWord s.ix (b + 4 * k + 3)))
    hs hi rfl h

/-! ## The statements -/

/-- Settles O47: the widths of a pair's fields add up to its cost, for one pair and summed over a range. -/
theorem pairCountEqualsEmission : Obligations.PairCountEqualsEmission := by
  refine fun s hs hi hw => ⟨fun t u hu hl => ?_, fun t u c h1 h31 hu hc => ?_, fun b e t u v hu hl hv => ?_⟩
  · rcases encodePair_completed hu hl with hzero | ⟨h1, h31, bits, hbits, hemit⟩
    · exact .inl hzero
    · refine .inr ⟨h1, bits, hbits, ?_⟩
      obtain ⟨_, rfl⟩ := pairBits_eq_ok hw (by omega) hbits
      rw [emitChecked_stream_length (hi.writer hs.1) hemit, pairFields_totalWidth]
  · rw [exec_last_iff hs hu (isRuleCode_of_symbol hc).ne_none]
    exact encodePairRule_error_iff h1 h31 hc
  · rw [countBits_completed (s := { s with regs := { s.regs with op0 := b, op1 := e } }) hw hu hl]
    exact completesAs_rangeSymbols hs hi hv

/-- Settles O48: the same for quadruples, where `RES0` is the cost of the region with the select in `RES1`. -/
theorem quadCountEqualsEmission : Obligations.QuadCountEqualsEmission := by
  refine fun s hs hi hw => ⟨fun sel u hu hl => ?_, fun sel u hu => ⟨?_, ?_⟩, fun b n u v hu hl hv => ?_⟩
  · obtain ⟨h1, hrep, hlen⟩ := encodeQuad_completed hs hi hw hu hl
    exact ⟨h1, _, (quadBits_eq hw h1 _ _ _ _).1 hrep, hlen⟩
  · exact (exec_last_iff hs hu (by decide)).trans (encodeQuadRule_index_iff hw)
  · exact (exec_last_iff hs hu (by decide)).trans (encodeQuadRule_violation_iff hw)
  · rw [count1Bits_completed (s := { s with regs := { s.regs with op0 := b, op1 := n } }) hw hu hl]
    exact completesAs_quadSymbols hs hi hw hv

end Sys2Proof.Machine
end

section
/-! Proofs about code emission (spec 43_huffman_emit.md), part 1: room. First how much a run of word flushes grows the
buffer, then that the room check and the `emit`s pass exactly where this growth stays within the limit, then the end of an
emission command, then the writes of `STUFF`, then the statements. -/

namespace Sys2Proof.Machine

/-! ## Growth over several words -/

/-- A flush never lowers the capacity (R63). -/
theorem capAfterFlushes_mono (pos cap : Nat) : Monotone (capAfterFlushes pos cap) := by
  refine monotone_nat_of_le_succ fun n => ?_
  rw [capAfterFlushes]
  split_ifs
  · exact Nat.le_add_right _ _
  · exact le_rfl

/-- A room check passes where the growth of one word flush stays within the limit (R63). -/
theorem roomStep_of_capAfterFlushes_le {lim pos cap : Nat} (h : capAfterFlushes pos cap 1 ≤ lim) :
    roomStep lim pos cap = .ok (capAfterFlushes pos cap 1) := by
  change (if cap - pos < 4 then cap + cap / 2 else cap) ≤ lim at h
  change roomStep lim pos cap = .ok (if cap - pos < 4 then cap + cap / 2 else cap)
  apply roomStep_of_room_or_growth
  split_ifs at h
  · exact .inr h
  · exact .inl (by omega)

/-- A room check that passes keeps the capacity within the limit (R63). -/
theorem roomStep_le {lim pos cap c : Nat} (hcap : cap ≤ lim) (h : roomStep lim pos cap = .ok c) : c ≤ lim := by
  rcases roomStep_ok h with ⟨rfl, _⟩ | ⟨_, _, hle⟩
  · exact hcap
  · exact hle

/-- The rounds of the room check pass exactly where the growth stays within the limit (R120). -/
theorem roomForWords_ok_iff {lim : Nat} : ∀ {words pos cap : Nat}, cap ≤ lim →
    (roomForWords lim words pos cap = .ok () ↔ capAfterFlushes pos cap words ≤ lim) := by
  intro words
  induction words with
  | zero => exact fun hcap => ⟨fun _ => hcap, fun _ => rfl⟩
  | succ words ih =>
    intro pos cap hcap
    rw [roomForWords]
    by_cases hstep : capAfterFlushes pos cap 1 ≤ lim
    · rw [roomStep_of_capAfterFlushes_le hstep, Nat.add_comm words 1, capAfterFlushes_add]
      exact ih hstep
    · cases hr : roomStep lim pos cap with
      | ok c => exact absurd (roomStep_eq_capAfterFlushes hr ▸ roomStep_le hcap hr) hstep
      | error c =>
        refine ⟨nofun, fun hle => absurd ?_ hstep⟩
        exact (capAfterFlushes_mono pos cap (Nat.le_add_left 1 words)).trans hle

/-- R120: `room_check` passes exactly where the buffer can take every word. -/
theorem roomCheck_ok_iff {lim : Nat} {w : Writer} (h : w.Inv lim) (bits : Nat) :
    roomCheck lim w bits = .ok () ↔ HasRoom lim w bits := roomForWords_ok_iff h.cap_le

/-! ## Room for a run of `emit`s -/

/-- Fewer bits need no more room. -/
theorem HasRoom.mono {lim m n : Nat} {w : Writer} (hmn : m ≤ n) (h : HasRoom lim w n) : HasRoom lim w m :=
  (capAfterFlushes_mono _ _ (Nat.div_le_div_right (Nat.add_le_add_left hmn _))).trans h

/-- A writer that meets the invariants has room for no bits. -/
theorem Writer.Inv.hasRoom_zero {lim : Nat} {w : Writer} (h : w.Inv lim) : HasRoom lim w 0 := by
  have hpos := h.free_pos
  have hwords : wordsCompleted w 0 = 0 := by unfold wordsCompleted; omega
  unfold HasRoom
  rw [hwords]
  exact h.cap_le

/-- The words that a string and then `n` more bits complete. -/
theorem Appends.wordsCompleted_add {lim n : Nat} {w u : Writer} {bits : List Bool} (h : Appends lim w bits u) :
    wordsCompleted w (bits.length + n) = wordsCompleted w bits.length + wordsCompleted u n := by
  have hle := h.inv.free_le
  have hlen := congrArg List.length h.stream
  rw [List.length_append, stream_length, stream_length, h.pos] at hlen
  unfold wordsCompleted at hlen ⊢
  omega

/-- After a string has been appended there is room for `n` more bits exactly where there was for both (R120). -/
theorem Appends.hasRoom_iff {lim n : Nat} {w u : Writer} {bits : List Bool} (h : Appends lim w bits u) :
    HasRoom lim u n ↔ HasRoom lim w (bits.length + n) := by
  unfold HasRoom
  rw [h.wordsCompleted_add, capAfterFlushes_add, ← h.pos, ← h.cap]

/-- What has been appended had room. -/
theorem Appends.hasRoom {lim : Nat} {w u : Writer} {bits : List Bool} (h : Appends lim w bits u) :
    HasRoom lim w bits.length := h.hasRoom_iff.mp h.inv.hasRoom_zero

/-- An `emit` with room for its bits completes (R64, R120). -/
theorem emit_of_hasRoom {lim n : Nat} {w : Writer} (h : w.Inv lim) (value : Nat) (h32 : n ≤ 32)
    (hroom : HasRoom lim w n) : ∃ w', emit lim w value n = .ok w' := by
  have hpos := h.free_pos
  have hle := h.free_le
  rcases Nat.eq_zero_or_pos n with rfl | h0
  · exact ⟨_, emit_zero lim value w⟩
  · by_cases hn : n < w.free
    · exact ⟨_, emit_merge h0 hn⟩
    · have hwords : wordsCompleted w n = 1 := by unfold wordsCompleted; omega
      unfold HasRoom at hroom
      rw [hwords] at hroom
      exact ⟨_, emit_flush h0 (Nat.not_lt.mp hn) (roomStep_of_capAfterFlushes_le hroom)⟩

/-- R120: a run of `emit`s with room for all its bits completes. -/
theorem emitFields_of_hasRoom {lim : Nat} {fs : List Field} : ∀ {w : Writer}, w.Inv lim → (∀ f ∈ fs, f.width ≤ 32) →
    HasRoom lim w (totalWidth fs) → ∃ w', emitFields lim w fs = .ok w' := by
  induction fs with
  | nil => exact fun _ _ _ => ⟨_, rfl⟩
  | cons f fs ih =>
    intro w h hwidth hroom
    obtain ⟨hf, hfs⟩ := List.forall_mem_cons.mp hwidth
    obtain ⟨u, hu⟩ := emit_of_hasRoom h f.value hf (hroom.mono (Nat.le_add_right _ _))
    have happ := emit_appends h hf hu
    have hrest : HasRoom lim u (totalWidth fs) := happ.hasRoom_iff.mpr (by rwa [bitsN_length])
    rw [emitFields, hu]
    exact ih happ.inv hfs hrest

/-- R120: a run of `emit`s completes exactly where there is room for all its bits. -/
theorem emitFields_ok_iff {lim : Nat} {fs : List Field} {w : Writer} (h : w.Inv lim) (hwidth : ∀ f ∈ fs, f.width ≤ 32) :
    (∃ w', emitFields lim w fs = .ok w') ↔ HasRoom lim w (totalWidth fs) := by
  refine ⟨fun ⟨w', hw'⟩ => ?_, emitFields_of_hasRoom h hwidth⟩
  rw [← fieldsBits_length]
  exact (emitFields_appends h hwidth hw').hasRoom

/-! ## The end of an emission command -/

/-- With room, the end of an emission command appends its fields (R115, R116). -/
theorem emitChecked_of_hasRoom {lim : Nat} {fs : List Field} {w : Writer} (h : w.Inv lim)
    (hwidth : ∀ f ∈ fs, f.width ≤ 32) (hroom : HasRoom lim w (totalWidth fs)) :
    ∃ w', emitChecked lim w (totalWidth fs) fs = .ok w' ∧ Appends lim w (fieldsBits fs) w' := by
  obtain ⟨w', hw'⟩ := emitFields_of_hasRoom h hwidth hroom
  refine ⟨w', ?_, emitFields_appends h hwidth hw'⟩
  unfold emitChecked
  rw [if_neg (by simpa [maxWrite] using hwidth), (roomCheck_ok_iff h _).mpr hroom]
  exact hw'

/-- Without room, the end of an emission command raises `BufferExhausted` before any `emit` (R115, R121 (4)). -/
theorem emitChecked_of_not_hasRoom {lim : Nat} {fs : List Field} {w : Writer} (h : w.Inv lim)
    (hwidth : ∀ f ∈ fs, f.width ≤ 32) (hroom : ¬ HasRoom lim w (totalWidth fs)) :
    emitChecked lim w (totalWidth fs) fs = .error .bufferExhausted := by
  unfold emitChecked
  rw [if_neg (by simpa [maxWrite] using hwidth)]
  cases hr : roomCheck lim w (totalWidth fs) with
  | ok => exact absurd ((roomCheck_ok_iff h _).mp hr) hroom
  | error c => exact congrArg _ (roomForWords_error hr)

/-! ## Writes of ones -/

theorem bitsN_ones {k n : Nat} (h : n ≤ k) : bitsN (2 ^ k - 1) n = List.replicate n true := by
  apply List.ext_getElem?
  intro i
  rw [bitsN_getElem?, List.getElem?_replicate, Nat.testBit_two_pow_sub_one]
  by_cases hi : i < n
  · rw [if_pos hi, if_pos hi, decide_eq_true (by omega)]
  · rw [if_neg hi, if_neg hi]

theorem lowBits_ones {n : Nat} (h : n ≤ 32) : lowBits 0xFFFFFFFF n = BitVec.ofNat 32 (2 ^ n - 1) := by
  have hmod : (2 ^ 32 - 1) % 2 ^ n = (2 ^ n - 1) % 2 ^ n :=
    (bitsN_eq_iff _ _ _).mp ((bitsN_ones h).trans (bitsN_ones le_rfl).symm)
  rw [Nat.mod_eq_of_lt (Nat.sub_one_lt (by positivity))] at hmod
  exact congrArg (BitVec.ofNat 32) hmod

/-- The actions of `STUFF n` are its writes, line by line (R52, R131). -/
theorem stuffActions_eq (n : Nat) :
    stuffActions n = ((stuffWrites n).map fun e => writeBitsActions e.1 e.2).flatten := by
  unfold stuffActions stuffWrites
  rw [List.map_append, List.flatten_append, List.map_replicate]
  congr 1
  split_ifs
  · rfl
  · rw [lowBits_ones (by omega)]
    exact (List.append_nil _).symm

/-- The writes of `STUFF n` spell `n` one bits (R131). -/
theorem stuffWrites_bits (n : Nat) : writesBits (stuffWrites n) = List.replicate n true := by
  have hwords : (List.replicate (n / 32) (List.replicate 32 true)).flatten = List.replicate (n / 32 * 32) true :=
    List.flatten_replicate_replicate
  have hones : bitsN (BitVec.allOnes 32).toNat 32 = List.replicate 32 true := bitsN_ones le_rfl
  have hrest : writesBits (if n % 32 = 0 then [] else [(BitVec.ofNat 32 (2 ^ (n % 32) - 1), n % 32)]) =
      List.replicate (n % 32) true := by
    split_ifs with h0
    · rw [h0]; rfl
    · have hfit : 2 ^ (n % 32) - 1 < 2 ^ 32 :=
        (Nat.sub_le _ _).trans_lt (Nat.pow_lt_pow_right (by norm_num) (Nat.mod_lt _ (by norm_num)))
      simp only [writesBits, List.map_cons, List.map_nil, List.flatten_cons, List.flatten_nil, List.append_nil,
        BitVec.toNat_ofNat, Nat.mod_eq_of_lt hfit]
      exact bitsN_ones le_rfl
  calc writesBits (stuffWrites n)
      = List.replicate (n / 32 * 32) true ++ List.replicate (n % 32) true := by
        rw [← hwords, ← hrest, ← hones]
        simp only [stuffWrites, writesBits, List.map_append, List.flatten_append, List.map_replicate]
    _ = List.replicate n true := by rw [List.replicate_append_replicate, Nat.div_add_mod']

/-! ## The statements -/

/-- Settles O51: the room check and the `emit`s both pass exactly where the growth stays within the limit. -/
theorem roomCheckIsExact : Obligations.RoomCheckIsExact := fun _ _ fs hw hwidth =>
  ⟨(roomCheck_ok_iff hw (totalWidth fs)).trans (emitFields_ok_iff hw hwidth).symm, roomCheck_ok_iff hw _⟩

/-- Settles O37: the actions are the writes, and completed writes append their fields, here all ones. -/
theorem stuffingAppendsOnes : Obligations.StuffingAppendsOnes := by
  refine fun n => ⟨stuffActions_eq n, fun s t hs hi h => ?_⟩
  obtain ⟨_, happ⟩ := completesAs_writes_appends hs hi h
  rw [happ.stream, stuffWrites_bits]

end Sys2Proof.Machine
end

section
/-! Proofs about code emission (spec 43_huffman_emit.md), part 2: the three commands. First what an emission command
answers with and without room, then the pair and the quadruple, then the granule: its registers, its rule and how long
its regions are, then the statements. -/

namespace Sys2Proof.Machine

/-! ## The answers of an emission command -/

/-- On a ready state every fault of a command that is no query latches (R141). -/
theorem exec_mutating_error {i : Instr} {s : State} {c : FaultCode} (hs : s.Ready) (hi : ¬ IsQuery i)
    (hr : commandRule i s = .error c) : exec i s = .next (s.withFault c) := by
  rw [exec_eq]
  exact runCommand_ready_error hs hr ((commandKind_latches i c).mpr fun h => hi h.2)

/-- The rule of `i` on `s` ends in the emission of `fields`, and then makes `f` of the state's writer (R115). -/
structure EndsInEmission (i : Instr) (s : State) (fields : List Field) (f : Writer → State) : Prop where
  width : ∀ field ∈ fields, field.width ≤ 32
  rule : commandRule i s = (emitChecked s.params.capLimit s.writer (totalWidth fields) fields).map f
  status : ∀ w, (f w).status = s.status
  writer : ∀ w, (f w).writer = w

/-- With room for its fields, an emission command completes and appends them (R115, R116, R142). -/
theorem EndsInEmission.exec_of_hasRoom {i : Instr} {s : State} {fields : List Field} {f : Writer → State}
    (h : EndsInEmission i s fields f) (hs : s.Ready) (hi : s.Inv)
    (hroom : HasRoom s.params.capLimit s.writer (totalWidth fields)) :
    ∃ w, exec i s = .next ((f w).withLast .none) ∧ Appends s.params.capLimit s.writer (fieldsBits fields) w := by
  obtain ⟨w, hemit, happ⟩ := emitChecked_of_hasRoom (hi.writer hs.1) h.width hroom
  have hrule := h.rule
  rw [hemit] at hrule
  rw [exec_eq]
  exact ⟨w, runCommand_ready_ok hs hrule (h.status w), happ⟩

/-- Without room, an emission command raises `BufferExhausted`, and the writer stands (R115, R121 (4)). -/
theorem EndsInEmission.exec_of_not_hasRoom {i : Instr} {s : State} {fields : List Field} {f : Writer → State}
    (h : EndsInEmission i s fields f) (hs : s.Ready) (hi : s.Inv)
    (hroom : ¬ HasRoom s.params.capLimit s.writer (totalWidth fields)) :
    exec i s = .next (s.withFault .bufferExhausted) := by
  have hrule := h.rule
  rw [emitChecked_of_not_hasRoom (hi.writer hs.1) h.width hroom] at hrule
  exact exec_ready_error hs hrule nofun

/-! ## The rules of the commands -/

/-- On a representable pair `ENCODE_PAIR` emits the fields of R118 or R119 (R116). -/
theorem encodePair_endsInEmission {t : Nat} {s : State} (hw : s.params.ht.WellFormed) (h1 : 1 ≤ t) (h31 : t ≤ 31)
    (h : Representable (s.params.ht.table t) t (signed s.regs.op0) (signed s.regs.op1)) :
    EndsInEmission (.encodePair t) s
      (pairFields (s.params.ht.table t) t (signed s.regs.op0) (signed s.regs.op1)) s.setWriter where
  width := pairFields_width hw (by omega) _ _
  rule := by
    rw [pairFields_totalWidth]
    exact encodePairRule_of_bits h1 h31 ((pairBits_eq hw (by omega) _ _).1 h)
  status _ := rfl
  writer _ := rfl

/-- On a representable quadruple `ENCODE_QUAD` emits the fields of R123 (R122). -/
theorem encodeQuad_endsInEmission {sel : Nat} {s : State} (hw : s.params.ht.WellFormed) (h1 : sel ≤ 1)
    (h : QuadRepresentable (signed s.regs.op0) (signed s.regs.op1) (signed s.regs.op2) (signed s.regs.op3)) :
    EndsInEmission (.encodeQuad sel) s (quadFieldList (s.params.ht.table (32 + sel)) (signed s.regs.op0)
      (signed s.regs.op1) (signed s.regs.op2) (signed s.regs.op3)) s.setWriter where
  width := quadFieldList_width hw h1 _ _ _ _
  rule := by
    rw [quadFieldList_totalWidth]
    exact encodeQuadRule_of_representable hw h1 h
  status _ := rfl
  writer _ := rfl

/-- What `gi_check` answers on registers that fail it (R127). -/
theorem granuleCheck_of_not_ok {g : GranuleRegs} (h : ¬ GranuleOk g) :
    granuleCheck g =
      .error (if 288 < g.bigValues.toNat then .bigValuesLimitExceeded else .invalidHuffmanIndex) := by
  cases hc : granuleCheck g with
  | ok => exact absurd ((granuleCheck_ok_iff g).mp hc) h
  | error c =>
    rcases granuleCheck_error hc with ⟨rfl, hbig⟩ | ⟨rfl, hbig, _⟩
    · rw [if_pos hbig]
    · rw [if_neg (by omega)]

/-- Bad granule registers are reported before anything else is looked at (R121, R127). -/
theorem encodeGranuleRule_of_not_ok {s : State} (h : ¬ GranuleOk s.granule) :
    encodeGranuleRule s =
      .error (if 288 < s.granule.bigValues.toNat then .bigValuesLimitExceeded else .invalidHuffmanIndex) := by
  unfold encodeGranuleRule
  rw [granuleCheck_of_not_ok h]

/-- With good registers, a symbol that cannot be represented is reported (R126). -/
theorem encodeGranuleRule_of_violation {s : State} (hw : s.params.ht.WellFormed) (hg : GranuleOk s.granule)
    (h : ¬ GranuleRepresentable s) : encodeGranuleRule s = .error .encodingRangeViolation := by
  unfold encodeGranuleRule
  rw [(granuleCheck_ok_iff _).mpr hg, (granuleFields_eq hw hg).2 h]

/-- The state after `ENCODE_GRANULE` has emitted `bits` bits, which it answers in `RES0` (R126). -/
def State.afterGranule (s : State) (bits : Nat) (w : Writer) : State :=
  (s.setWriter w).setRes0 (BitVec.ofNat 32 bits)

/-- With good registers and representable symbols `ENCODE_GRANULE` emits fields that spell its layout (R126). -/
theorem encodeGranule_endsInEmission {s : State} (hw : s.params.ht.WellFormed) (hg : GranuleOk s.granule)
    (h : GranuleRepresentable s) : ∃ fields, fieldsBits fields = granuleLayout s ∧
      EndsInEmission .encodeGranule s fields (s.afterGranule (totalWidth fields)) := by
  obtain ⟨fields, hfields, hbits, hwidth⟩ := (granuleFields_eq hw hg).1 h
  refine ⟨fields, hbits, hwidth, ?_, fun _ => rfl, fun _ => rfl⟩
  change encodeGranuleRule s = _
  unfold encodeGranuleRule
  rw [(granuleCheck_ok_iff _).mpr hg, hfields]
  rfl

/-- With good registers `ENCODE_GRANULE` raises neither fault of the register checks (R126, R127). -/
theorem encodeGranuleRule_error {s : State} {c : FaultCode} (hw : s.params.ht.WellFormed) (hg : GranuleOk s.granule)
    (h : encodeGranuleRule s = .error c) : c ≠ .bigValuesLimitExceeded ∧ c ≠ .invalidHuffmanIndex := by
  by_cases hrep : GranuleRepresentable s
  · obtain ⟨fields, _, hend⟩ := encodeGranule_endsInEmission hw hg hrep
    rcases emitChecked_error (map_error (hend.rule.symm.trans h)) with rfl | rfl <;> exact ⟨nofun, nofun⟩
  · rw [encodeGranuleRule_of_violation hw hg hrep] at h
    cases h
    exact ⟨nofun, nofun⟩

/-! ## The length of a granule -/

/-- What the `k`-th pair of the big-values region costs: nothing in table 0 (R117, R126). -/
def granulePairCost (s : State) (k : Nat) : Nat :=
  if granuleTable s.granule (2 * k) = 0 then 0
  else pairCost (s.params.ht.table (granuleTable s.granule (2 * k))) (granuleTable s.granule (2 * k))
    (coefficient s (2 * k)) (coefficient s (2 * k + 1))

theorem granulePairLayout_length {s : State} (hw : s.params.ht.WellFormed) (hg : GranuleOk s.granule)
    (h : GranuleRepresentable s) {k : Nat} (hk : k < s.granule.bigValues.toNat) :
    (granulePairLayout s k).length = granulePairCost s k := by
  unfold granulePairLayout granulePairCost
  split_ifs with h0
  · rfl
  · exact pairLayout_length hw (granuleTable_lt hg _) (h.1 k hk h0)

theorem granuleLayout_length {s : State} (hw : s.params.ht.WellFormed) (hg : GranuleOk s.granule)
    (h : GranuleRepresentable s) : (granuleLayout s).length =
      ((List.range s.granule.bigValues.toNat).map (granulePairCost s)).sum +
        quadsCost s (2 * s.granule.bigValues.toNat) s.granule.count1.toNat s.granule.count1TableSelect.toNat := by
  unfold granuleLayout quadsCost
  rw [List.length_append, List.length_flatten, List.length_flatten, List.map_map, List.map_map]
  congr 2
  · exact List.map_congr_left fun k hk => granulePairLayout_length hw hg h (List.mem_range.mp hk)
  · exact List.map_congr_left fun k _ => quadLayout_length _ _ _ _ _

theorem granulePairCost_le {s : State} (hw : s.params.ht.WellFormed) (hg : GranuleOk s.granule) (k : Nat) :
    granulePairCost s k ≤ 64 := by
  unfold granulePairCost
  split_ifs
  · exact Nat.zero_le _
  · exact pairCost_le hw (granuleTable_lt hg _) _ _

/-- The sum of `n` costs that are each at most `c`. -/
theorem sum_map_range_le {f : Nat → Nat} {c : Nat} (h : ∀ k, f k ≤ c) (n : Nat) :
    ((List.range n).map f).sum ≤ n * c := by
  refine (List.sum_le_card_nsmul _ c fun cost hcost => ?_).trans_eq ?_
  · obtain ⟨k, _, rfl⟩ := List.mem_map.mp hcost
    exact h k
  · rw [List.length_map, List.length_range, smul_eq_mul]

/-- R126: a granule is shorter than 2^15 bits: at most 64 for a pair and 36 for a quadruple, in 576 coefficients. -/
theorem granuleLayout_length_lt {s : State} (hw : s.params.ht.WellFormed) (hg : GranuleOk s.granule)
    (h : GranuleRepresentable s) : (granuleLayout s).length < 2 ^ 15 := by
  have ⟨_, h576, _, _, _, _, _, _, _, _, hsel⟩ := hg
  have hpairs := sum_map_range_le (granulePairCost_le hw hg) s.granule.bigValues.toNat
  have hquads : quadsCost s (2 * s.granule.bigValues.toNat) s.granule.count1.toNat
      s.granule.count1TableSelect.toNat ≤ s.granule.count1.toNat * 36 :=
    sum_map_range_le (fun _ => quadCost_le hw hsel _ _ _ _) _
  rw [granuleLayout_length hw hg h]
  omega

theorem sum_map_range_add (f : Nat → Nat) (m n : Nat) : ((List.range (m + n)).map f).sum =
    ((List.range m).map f).sum + ((List.range n).map fun k => f (m + k)).sum := by
  rw [List.range_add, List.map_append, List.sum_append, List.map_map]
  rfl

/-- A run of `n` pairs of the big-values region that lies in one region costs what the range costs in its table (R126). -/
theorem sum_granulePairCost_eq_rangeCost {s : State} {b n t : Nat}
    (h : ∀ k, k < n → granuleTable s.granule (2 * (b + k)) = t) :
    ((List.range n).map fun k => granulePairCost s (b + k)).sum = rangeCost s (2 * b) (2 * (b + n)) t := by
  rw [rangeCost_eq_sum, show (2 * (b + n) - 2 * b) / 2 = n by omega]
  congr 1
  refine List.map_congr_left fun k hk => ?_
  unfold granulePairCost
  rw [h k (List.mem_range.mp hk), Nat.mul_add]

/-- R126: the big-values region costs what its three regions cost, each in its table. -/
theorem bigValues_cost_eq_regions {s : State} (hg : GranuleOk s.granule) :
    ((List.range s.granule.bigValues.toNat).map (granulePairCost s)).sum =
      rangeCost s 0 s.granule.address1.toNat s.granule.tableSelect0.toNat +
      rangeCost s s.granule.address1.toNat s.granule.address2.toNat s.granule.tableSelect1.toNat +
      rangeCost s s.granule.address2.toNat s.granule.address3.toNat s.granule.tableSelect2.toNat := by
  obtain ⟨_, _, h12, h23, h3, heven1, heven2, _⟩ := hg
  obtain ⟨a, ha⟩ : ∃ a, s.granule.address1.toNat = 2 * a := ⟨s.granule.address1.toNat / 2, by omega⟩
  obtain ⟨b, hb⟩ : ∃ b, s.granule.address2.toNat = 2 * (a + b) :=
    ⟨(s.granule.address2.toNat - s.granule.address1.toNat) / 2, by omega⟩
  obtain ⟨c, hc⟩ : ∃ c, s.granule.bigValues.toNat = a + b + c :=
    ⟨s.granule.bigValues.toNat - (a + b), by omega⟩
  have h0 := sum_granulePairCost_eq_rangeCost (s := s) (b := 0) (n := a) (t := s.granule.tableSelect0.toNat)
    fun k hk => if_pos (by omega)
  have h1 := sum_granulePairCost_eq_rangeCost (s := s) (b := a) (n := b) (t := s.granule.tableSelect1.toNat)
    fun k hk => (if_neg (by omega)).trans (if_pos (by omega))
  have h2 := sum_granulePairCost_eq_rangeCost (s := s) (b := a + b) (n := c) (t := s.granule.tableSelect2.toNat)
    fun k hk => (if_neg (by omega)).trans (if_neg (by omega))
  simp only [Nat.zero_add] at h0
  rw [h3, hc, ha, hb, sum_map_range_add, sum_map_range_add, h0, h1, h2]

/-! ## The statements -/

/-- Settles O52: the checks of the rule in their order, then the emission of the pair's fields, which spell its layout. -/
theorem encodePairAppendsItsCode : Obligations.EncodePairAppendsItsCode := by
  refine fun s t hs hi hw => ⟨?_, fun h => exec_ready_error hs (i := .encodePair t) (if_pos h) nofun,
    fun h1 h31 hrep => ?_, fun h1 h31 hrep hroom => ?_, fun h1 h31 hrep hroom => ?_⟩
  · rintro rfl
    exact exec_setWriter (i := .encodePair 0) hs rfl
  · exact exec_mutating_error hs (by simp [IsQuery])
      (encodePairRule_of_error h1 h31 ((pairBits_eq hw (by omega) _ _).2 hrep))
  · have hend := encodePair_endsInEmission hw h1 h31 hrep
    rw [← pairFields_totalWidth] at hroom
    exact hend.exec_of_not_hasRoom hs hi hroom
  · have hend := encodePair_endsInEmission hw h1 h31 hrep
    rw [← pairFields_totalWidth] at hroom
    rw [← pairFields_bits hw (by omega) hrep]
    exact hend.exec_of_hasRoom hs hi hroom

/-- Settles O53: the same for the quadruple. -/
theorem encodeQuadAppendsItsCode : Obligations.EncodeQuadAppendsItsCode := by
  refine fun s sel hs hi hw => ⟨fun h => exec_ready_error hs (i := .encodeQuad sel) (if_pos h) nofun,
    fun h1 hrep => ?_, fun h1 hrep hroom => ?_, fun h1 hrep hroom => ?_⟩
  · exact exec_mutating_error hs (by simp [IsQuery]) (encodeQuadRule_of_violation hw h1 hrep)
  · have hend := encodeQuad_endsInEmission hw h1 hrep
    rw [← quadFieldList_totalWidth] at hroom
    exact hend.exec_of_not_hasRoom hs hi hroom
  · have hend := encodeQuad_endsInEmission hw h1 hrep
    rw [← quadFieldList_totalWidth] at hroom
    rw [← quadFieldList_bits]
    exact hend.exec_of_hasRoom hs hi hroom

/-- Settles O55: `gi_check` comes first, and after it the rule raises other codes. -/
theorem granuleRegisterChecksInOrder : Obligations.GranuleRegisterChecksInOrder := by
  refine fun s hs hw => ⟨fun hbig => ?_, fun hbig hbad => ?_, fun hg t ht => ⟨fun hl => ?_, fun hl => ?_⟩⟩
  · have hbad : ¬ GranuleOk s.granule := fun hg => absurd hg.1 (by omega)
    have hrule := encodeGranuleRule_of_not_ok hbad
    rw [if_pos hbig] at hrule
    exact exec_ready_error hs (i := .encodeGranule) hrule nofun
  · have hrule := encodeGranuleRule_of_not_ok hbad
    rw [if_neg (by omega)] at hrule
    exact exec_ready_error hs (i := .encodeGranule) hrule nofun
  · exact (encodeGranuleRule_error hw hg ((exec_last_iff hs ht (hl ▸ nofun)).mp rfl)).1 hl
  · exact (encodeGranuleRule_error hw hg ((exec_last_iff hs ht (hl ▸ nofun)).mp rfl)).2 hl

/-- Settles O56: the fields of the granule spell its layout, whose length is the sum of the four counts. -/
theorem encodeGranuleAppendsItsRegions : Obligations.EncodeGranuleAppendsItsRegions := by
  refine fun s hs hi hw hg => ⟨fun hrep => ?_, fun hrep hroom => ?_, fun hrep hroom => ?_⟩
  · exact exec_mutating_error hs (i := .encodeGranule) (by simp [IsQuery]) (encodeGranuleRule_of_violation hw hg hrep)
  · obtain ⟨fields, hbits, hend⟩ := encodeGranule_endsInEmission hw hg hrep
    rw [← hbits, fieldsBits_length] at hroom
    exact hend.exec_of_not_hasRoom hs hi hroom
  · obtain ⟨fields, hbits, hend⟩ := encodeGranule_endsInEmission hw hg hrep
    rw [← hbits, fieldsBits_length] at hroom
    obtain ⟨w, hexec, happ⟩ := hend.exec_of_hasRoom hs hi hroom
    have hlt := granuleLayout_length_lt hw hg hrep
    have hres : (BitVec.ofNat 32 (totalWidth fields)).toNat = (granuleLayout s).length := by
      rw [← fieldsBits_length, hbits, BitVec.toNat_ofNat, Nat.mod_eq_of_lt (by omega)]
    refine ⟨w, _, hexec, hbits ▸ happ, hres, hres ▸ hlt, ?_⟩
    rw [hres, granuleLayout_length hw hg hrep, bigValues_cost_eq_regions hg]

end Sys2Proof.Machine
end

section
/-! Proofs about code emission (spec 43_huffman_emit.md), part 3: the layouts decode uniquely. First that the code words of
one table are told apart by any string they begin, then the same of signs and escape extensions once the magnitude's index
is known, then that an index gives the clamped magnitudes of a pair and the zeros of a quadruple, then the statement. -/

namespace Sys2Proof.Machine

/-! ## Code words -/

/-- What R85 forbids, on bit strings: the first code word begins the second. -/
theorem codeIsPrefix_iff (a b : Nat × Nat) :
    codeIsPrefix a b = true ↔ bitsN a.1 a.2 <+: bitsN b.1 b.2 := by
  obtain ⟨u, m⟩ := a
  obtain ⟨v, n⟩ := b
  simp only [codeIsPrefix, Bool.and_eq_true, decide_eq_true_eq, beq_iff_eq]
  constructor
  · rintro ⟨hmn, heq⟩
    obtain ⟨d, rfl⟩ := Nat.exists_eq_add_of_le hmn
    rw [Nat.add_sub_cancel_left, Nat.add_comm m d, Nat.pow_add, Nat.mod_mul_right_div_self] at heq
    rw [bitsN_add, (bitsN_eq_iff _ _ _).mpr heq]
    exact List.prefix_append _ _
  · intro h
    have hmn : m ≤ n := by simpa using h.length_le
    obtain ⟨d, rfl⟩ := Nat.exists_eq_add_of_le hmn
    rw [bitsN_add] at h
    have hhead := List.prefix_of_prefix_length_le h (List.prefix_append _ _) (by simp)
    have heq := hhead.eq_of_length (by simp)
    rw [Nat.add_sub_cancel_left, Nat.add_comm m d, Nat.pow_add, Nat.mod_mul_right_div_self]
    exact ⟨Nat.le_add_left _ _, ((bitsN_eq_iff _ _ _).mp heq).symm⟩

/-- An index of a table's two arrays. -/
def HasIndex (h : Table) (idx : Nat) : Prop := idx < h.codes.length ∧ idx < h.lengths.length

/-- In a table that meets R85 no code word begins that of a later index, nor is begun by it. -/
theorem codeBits_not_prefix {h : Table} (hfree : h.PrefixFree) {i j : Nat} (hj : HasIndex h j) (hij : i < j) :
    ¬ codeBits h i <+: codeBits h j ∧ ¬ codeBits h j <+: codeBits h i := by
  obtain ⟨hcodes, hlengths⟩ := hj
  have hlength : h.words.length = min h.codes.length h.lengths.length := List.length_zip
  have hj : j < h.words.length := by omega
  have hword : ∀ k (hk : k < h.words.length), bitsN h.words[k].1 h.words[k].2 = codeBits h k := by
    intro k hk
    have hk' : k < h.codes.length ∧ k < h.lengths.length := by omega
    unfold codeBits
    rw [List.getD_eq_getElem _ _ hk'.1, List.getD_eq_getElem _ _ hk'.2]
    simp only [Table.words, List.getElem_zip]
  obtain ⟨hforth, hback⟩ := List.pairwise_iff_getElem.mp hfree i j (hij.trans hj) hj hij
  rw [← hword i (hij.trans hj), ← hword j hj, ← codeIsPrefix_iff, ← codeIsPrefix_iff, hforth, hback]
  exact ⟨nofun, nofun⟩

/-- R124: a code word is told apart by any string it begins. -/
theorem codeBits_append_inj {h : Table} (hfree : h.PrefixFree) {i j : Nat} (hi : HasIndex h i) (hj : HasIndex h j)
    {r r' : List Bool} (heq : codeBits h i ++ r = codeBits h j ++ r') : i = j ∧ r = r' := by
  have hprefix := List.prefix_or_prefix_of_prefix (List.prefix_append (codeBits h i) r)
    (heq ▸ List.prefix_append (codeBits h j) r')
  rcases Nat.lt_trichotomy i j with hlt | rfl | hlt
  · obtain ⟨hforth, hback⟩ := codeBits_not_prefix hfree hj hlt
    exact (hprefix.elim hforth hback).elim
  · exact ⟨rfl, List.append_cancel_left heq⟩
  · obtain ⟨hforth, hback⟩ := codeBits_not_prefix hfree hi hlt
    exact (hprefix.elim hback hforth).elim

/-! ## Signs and extensions -/

/-- A sign is told apart once the magnitude is known (R56). -/
theorem signBits_append_inj {x x' : Int} (habs : x.natAbs = x'.natAbs) {r r' : List Bool}
    (heq : signBits x ++ r = signBits x' ++ r') : x = x' ∧ r = r' := by
  unfold signBits at heq
  by_cases h0 : x = 0
  · have h0' : x' = 0 := by omega
    rw [if_pos h0, if_pos h0'] at heq
    exact ⟨h0.trans h0'.symm, heq⟩
  · rw [if_neg h0, if_neg (by omega)] at heq
    obtain ⟨hsign, hrest⟩ := List.cons.inj heq
    have hiff : x < 0 ↔ x' < 0 := by simpa using hsign
    exact ⟨by omega, hrest⟩

/-- The extension of a magnitude in table `t`: none up to table 15 (R53, R54). -/
def tableEscapeBits (h : Table) (t a : Nat) : List Bool := if 15 < t ∧ 14 < a then bitsN (a - 15) h.linbits else []

/-- The layout of a pair, in every table: the code word at the clamped index, then each extension and sign (R53, R54). -/
theorem pairLayout_eq (h : Table) (t : Nat) (x y : Int) : pairLayout h t x y =
    codeBits h (pairIndex h t x.natAbs y.natAbs) ++ (tableEscapeBits h t x.natAbs ++ (signBits x ++
      (tableEscapeBits h t y.natAbs ++ signBits y))) := by
  unfold pairLayout tableEscapeBits escapeBits pairIndex
  simp only [clampMag_eq]
  by_cases h15 : 15 < t <;> simp [h15]

/-- A magnitude is told apart by its index and its extension, which carries it (R54, R87). -/
theorem tableEscapeBits_append_inj {h : Table} {t a a' : Nat} (hclamp : clampMag t a = clampMag t a')
    (hfit : 15 < t → a - 15 < 2 ^ h.linbits) (hfit' : 15 < t → a' - 15 < 2 ^ h.linbits) {r r' : List Bool}
    (heq : tableEscapeBits h t a ++ r = tableEscapeBits h t a' ++ r') : a = a' ∧ r = r' := by
  rw [clampMag_eq, clampMag_eq] at hclamp
  unfold tableEscapeBits at heq
  by_cases hesc : 15 < t ∧ 14 < a
  · have hesc' : 15 < t ∧ 14 < a' := by
      by_contra hplain
      rw [if_pos hesc, if_neg hplain] at hclamp
      omega
    rw [if_pos hesc, if_pos hesc'] at heq
    obtain ⟨hbits, hrest⟩ := List.append_inj heq (by simp)
    have hmod := (bitsN_eq_iff _ _ _).mp hbits
    rw [Nat.mod_eq_of_lt (hfit hesc.1), Nat.mod_eq_of_lt (hfit' hesc.1)] at hmod
    exact ⟨by omega, hrest⟩
  · have hesc' : ¬ (15 < t ∧ 14 < a') := by
      intro hesc'
      rw [if_neg hesc, if_pos hesc'] at hclamp
      omega
    rw [if_neg hesc, if_neg hesc'] at hclamp heq
    exact ⟨hclamp, heq⟩

/-! ## Indices -/

/-- The index of a pair gives both clamped magnitudes (R53, R54). -/
theorem pairIndex_inj {h : Table} {t ax ay ax' ay' : Nat} (hy : clampMag t ay < h.ylen) (hy' : clampMag t ay' < h.ylen)
    (heq : pairIndex h t ax ay = pairIndex h t ax' ay') :
    clampMag t ax = clampMag t ax' ∧ clampMag t ay = clampMag t ay' := by
  have hdivmod : ∀ a b, b < h.ylen → (a * h.ylen + b) / h.ylen = a ∧ (a * h.ylen + b) % h.ylen = b := by
    intro a b hb
    rw [Nat.mul_comm, Nat.mul_add_div (by omega), Nat.div_eq_of_lt hb, Nat.mul_add_mod, Nat.mod_eq_of_lt hb]
    exact ⟨rfl, rfl⟩
  obtain ⟨hdiv, hmod⟩ := hdivmod (clampMag t ax) _ hy
  obtain ⟨hdiv', hmod'⟩ := hdivmod (clampMag t ax') _ hy'
  unfold pairIndex at heq
  exact ⟨by rw [← hdiv, heq, hdiv'], by rw [← hmod, heq, hmod']⟩

/-- The index of a quadruple of the count1 region gives its magnitudes (R55, R104). -/
theorem quadPattern_inj {v w x y v' w' x' y' : Int} (h : QuadRepresentable v w x y) (h' : QuadRepresentable v' w' x' y')
    (heq : quadPattern v w x y = quadPattern v' w' x' y') :
    v.natAbs = v'.natAbs ∧ w.natAbs = w'.natAbs ∧ x.natAbs = x'.natAbs ∧ y.natAbs = y'.natAbs := by
  have hbit : ∀ n : Int, n.natAbs ≤ 1 → nonzeroBit n = n.natAbs := by
    intro n hn
    rw [nonzeroBit_eq]
    split_ifs <;> omega
  obtain ⟨hv, hw, hx, hy⟩ := h
  obtain ⟨hv', hw', hx', hy'⟩ := h'
  unfold quadPattern at heq
  rw [hbit v hv, hbit w hw, hbit x hx, hbit y hy, hbit v' hv', hbit w' hw', hbit x' hx', hbit y' hy'] at heq
  have hdigits : ∀ {a b c d a' b' c' d' : Nat}, a ≤ 1 → b ≤ 1 → c ≤ 1 → a' ≤ 1 → b' ≤ 1 → c' ≤ 1 →
      a + 2 * b + 4 * c + 8 * d = a' + 2 * b' + 4 * c' + 8 * d' → a = a' ∧ b = b' ∧ c = c' ∧ d = d' := by omega
  exact hdigits hv hw hx hv' hw' hx' heq

/-! ## The layouts -/

/-- What a representable pair has in a table of a well-formed ROM: an index of the arrays, and extensions that fit. -/
theorem representable_bounds {ht : Rom} (hw : ht.WellFormed) {t : Nat} (h32 : t < 32) {x y : Int}
    (h : Representable (ht.table t) t x y) :
    HasIndex (ht.table t) (pairIndex (ht.table t) t x.natAbs y.natAbs) ∧ clampMag t y.natAbs < (ht.table t).ylen ∧
      (15 < t → x.natAbs - 15 < 2 ^ (ht.table t).linbits ∧ y.natAbs - 15 < 2 ^ (ht.table t).linbits) := by
  obtain ⟨_, hx, hy⟩ := (representable_iff hw h32 x y).mp h
  obtain ⟨hcodes, hlengths⟩ := wellFormed_pair_sizes hw h32
  have hidx := pairIndex_lt hx hy
  refine ⟨⟨hcodes ▸ hidx, hlengths ▸ hidx⟩, hy, fun h15 => ?_⟩
  obtain ⟨_, _, hfit⟩ := wellFormed_escape hw h15 h32
  unfold Representable at h
  rw [if_pos h15] at h
  omega

/-- R124 for pairs. -/
theorem pairLayout_append_inj {ht : Rom} (hw : ht.WellFormed) {t : Nat} (h32 : t < 32) {x y x' y' : Int}
    (h : Representable (ht.table t) t x y) (h' : Representable (ht.table t) t x' y') {r r' : List Bool}
    (heq : pairLayout (ht.table t) t x y ++ r = pairLayout (ht.table t) t x' y' ++ r') : x = x' ∧ y = y' ∧ r = r' := by
  obtain ⟨hidx, hy, hfit⟩ := representable_bounds hw h32 h
  obtain ⟨hidx', hy', hfit'⟩ := representable_bounds hw h32 h'
  simp only [pairLayout_eq, List.append_assoc] at heq
  obtain ⟨hindex, heq⟩ := codeBits_append_inj (hw.2.2.2.1 t (by omega)) hidx hidx' heq
  obtain ⟨hcx, hcy⟩ := pairIndex_inj hy hy' hindex
  obtain ⟨hax, heq⟩ := tableEscapeBits_append_inj hcx (fun h15 => (hfit h15).1) (fun h15 => (hfit' h15).1) heq
  obtain ⟨hx, heq⟩ := signBits_append_inj hax heq
  obtain ⟨hay, heq⟩ := tableEscapeBits_append_inj hcy (fun h15 => (hfit h15).2) (fun h15 => (hfit' h15).2) heq
  obtain ⟨hy, hrest⟩ := signBits_append_inj hay heq
  exact ⟨hx, hy, hrest⟩

/-- R124 for quadruples. -/
theorem quadLayout_append_inj {ht : Rom} (hw : ht.WellFormed) {sel : Nat} (h1 : sel ≤ 1) {v w x y v' w' x' y' : Int}
    (h : QuadRepresentable v w x y) (h' : QuadRepresentable v' w' x' y') {r r' : List Bool}
    (heq : quadLayout (ht.table (32 + sel)) v w x y ++ r = quadLayout (ht.table (32 + sel)) v' w' x' y' ++ r') :
    v = v' ∧ w = w' ∧ x = x' ∧ y = y' ∧ r = r' := by
  obtain ⟨hcodes, hlengths⟩ := wellFormed_quad_sizes hw h1
  have hindex : ∀ a b c d, HasIndex (ht.table (32 + sel)) (quadPattern a b c d) := fun a b c d =>
    ⟨hcodes ▸ quadPattern_lt a b c d, hlengths ▸ quadPattern_lt a b c d⟩
  unfold quadLayout at heq
  simp only [← quadPattern_eq, List.append_assoc] at heq
  obtain ⟨hpattern, heq⟩ :=
    codeBits_append_inj (hw.2.2.2.1 (32 + sel) (by omega)) (hindex _ _ _ _) (hindex _ _ _ _) heq
  obtain ⟨hav, haw, hax, hay⟩ := quadPattern_inj h h' hpattern
  obtain ⟨hv, heq⟩ := signBits_append_inj hav heq
  obtain ⟨hw', heq⟩ := signBits_append_inj haw heq
  obtain ⟨hx, heq⟩ := signBits_append_inj hax heq
  obtain ⟨hy, hrest⟩ := signBits_append_inj hay heq
  exact ⟨hv, hw', hx, hy, hrest⟩

/-! ## The statement -/

/-- Settles O54: each part of a layout is told apart by what it begins, given the parts before it. -/
theorem emittedCodesDecodeUniquely : Obligations.EmittedCodesDecodeUniquely := fun _ hw =>
  ⟨fun _ _ _ _ _ _ _ _ h31 h h' => pairLayout_append_inj hw (Nat.lt_succ_of_le h31) h h',
    fun _ _ _ _ _ _ _ _ _ _ _ h1 h h' => quadLayout_append_inj hw h1 h h'⟩

end Sys2Proof.Machine
end

section
/-! Proofs about code emission (spec 43_huffman_emit.md), part 4: a granule and its single commands. First what it is for a
command, and for a run of symbols, to emit a bit string, then that each emission command emits its layout, then the symbols
of a granule, then the statement. -/

namespace Sys2Proof.Machine

/-! ## Emitting a bit string -/

/-- From `s` the command emits `bits` where `ok` holds: if it completes then `ok` holds and it has appended `bits`, and where
`ok` holds and there is room it completes (R115, R120). -/
structure Emits (i : Instr) (s : State) (ok : Prop) (bits : List Bool) : Prop where
  of_completed : ∀ t, exec i s = .next t → t.status.last = .none → ok ∧ Appends s.params.capLimit s.writer bits t.writer
  completes : ok → HasRoom s.params.capLimit s.writer bits.length → ∃ t, exec i s = .next t ∧ t.status.last = .none

/-- A command that faults where `ok` fails. -/
theorem Emits.of_fault {i : Instr} {s : State} {c : FaultCode} {ok : Prop} (bits : List Bool)
    (h : exec i s = .next (s.withFault c)) (hc : c ≠ .none) (hok : ¬ ok) : Emits i s ok bits where
  of_completed t ht hl := by
    cases h.symm.trans ht
    exact absurd hl hc
  completes h := absurd h hok

/-- A rule that ends in the emission of fields emits the bits they spell. -/
theorem EndsInEmission.emits {i : Instr} {s : State} {fields : List Field} {f : Writer → State} {ok : Prop}
    (h : EndsInEmission i s fields f) (hs : s.Ready) (hi : s.Inv) (hok : ok) : Emits i s ok (fieldsBits fields) where
  of_completed t ht hl := by
    by_cases hroom : HasRoom s.params.capLimit s.writer (totalWidth fields)
    · obtain ⟨w, hexec, happ⟩ := h.exec_of_hasRoom hs hi hroom
      cases hexec.symm.trans ht
      exact ⟨hok, (h.writer w).symm ▸ happ⟩
    · cases (h.exec_of_not_hasRoom hs hi hroom).symm.trans ht
      cases hl
  completes _ hroom := by
    rw [fieldsBits_length] at hroom
    obtain ⟨w, hexec, _⟩ := h.exec_of_hasRoom hs hi hroom
    exact ⟨_, hexec, rfl⟩

theorem encodePair_emits {t : Nat} {s : State} (hs : s.Ready) (hi : s.Inv) (hw : s.params.ht.WellFormed) (h32 : t < 32) :
    Emits (.encodePair t) s
      (t ≠ 0 → Representable (s.params.ht.table t) t (signed s.regs.op0) (signed s.regs.op1))
      (if t = 0 then [] else pairLayout (s.params.ht.table t) t (signed s.regs.op0) (signed s.regs.op1)) := by
  obtain ⟨hzero, _, hviolation, _⟩ := encodePairAppendsItsCode s t hs hi hw
  by_cases h0 : t = 0
  · rw [if_pos h0]
    refine ⟨fun u hu _ => ?_, fun _ _ => ⟨_, hzero h0, rfl⟩⟩
    cases (hzero h0).symm.trans hu
    exact ⟨fun hne => absurd h0 hne, .refl (hi.writer hs.1)⟩
  · rw [if_neg h0]
    by_cases hrep : Representable (s.params.ht.table t) t (signed s.regs.op0) (signed s.regs.op1)
    · rw [← pairFields_bits hw h32 hrep]
      exact (encodePair_endsInEmission hw (by omega) (by omega) hrep).emits hs hi fun _ => hrep
    · exact .of_fault _ (hviolation (by omega) (by omega) hrep) nofun fun hok => hrep (hok h0)

theorem encodeQuad_emits {sel : Nat} {s : State} (hs : s.Ready) (hi : s.Inv) (hw : s.params.ht.WellFormed)
    (h1 : sel ≤ 1) :
    Emits (.encodeQuad sel) s
      (QuadRepresentable (signed s.regs.op0) (signed s.regs.op1) (signed s.regs.op2) (signed s.regs.op3))
      (quadLayout (s.params.ht.table (32 + sel)) (signed s.regs.op0) (signed s.regs.op1) (signed s.regs.op2)
        (signed s.regs.op3)) := by
  obtain ⟨_, hviolation, _⟩ := encodeQuadAppendsItsCode s sel hs hi hw
  by_cases hrep : QuadRepresentable (signed s.regs.op0) (signed s.regs.op1) (signed s.regs.op2) (signed s.regs.op3)
  · rw [← quadFieldList_bits]
    exact (encodeQuad_endsInEmission hw h1 hrep).emits hs hi hrep
  · exact .of_fault _ (hviolation h1 hrep) nofun hrep

theorem encodeGranule_emits {s : State} (hs : s.Ready) (hi : s.Inv) (hw : s.params.ht.WellFormed) :
    Emits .encodeGranule s (GranuleOk s.granule ∧ GranuleRepresentable s) (granuleLayout s) := by
  by_cases hg : GranuleOk s.granule
  · by_cases hrep : GranuleRepresentable s
    · obtain ⟨fields, hbits, hend⟩ := encodeGranule_endsInEmission hw hg hrep
      rw [← hbits]
      exact hend.emits hs hi ⟨hg, hrep⟩
    · obtain ⟨hviolation, _⟩ := encodeGranuleAppendsItsRegions s hs hi hw hg
      exact .of_fault _ (hviolation hrep) nofun fun hok => hrep hok.2
  · obtain ⟨hbig, hother, _⟩ := granuleRegisterChecksInOrder s hs hw
    by_cases h288 : 288 < s.granule.bigValues.toNat
    · exact .of_fault _ (hbig h288) nofun fun hok => hg hok.1
    · exact .of_fault _ (hother (Nat.not_lt.mp h288) hg) nofun fun hok => hg hok.1

/-! ## Runs of symbols -/

/-- Under the parameters `p` the symbol, issued from any ready state, emits `bits` where `ok` holds. -/
def Symbol.Emits (p : Params) (y : Symbol) (ok : Prop) (bits : List Bool) : Prop :=
  ∀ s : State, s.Ready → s.Inv → s.params = p → Machine.Emits y.instr (s.withOperands y) ok bits

/-- From `s` the symbols, one after the other, emit `bits` where `ok` holds (R129). -/
structure RunEmits (ys : List Symbol) (s : State) (ok : Prop) (bits : List Bool) : Prop where
  of_completed : ∀ v, CompletesAs ys s v → ok ∧ Appends s.params.capLimit s.writer bits v.writer
  completes : ok → HasRoom s.params.capLimit s.writer bits.length → ∃ v, CompletesAs ys s v

/-- A run of symbols emits what each of them emits, one after the other (R70, R129). -/
theorem runEmits_map {α : Type} {p : Params} {symbol : α → Symbol} {ok : α → Prop} {bits : α → List Bool}
    (hstep : ∀ a, (symbol a).Emits p (ok a) (bits a)) {l : List α} : ∀ {s : State}, s.Ready → s.Inv → s.params = p →
    RunEmits (l.map symbol) s (∀ a ∈ l, ok a) (l.map bits).flatten := by
  induction l with
  | nil =>
    refine fun hs hi _ => ⟨?_, fun _ _ => ⟨_, rfl⟩⟩
    rintro v rfl
    exact ⟨nofun, .refl (hi.writer hs.1)⟩
  | cons a l ih =>
    intro s hs hi hp
    have hfirst := hstep a s hs hi hp
    have hrest : ∀ u, exec (symbol a).instr (s.withOperands (symbol a)) = .next u → u.status.last = .none →
        u.params = s.params ∧ RunEmits (l.map symbol) u (∀ b ∈ l, ok b) (l.map bits).flatten := by
      intro u hu hl
      obtain ⟨hui, hparams⟩ := exec_inv (hi.withOperands (symbol a)) hu
      exact ⟨hparams, ih ((hs.withOperands (symbol a)).of_completed hu hl) hui (hparams.trans hp)⟩
    simp only [List.map_cons, List.flatten_cons, List.forall_mem_cons]
    refine ⟨fun v hv => ?_, fun ⟨hok, hoks⟩ hroom => ?_⟩
    · obtain ⟨u, hu, hl, hv⟩ := completesAs_cons.mp hv
      obtain ⟨hparams, hrun⟩ := hrest u hu hl
      obtain ⟨hok, happ⟩ := hfirst.of_completed u hu hl
      obtain ⟨hoks, happs⟩ := hrun.of_completed v hv
      rw [hparams] at happs
      exact ⟨⟨hok, hoks⟩, happ.trans happs⟩
    · rw [List.length_append] at hroom
      obtain ⟨u, hu, hl⟩ := hfirst.completes hok (hroom.mono (Nat.le_add_right _ _))
      obtain ⟨hparams, hrun⟩ := hrest u hu hl
      obtain ⟨_, happ⟩ := hfirst.of_completed u hu hl
      have hroom' : HasRoom u.params.capLimit u.writer (l.map bits).flatten.length := by
        rw [hparams]
        exact happ.hasRoom_iff.mpr hroom
      obtain ⟨v, hv⟩ := hrun.completes hoks hroom'
      exact ⟨v, completesAs_cons.mpr ⟨u, hu, hl, hv⟩⟩

theorem pairSymbol_emits {p : Params} (hw : p.ht.WellFormed) {t : Nat} (h32 : t < 32) (x y o2 o3 : Word) :
    Symbol.Emits p ⟨.encodePair t, x, y, o2, o3⟩ (t ≠ 0 → Representable (p.ht.table t) t (signed x) (signed y))
      (if t = 0 then [] else pairLayout (p.ht.table t) t (signed x) (signed y)) := by
  rintro s hs hi rfl
  exact encodePair_emits (hs.withOperands ⟨.encodePair t, x, y, o2, o3⟩) (hi.withOperands _) hw h32

theorem quadSymbol_emits {p : Params} (hw : p.ht.WellFormed) {sel : Nat} (h1 : sel ≤ 1) (v w x y : Word) :
    Symbol.Emits p ⟨.encodeQuad sel, v, w, x, y⟩ (QuadRepresentable (signed v) (signed w) (signed x) (signed y))
      (quadLayout (p.ht.table (32 + sel)) (signed v) (signed w) (signed x) (signed y)) := by
  rintro s hs hi rfl
  exact encodeQuad_emits (hs.withOperands ⟨.encodeQuad sel, v, w, x, y⟩) (hi.withOperands _) hw h1

/-! ## The symbols of a granule -/

/-- The symbols of a granule in stream order: its pairs on the left, its quadruples on the right (R126). -/
def granuleItems (s : State) : List (Nat ⊕ Nat) :=
  (List.range s.granule.bigValues.toNat).map .inl ++ (List.range s.granule.count1.toNat).map .inr

theorem map_granuleItems {β : Type} (f : Nat ⊕ Nat → β) (s : State) : (granuleItems s).map f =
    (List.range s.granule.bigValues.toNat).map (fun k => f (.inl k)) ++
      (List.range s.granule.count1.toNat).map fun k => f (.inr k) := by
  unfold granuleItems
  rw [List.map_append, List.map_map, List.map_map]
  rfl

/-- A symbol of a granule as a single command (R129). -/
def granuleSymbol (s : State) : Nat ⊕ Nat → Symbol
  | .inl k => ⟨.encodePair (granuleTable s.granule (2 * k)), coefficientWord s.ix (2 * k),
      coefficientWord s.ix (2 * k + 1), s.regs.op2, s.regs.op3⟩
  | .inr k => ⟨.encodeQuad s.granule.count1TableSelect.toNat,
      coefficientWord s.ix (2 * s.granule.bigValues.toNat + 4 * k),
      coefficientWord s.ix (2 * s.granule.bigValues.toNat + 4 * k + 1),
      coefficientWord s.ix (2 * s.granule.bigValues.toNat + 4 * k + 2),
      coefficientWord s.ix (2 * s.granule.bigValues.toNat + 4 * k + 3)⟩

/-- A symbol of a granule is representable in its table; table 0 takes any pair (R117, R126). -/
def GranuleItemOk (s : State) : Nat ⊕ Nat → Prop
  | .inl k => GranulePairOk s.params.ht s.granule (coefficient s) (2 * k)
  | .inr k => QuadRepresentableAt s (2 * s.granule.bigValues.toNat + 4 * k)

/-- The bits of a symbol of a granule (R126). -/
def granuleItemBits (s : State) : Nat ⊕ Nat → List Bool
  | .inl k => granulePairLayout s k
  | .inr k => granuleQuadLayout s k

theorem granuleSymbols_eq (s : State) : granuleSymbols s = (granuleItems s).map (granuleSymbol s) :=
  (map_granuleItems (granuleSymbol s) s).symm

theorem granuleLayout_eq (s : State) : granuleLayout s = ((granuleItems s).map (granuleItemBits s)).flatten := by
  rw [map_granuleItems, List.flatten_append]
  rfl

theorem granuleRepresentable_iff (s : State) : GranuleRepresentable s ↔ ∀ a ∈ granuleItems s, GranuleItemOk s a := by
  unfold granuleItems
  simp only [List.forall_mem_append, List.forall_mem_map, List.mem_range]
  rfl

/-- Each single command of a granule with good registers emits the bits of its symbol (R116, R117, R122). -/
theorem granuleSymbol_emits {s : State} (hw : s.params.ht.WellFormed) (hg : GranuleOk s.granule) :
    ∀ a, (granuleSymbol s a).Emits s.params (GranuleItemOk s a) (granuleItemBits s a)
  | .inl k => pairSymbol_emits hw (granuleTable_lt hg (2 * k)) _ _ _ _
  | .inr _ => by
    have ⟨_, _, _, _, _, _, _, _, _, _, hsel⟩ := hg
    exact quadSymbol_emits hw hsel _ _ _ _

/-- The single commands of a granule with good registers emit its layout where its symbols are representable (R129). -/
theorem granuleSymbols_emit {s : State} (hs : s.Ready) (hi : s.Inv) (hw : s.params.ht.WellFormed)
    (hg : GranuleOk s.granule) : RunEmits (granuleSymbols s) s (GranuleRepresentable s) (granuleLayout s) := by
  rw [granuleSymbols_eq, granuleLayout_eq, granuleRepresentable_iff]
  exact runEmits_map (granuleSymbol_emits hw hg) hs hi rfl

/-! ## The statement -/

/-- A command that reports a fault leaves the writer as it was (R135). -/
theorem exec_fault_keeps_writer {i : Instr} {s t : State} (h : exec i s = .next t) (hl : t.status.last ≠ .none) :
    t.writer = s.writer := by
  rcases exec_cases h with ⟨c, l, _, _, rfl⟩ | rfl | ⟨_, _, _, rfl⟩ | ⟨_, w, v0, v1, rfl, _⟩
  · rfl
  · rfl
  · exact absurd rfl hl
  · exact absurd rfl hl

/-- Settles O57: the command and the run of single commands emit the same layout, which determines the writer. -/
theorem granuleEqualsSingleCommands : Obligations.GranuleEqualsSingleCommands := by
  intro s t hs hi hw ht
  have hgranule := encodeGranule_emits hs hi hw
  refine ⟨fun hl => ?_, fun u hg hu => ?_, exec_fault_keeps_writer ht⟩
  · obtain ⟨⟨hg, hrep⟩, happ⟩ := hgranule.of_completed t ht hl
    have hrun := granuleSymbols_emit hs hi hw hg
    obtain ⟨u, hu⟩ := hrun.completes hrep happ.hasRoom
    exact ⟨u, hu, (hrun.of_completed u hu).2.unique happ⟩
  · obtain ⟨hrep, happ⟩ := (granuleSymbols_emit hs hi hw hg).of_completed u hu
    obtain ⟨t', ht', hl⟩ := hgranule.completes ⟨hg, hrep⟩ happ.hasRoom
    cases ht.symm.trans ht'
    exact ⟨hl, happ.unique (hgranule.of_completed t ht hl).2⟩

end Sys2Proof.Machine
end

section
/-! Proofs about faults (spec 60_exceptions.md). First the latch rule on a state, then that every way a command can end in a
fault is one raise by the latch rule, then the statements. -/

namespace Sys2Proof.Machine

/-! ## The latch rule -/

/-- With nothing latched, a code that may latch goes to `FAULT` and `LAST` (R141). -/
theorem raiseFault_of_latches {s : State} {l : Bool} (c : FaultCode) (h : s.status.fault = .none ∧ l = true) :
    raiseFault c l s = { s with status := ⟨s.status.init, c, c⟩ } := by
  unfold raiseFault Status.raise
  rw [if_pos h]

/-- Where a fault is latched already, or the code may not latch, only `LAST` takes the code (R141). -/
theorem raiseFault_of_not_latches {s : State} {l : Bool} (c : FaultCode) (h : ¬(s.status.fault = .none ∧ l = true)) :
    raiseFault c l s = s.withLast c := by
  unfold raiseFault Status.raise
  rw [if_neg h]
  rfl

/-! ## A command that ends in a fault -/

/-- A command that reports a fault has raised it by the latch rule of its kind, whichever check or rule it failed. The
refusal while a fault is latched is no exception: it raises the latched code again (R141, R142). -/
theorem exec_fault {i : Instr} {s t : State} (h : exec i s = .next t) (hl : t.status.last ≠ .none) :
    ∃ c, t = raiseFault c ((commandKind i).latches c) s := by
  rw [exec_eq] at h
  rcases runCommand_cases h with ⟨_, _, rfl⟩ | ⟨_, _, hlatched, rfl⟩ | ⟨_, c, _, rfl⟩ | ⟨_, s', _, rfl⟩
  · have hlatches : (commandKind i).latches .notInitialised = true := (commandKind_latches i _).mpr nofun
    exact ⟨.notInitialised, by rw [hlatches]⟩
  · exact ⟨s.status.fault, (raiseFault_of_not_latches _ fun hnone => hlatched hnone.1).symm⟩
  · exact ⟨c, rfl⟩
  · exact absurd rfl hl

/-- A command completes with `LAST` 0 or changes nothing but `STATUS` (R135, R142). -/
theorem exec_completed_or_status_only {i : Instr} {s t : State} (h : exec i s = .next t) :
    t.status.last = .none ∨ t = { s with status := t.status } := by
  by_cases hl : t.status.last = .none
  · exact .inl hl
  · obtain ⟨c, rfl⟩ := exec_fault h hl
    exact .inr rfl

/-! ## The statements -/

/-- Settles O21: every command runs in the frame of R142, which always answers a next state. -/
theorem commandsAlwaysAnswer : Obligations.CommandsAlwaysAnswer := by
  intro i s
  rw [exec_eq]
  exact runCommand_next _ _ s

/-- Settles O18: each entry check in turn; past them the step is the command itself. -/
theorem entryChecksInOrder : Obligations.EntryChecksInOrder := by
  intro s w q hq
  refine ⟨step_illegalWord hq, fun i hd => ?_⟩
  have hstep := step_legalWord hq hd
  refine ⟨fun hnew hinit => ?notInitialised, fun hnew hcount hinit hfault => ?refused, fun _ => ?accepted⟩
  case notInitialised => exact hstep.trans (exec_notInitialised hnew hinit)
  case refused => exact hstep.trans (exec_refused ⟨hnew, hcount⟩ hinit hfault)
  case accepted =>
    obtain ⟨t, ht⟩ := commandsAlwaysAnswer i { s with hostQueue := q }
    exact ⟨hstep, t, hstep.trans ht, exec_completed_or_status_only ht⟩

/-- Settles O19: the fault reported was raised by the latch rule, whose two outcomes are the two clauses. -/
theorem faultsFollowTheLatchRule : Obligations.FaultsFollowTheLatchRule := by
  intro i s t h hl
  obtain ⟨c, rfl⟩ := exec_fault h hl
  have hlast : (raiseFault c ((commandKind i).latches c) s).status.last = c := rfl
  rw [hlast, ← commandKind_latches]
  exact ⟨raiseFault_of_latches c, raiseFault_of_not_latches c⟩

/-- Settles O20: the first clause is the `INIT` check; on a ready state `LAST` is the code of the command's own rule, and no
rule raises `NotInitialised`. -/
theorem commandsBeforeNewRaiseNotInitialised : Obligations.CommandsBeforeNewRaiseNotInitialised := by
  intro i s hnew
  refine ⟨exec_notInitialised hnew, fun hs t h hl => ?_⟩
  have hrule : commandRule i s = .error .notInitialised := (exec_last_iff (c := .notInitialised) hs h nofun).mp hl
  exact (commandRule_error hrule).ne_notInitialised rfl

end Sys2Proof.Machine
end

section
/-! Proofs about reset and hazards (spec 70_reset_and_hazards.md). First what it is for a writer to keep the bytes
written before, then what a command can do to them, then the statement. -/

namespace Sys2Proof.Machine

/-! ## The bytes already written -/

/-- `w'` holds every byte that `w` has put in `OUT`: the cursor has not fallen and the bytes below it stand (R31). -/
def Writer.KeepsOut (w w' : Writer) : Prop := w.pos ≤ w'.pos ∧ ∀ k, k < w.pos → w'.buf.read k = w.buf.read k

theorem Writer.KeepsOut.of_eq {w w' : Writer} (h : w' = w) : w.KeepsOut w' := h ▸ ⟨le_rfl, fun _ _ => rfl⟩

theorem WriterGrows.keepsOut {lim : Nat} {w w' : Writer} (h : WriterGrows lim w w') (hw : w.Inv lim) : w.KeepsOut w' :=
  (h hw).2

/-- A command keeps the written bytes, or it is a `NEW` or a `RESET` that empties the buffer (R62, R69, R160). A command
that completes has passed the `INIT` check or is `NEW`, so the writer met R16 before every other rule that ran. -/
theorem exec_keepsOut_or_empties {i : Instr} {s t : State} (hs : s.Inv) (h : exec i s = .next t) :
    s.writer.KeepsOut t.writer ∨ ((i = .new ∨ i = .reset) ∧ t.writer.pos = 0 ∧ t.writer.buf = []) := by
  by_cases hl : t.status.last = .none
  case neg => exact .inl (.of_eq (exec_fault_keeps_writer h hl))
  by_cases hnew : i = .new
  · subst hnew
    rw [new_completed h hl]
    exact .inr ⟨.inl rfl, rfl, rfl⟩
  · obtain ⟨haccepts, s', hrule, rfl⟩ := exec_completed h hl
    have hinit : s.status.init = true := haccepts.1 ((commandKind_needsInit i).mpr hnew)
    obtain ⟨w, v0, v1, rfl, hwriter, _⟩ := commandRule_ok hnew hrule
    rcases hwriter with ⟨hreset, rfl⟩ | ⟨_, hgrows⟩
    · exact .inr ⟨.inr hreset, rfl, rfl⟩
    · exact .inl (hgrows.keepsOut (hs.writer hinit))

/-! ## The statement -/

/-- Settles O12: of the four things a step can be, only the run of a command touches the writer at all. -/
theorem outBytesBelowPosAreFinal : Obligations.OutBytesBelowPosAreFinal := by
  intro s t hs h
  rcases step_cases h with ⟨_, rfl⟩ | ⟨w, q, e, _, _, rfl⟩ | ⟨w, q, i, hq, hd, he⟩ | ⟨a, q, _, _, ha⟩
  · exact .inl (Writer.KeepsOut.of_eq rfl)
  · exact .inl (Writer.KeepsOut.of_eq rfl)
  · rcases exec_keepsOut_or_empties (hs.setQueue q) he with hkeeps | ⟨rfl | rfl, hempty⟩
    · exact .inl hkeeps
    · exact .inr ⟨w, q, hq, .inl hd, hempty⟩
    · exact .inr ⟨w, q, hq, .inr hd, hempty⟩
  · have hwriter : t.writer = s.writer := (hostAccess_frame ha).1
    exact .inl (Writer.KeepsOut.of_eq hwriter)

end Sys2Proof.Machine
end
